-- ==== Sys2Proof/Word.lean ====
section
/-!
DEFINITION. The word types of the block: bytes, bits, the 32-bit command word and the 4-bit status code
(00_scope.md R10, R11; 30_encoding.md R71, R74). Buffers are lists of these (20_memory.md R50, R51).
-/

namespace Sys2Proof

/-- `Byte`, 0 to 255 (00_scope.md R10; `SYMBOL_BITS` is fixed at 8, R8). -/
abbrev Byte := BitVec 8

/-- `Bit` (00_scope.md R10): `false` is 0, a step to the left child; `true` is 1, a step to the right (20_memory.md R53). -/
abbrev Bit := Bool

/-- A command word `CMD`, format `CMD32` (30_encoding.md R71). -/
abbrev CmdWord := BitVec 32

/-- A status code `STATUS`, 4 bits (30_encoding.md R74). -/
abbrev StatusCode := BitVec 4

end Sys2Proof
end

