-- ==== Sys2Proof/Config.lean ====
section
/-!
DEFINITION. The configuration of an instance: the OPEN parameters of 00_scope.md R8. The values are fixed when the
instance is built, and software cannot write them (10_state.md R25). They are plain data, held by State, so a
statement about every state is a statement about every configuration.
-/

namespace Sys2Proof

/-- One instance's parameters (00_scope.md R8; 10_state.md R25). `none` is the default of each: unbounded, no cap,
unbounded naturals. -/
structure Config where
  /-- The greatest length of an input buffer (30_encoding.md R78). -/
  MAX_INPUT_LEN : Option Nat := none
  /-- The greatest `windowSize` operand (30_encoding.md R78). -/
  WINDOW_MAX : Option Nat := none
  /-- The greatest length of an output buffer, in its elements (20_memory.md R60). -/
  OUTPUT_CAP : Option Nat := none
  /-- The width of an implementation's numbers (30_encoding.md R78, R86). -/
  COUNT_BITS : Option Nat := none
  deriving DecidableEq, Repr

/-- The default parameters (00_scope.md R8). -/
def Config.default : Config := {}

end Sys2Proof
end

