-- ==== Sys2Proof/Syntax.lean ====
section
/-!
DEFINITION. The syntax of the block: its ten commands (one constructor per row of spec/opcode_table.json) and the
value types that cross its interface as operands and results (10_state.md R26 to R34; 30_encoding.md R72, R73).
-/

namespace Sys2Proof

/-- The ten commands of `SWM-CMD` (30_encoding.md R75). The command word holds no operand (R71), so no constructor
takes one: a command reads its operands from the bundle issued with its word (R72). -/
inductive Instr where
  /-- 0x01 FIND_MATCH, U1 (40_window_matcher.md R103). -/
  | findMatch
  /-- 0x02 LZ_ENCODE, U2 (41_dictionary_codec.md R122). -/
  | lzEncode
  /-- 0x03 LZ_DECODE, U2 (41_dictionary_codec.md R129). -/
  | lzDecode
  /-- 0x04 TOKEN_FORMAT, U2 (41_dictionary_codec.md R135). -/
  | tokenFormat
  /-- 0x05 TOKEN_PARSE, U2 (41_dictionary_codec.md R137). -/
  | tokenParse
  /-- 0x10 FREQ_COUNT, U3 (42_tree_builder.md R150). -/
  | freqCount
  /-- 0x11 BUILD_TREE, U3 (42_tree_builder.md R155). -/
  | buildTree
  /-- 0x12 CODE_TABLE, U4 (43_entropy_codec.md R182). -/
  | codeTable
  /-- 0x13 ENT_ENCODE, U4 (43_entropy_codec.md R187). -/
  | entEncode
  /-- 0x14 ENT_DECODE, U4 (43_entropy_codec.md R191). -/
  | entDecode
  deriving DecidableEq, Repr

/-- The result of one window search (10_state.md R27). `literal = none` says that the run reaches the end of the
input (40_window_matcher.md R105). -/
structure Match where
  offset : Nat
  length : Nat
  literal : Option Byte
  deriving DecidableEq, Repr

/-- One unit of the dictionary codec's output (10_state.md R28). `literal = none` is the no-literal token. -/
structure Token where
  offset : Nat
  length : Nat
  literal : Option Byte
  deriving DecidableEq, Repr

/-- A tree node, the record `{symbol, frequency, left, right}` of 10_state.md R31. The record's two optional children
give four shapes, and each shape is a constructor, so that the type is a plain inductive; `Node.symbol`,
`Node.frequency`, `Node.left` and `Node.right` read the record's fields, and `Node.make` builds it from them. A Tree
is its root node. -/
inductive Node where
  /-- Both children absent. -/
  | leaf (symbol : Option Byte) (frequency : Nat)
  /-- Left child present, right child absent. -/
  | onlyLeft (symbol : Option Byte) (frequency : Nat) (l : Node)
  /-- Left child absent, right child present. -/
  | onlyRight (symbol : Option Byte) (frequency : Nat) (r : Node)
  /-- Both children present. -/
  | branch (symbol : Option Byte) (frequency : Nat) (l r : Node)
  deriving DecidableEq, Repr

/-- The record's `symbol` field (10_state.md R31). -/
def Node.symbol : Node → Option Byte
  | .leaf s _ => s
  | .onlyLeft s _ _ => s
  | .onlyRight s _ _ => s
  | .branch s _ _ _ => s

/-- The record's `frequency` field (10_state.md R31). -/
def Node.frequency : Node → Nat
  | .leaf _ f => f
  | .onlyLeft _ f _ => f
  | .onlyRight _ f _ => f
  | .branch _ f _ _ => f

/-- The record's `left` field (10_state.md R31). -/
def Node.left : Node → Option Node
  | .leaf _ _ => none
  | .onlyLeft _ _ l => some l
  | .onlyRight _ _ _ => none
  | .branch _ _ l _ => some l

/-- The record's `right` field (10_state.md R31). -/
def Node.right : Node → Option Node
  | .leaf _ _ => none
  | .onlyLeft _ _ _ => none
  | .onlyRight _ _ r => some r
  | .branch _ _ _ r => some r

/-- The node with the four given fields (10_state.md R31). -/
def Node.make (symbol : Option Byte) (frequency : Nat) : Option Node → Option Node → Node
  | none, none => .leaf symbol frequency
  | some l, none => .onlyLeft symbol frequency l
  | none, some r => .onlyRight symbol frequency r
  | some l, some r => .branch symbol frequency l r

/-- A Frequency Table: the count of each of the 256 byte values, indexed by the byte value (10_state.md R30). -/
abbrev FreqTable := Vector Nat 256

/-- A Code Table: for each of the 256 byte values its bit sequence, or none (10_state.md R33). -/
abbrev CodeTable := Vector (Option (List Bit)) 256

/-- The operand bundle `OPS` of a command (30_encoding.md R72): one named, typed place for each operand of the ten
commands. A command reads the operands its row of R72 lists and no others. -/
structure Operands where
  /-- `IN: Seq Byte` of FIND_MATCH, LZ_ENCODE, FREQ_COUNT, ENT_ENCODE. -/
  IN : List Byte
  /-- `pos: Nat` of FIND_MATCH. -/
  pos : Nat
  /-- `windowSize: Nat` of FIND_MATCH and LZ_ENCODE. -/
  windowSize : Nat
  /-- `TOK: Seq Token` of LZ_DECODE and TOKEN_FORMAT. -/
  TOK : List Token
  /-- `TEXT: Seq Byte` of TOKEN_PARSE. -/
  TEXT : List Byte
  /-- `F: FrequencyTable` of BUILD_TREE. -/
  F : FreqTable
  /-- `T: Tree` of CODE_TABLE and ENT_DECODE. -/
  T : Node
  /-- `C: CodeTable` of ENT_ENCODE. -/
  C : CodeTable
  /-- `BITS: Seq Bit` of ENT_DECODE. -/
  BITS : List Bit
  deriving DecidableEq, Repr

end Sys2Proof
end

