-- ==== Sys2Proof/Machine/State.lean ====
section
/-!
DEFINITION. The state of one instance of the block, as plain data: its configuration, its command interface, and the
working registers of a command in progress (10_state.md R20 to R41); the state after reset (70_reset_and_hazards.md
R240); the reasons a step can stop.
-/

namespace Sys2Proof.Machine

/-- The nine errors of 60_exceptions.md R210. An error is a result of a command, not a stop of the machine (R216). -/
inductive Err where
  | malformedToken
  | outOfRangeBackReference
  | truncatedInput
  | unknownSymbol
  | capacityExceeded
  | emptyAlphabet
  | corruptTree
  | illegalCommand
  | invalidArgument
  deriving DecidableEq, Repr

/-- A result bundle `RES` (30_encoding.md R73): one constructor per type of result, and `INFO` for a command that
ends with an error (60_exceptions.md R212). -/
inductive ResultBundle where
  /-- `M` of FIND_MATCH. -/
  | found (M : Match)
  /-- `OUT` of LZ_ENCODE and TOKEN_PARSE. -/
  | tokens (OUT : List Token)
  /-- `OUT` of LZ_DECODE, TOKEN_FORMAT and ENT_DECODE. -/
  | bytes (OUT : List Byte)
  /-- `F` of FREQ_COUNT. -/
  | counts (F : FreqTable)
  /-- `T` of BUILD_TREE. -/
  | tree (T : Node)
  /-- `C` of CODE_TABLE. -/
  | codes (C : CodeTable)
  /-- `OUT` of ENT_ENCODE. -/
  | bits (OUT : List Bit)
  /-- `INFO` of an error. -/
  | info (INFO : Nat)
  deriving DecidableEq, Repr

/-- The block's answer to a command, the pair `(STATUS, RES)` (30_encoding.md R70). -/
structure Response where
  STATUS : StatusCode
  RES : ResultBundle
  deriving DecidableEq, Repr

/-- A command as issued, the pair `(CMD, OPS)` (30_encoding.md R70). -/
structure Command where
  CMD : CmdWord
  OPS : Operands
  deriving DecidableEq, Repr

/-- An entry of BUILD_TREE's queue, `{node, seq}` (10_state.md R37). -/
structure Entry where
  node : Node
  seq : Nat
  deriving DecidableEq, Repr

/-- Working registers of FIND_MATCH (10_state.md R35). -/
structure FindMatchRegs where
  i : Nat
  run : Nat
  best : Match
  limit : Nat
  deriving DecidableEq, Repr

/-- Working registers of LZ_ENCODE (10_state.md R22, R36). `m` is unwritten before the first match. -/
structure LzEncodeRegs where
  pos : Nat
  m : Option Match
  OUT : List Token
  deriving DecidableEq, Repr

/-- The kinds of step LZ_DECODE takes for a token: its check, a copied byte, its literal (41_dictionary_codec.md R134). -/
inductive LzPhase where
  | check
  | copy
  | literal
  deriving DecidableEq, Repr

/-- Working registers of LZ_DECODE (10_state.md R36), with the kind of its next step. `src` is unwritten before the
first copy. -/
structure LzDecodeRegs where
  t : Nat
  OUT : List Byte
  src : Option Nat
  k : Nat
  phase : LzPhase
  deriving DecidableEq, Repr

/-- Working register of TOKEN_FORMAT (41_dictionary_codec.md R135). -/
structure TokenFormatRegs where
  OUT : List Byte
  deriving DecidableEq, Repr

/-- The three parts of a token's text, in order (30_encoding.md R80). -/
inductive TextField where
  | offset
  | length
  | literal
  deriving DecidableEq, Repr

/-- What TOKEN_PARSE's parser does with the next byte of the text (41_dictionary_codec.md R136). -/
inductive ParsePhase where
  /-- `expect('(')`. -/
  | opening
  /-- The first byte of the field's `parseNum`, or the `-` of a literal. -/
  | first (field : TextField)
  /-- A further digit of the field's number, or the byte that ends it. -/
  | digits (field : TextField)
  /-- `expect(')')` after a `-`. -/
  | closing
  /-- `expect(' ')`. -/
  | space
  deriving DecidableEq, Repr

/-- The registers of the parser's outer loop: the index, the tokens parsed, and whether the parse has ended
(41_dictionary_codec.md R136). -/
structure ParseRegs where
  p : Nat
  S : List Token
  parsed : Bool
  deriving DecidableEq, Repr

/-- Working registers of TOKEN_PARSE: the parser's (41_dictionary_codec.md R136), with what it does with the next byte,
and those of the appends that follow the parse (R137). The registers of one token and of one number are unwritten before
the first of each. -/
structure TokenParseRegs extends ParseRegs where
  phase : ParsePhase
  off : Option Nat
  len : Option Nat
  lit : Option (Option Byte)
  v : Option Nat
  first : Option Byte
  t : Nat
  OUT : List Token
  deriving DecidableEq, Repr

/-- Working registers of FREQ_COUNT (42_tree_builder.md R150). -/
structure FreqCountRegs where
  s : Nat
  j : Nat
  F : FreqTable
  deriving DecidableEq, Repr

/-- Working registers of BUILD_TREE (10_state.md R37; 42_tree_builder.md R155). `Q` is kept in ascending order of key
(R164 leaves its structure free). `a` and `b` are unwritten before the first merge. -/
structure BuildTreeRegs where
  s : Nat
  Q : List Entry
  nextSeq : Nat
  a : Option Entry
  b : Option Entry
  deriving DecidableEq, Repr

/-- Working registers of CODE_TABLE: the table and the traversal stack (10_state.md R38). -/
structure CodeTableRegs where
  C : CodeTable
  stack : List (Node × List Bit)
  deriving DecidableEq, Repr

/-- Working registers of ENT_ENCODE (10_state.md R38; 43_entropy_codec.md R187): `code` holds the entry of byte `j`
while its bits are appended, `k` the index of the next bit. -/
structure EntEncodeRegs where
  j : Nat
  OUT : List Bit
  code : Option (List Bit)
  k : Nat
  deriving DecidableEq, Repr

/-- Working registers of ENT_DECODE (10_state.md R38): the walker `cur`, the bits consumed since it last stood at the
root, the bit index, the output. -/
structure EntDecodeRegs where
  cur : Node
  depth : Nat
  j : Nat
  OUT : List Byte
  deriving DecidableEq, Repr

/-- The working registers of the one command in progress (10_state.md R21, R35 to R38). -/
inductive Work where
  | findMatch (r : FindMatchRegs)
  | lzEncode (r : LzEncodeRegs)
  | lzDecode (r : LzDecodeRegs)
  | tokenFormat (r : TokenFormatRegs)
  | tokenParse (r : TokenParseRegs)
  | freqCount (r : FreqCountRegs)
  | buildTree (r : BuildTreeRegs)
  | codeTable (r : CodeTableRegs)
  | entEncode (r : EntEncodeRegs)
  | entDecode (r : EntDecodeRegs)
  deriving DecidableEq, Repr

/-- The state of one instance. Between commands the block keeps its configuration only (10_state.md R20;
60_exceptions.md R226); `commands` and `results` are its interface, `work` the registers of a command in progress. -/
structure State where
  /-- The instance configuration (10_state.md R25, R39). No step writes it. -/
  config : Config
  /-- The commands issued and not yet answered, in issue order (30_encoding.md R70; 20_memory.md R61). -/
  commands : List Command
  /-- The working registers, `none` while the instance is idle: then they do not exist (10_state.md R21, R39;
  70_reset_and_hazards.md R240). -/
  work : Option Work
  /-- The answers delivered and not yet taken by the caller, in order (30_encoding.md R70; 20_memory.md R61). -/
  results : List Response
  deriving DecidableEq, Repr

/-- Why the model stops. Each is an access that the rules show never happens; stopping is safe, since a stop proves
nothing about the block. -/
inductive Fault where
  /-- `MemRead` outside the buffer (00_scope.md R12; 20_memory.md R56; 93_implementation_defined.md K11). Raised by
  `memRead`. Safe. -/
  | readOutOfRange
  /-- A working register is read before it is written (10_state.md R24; 93_implementation_defined.md K10). Raised by
  `readRegister`. Safe. -/
  | registerUnwritten
  /-- `sym` of a leaf that carries no symbol (43_entropy_codec.md R180). Raised by `symbolOf`. Safe. -/
  | symbolAbsent
  /-- `popMin` of an empty queue (42_tree_builder.md R153). Raised by `popMin`. Safe. -/
  | queueEmpty
  /-- A loop would pass the bound that shows it ends (70_reset_and_hazards.md R251). Raised by `whileLoop`. Safe. -/
  | stepBoundPassed
  deriving DecidableEq, Repr

/-- Why the model offers no step. -/
inductive Refusal where
  /-- The instruction has no meaning yet. Raised by no arm: every command is modelled. Safe. -/
  | notModelled (mnemonic : String)
  /-- A command is to run, but none has been issued, so there is no operand bundle (30_encoding.md R70). Raised by
  `runCommand` and `tick`, never by `step` on an idle instance. Safe. -/
  | noCommand
  /-- Reset while a command is running, which the caller must not do and whose outcome is unspecified
  (70_reset_and_hazards.md R241; 93_implementation_defined.md K12, treatment `refuse`). Raised by `resetInstance`. Safe. -/
  | resetDuringCommand
  deriving DecidableEq, Repr

/-- A newly built instance: idle, no command running, no result pending (70_reset_and_hazards.md R240, R242). -/
def State.build (cfg : Config) : State :=
  { config := cfg, commands := [], work := none, results := [] }

/-- The instance with the default parameters of 00_scope.md R8, right after reset (70_reset_and_hazards.md R240). -/
def State.reset : State := State.build Config.default

end Sys2Proof.Machine
end

