-- ==== Sys2Proof/Machine/Flags.lean ====
section
/-!
DEFINITION. `STATUS`, the block's only flag-like value (10_state.md R23): the code of each outcome (60_exceptions.md
R210) and the response that carries it.
-/

namespace Sys2Proof.Machine

/-- The status code `OK` (60_exceptions.md R210). -/
def statusOK : StatusCode := 0

/-- The status code of an error (60_exceptions.md R210). -/
def Err.code : Err → StatusCode
  | .malformedToken => 1
  | .outOfRangeBackReference => 2
  | .truncatedInput => 3
  | .unknownSymbol => 4
  | .capacityExceeded => 5
  | .emptyAlphabet => 6
  | .corruptTree => 7
  | .illegalCommand => 8
  | .invalidArgument => 9

/-- The answer of a command that succeeds: `STATUS = OK` and its result (30_encoding.md R73). -/
def Response.ok (v : ResultBundle) : Response := { STATUS := statusOK, RES := v }

/-- The answer of a command that fails: the error's code and `INFO` alone (60_exceptions.md R211, R212, R220). -/
def Response.error (e : Err) (info : Nat) : Response := { STATUS := e.code, RES := .info info }

end Sys2Proof.Machine
end

