-- ==== Sys2Proof/Machine/Ops.lean ====
section
/-!
DEFINITION. The shared operations: how a command's pseudocode runs (00_scope.md R13, R14), access to buffers (R12;
20_memory.md R60), access to the 256-entry tables, and how a command ends: with a result, or with an error, which is
this block's one way of taking an exception (60_exceptions.md R211, R216).
-/

namespace Sys2Proof.Machine

/-- The outcome of running a piece of a command's pseudocode (00_scope.md R14). -/
inductive Run (α : Type) where
  /-- It goes on, or returns, with `v`. -/
  | ret (v : α)
  /-- `raise e(info)`: the command ends with an error. -/
  | raise (e : Err) (info : Nat)
  /-- The model stops. -/
  | stop (f : Fault)
  deriving DecidableEq, Repr

/-- Sequencing: what follows runs only if nothing was raised (60_exceptions.md R211). -/
def Run.bind {α β : Type} (x : Run α) (k : α → Run β) : Run β :=
  match x with
  | .ret v => k v
  | .raise e info => .raise e info
  | .stop f => .stop f

/-- The result `f v` of a run that returns `v`. -/
def Run.map {α β : Type} (f : α → β) (x : Run α) : Run β := x.bind fun v => .ret (f v)

/-- `MemRead(B, k)`: element `k`, defined only for `k < len(B)` (00_scope.md R12). -/
def memRead {α : Type} (B : List α) (k : Nat) : Run α :=
  match B[k]? with
  | some v => .ret v
  | none => .stop .readOutOfRange

/-- Reading a working register gives the last value written; one never written faults (10_state.md R24). -/
def readRegister {α : Type} (r : Option α) : Run α :=
  match r with
  | some v => .ret v
  | none => .stop .registerUnwritten

/-- `len(OUT) + 1 > OUTPUT_CAP` (20_memory.md R60). -/
def capReached (cfg : Config) (len : Nat) : Bool :=
  match cfg.OUTPUT_CAP with
  | some c => decide (len + 1 > c)
  | none => false

/-- `Append(OUT, v)` (20_memory.md R60). -/
def append {α : Type} (cfg : Config) (OUT : List α) (v : α) : Run (List α) :=
  if capReached cfg OUT.length then .raise .capacityExceeded OUT.length else .ret (OUT ++ [v])

/-- `for x in xs: body`, with the loop's registers threaded through (00_scope.md R14). -/
def forEach {ι ρ : Type} (xs : List ι) (r : ρ) (body : ρ → ι → Run ρ) : Run ρ :=
  match xs with
  | [] => .ret r
  | x :: xs => (body r x).bind fun r' => forEach xs r' body

/-- The indices of `for i in [a, b)`, ascending, none when `a >= b` (00_scope.md R14). -/
def range (a b : Nat) : List Nat := List.range' a (b - a)

/-- `while cond: body`, for at most `bound` iterations (00_scope.md R14). The bound given is one that the rules show
is enough; a loop that would go on beyond it stops the model. -/
def whileLoop {ρ : Type} (bound : Nat) (cond : ρ → Bool) (body : ρ → Run ρ) (r : ρ) : Run ρ :=
  match bound with
  | 0 => if cond r then .stop .stepBoundPassed else .ret r
  | bound + 1 => if cond r then (body r).bind (whileLoop bound cond body) else .ret r

/-- Append each of `vs` in order. -/
def appendAll {α : Type} (cfg : Config) (OUT vs : List α) : Run (List α) := forEach vs OUT (append cfg)

/-- Entry `x` of a table indexed by byte values (10_state.md R30, R33). -/
def tableGet {α : Type} (t : Vector α 256) (x : Byte) : α := t[x.toNat]'x.isLt

/-- The table with entry `x` set to `v` (10_state.md R30, R33). -/
def tableSet {α : Type} (t : Vector α 256) (x : Byte) (v : α) : Vector α 256 := t.set x.toNat v x.isLt

/-- The 256 byte values in ascending order (00_scope.md R8). -/
def symbols : List Byte := (List.range 256).map (BitVec.ofNat 8)

/-- The end of a command: its answer is delivered, its working registers end, and the next command in issue order is
the next to run (10_state.md R20, R21; 20_memory.md R57, R61; 60_exceptions.md R217). -/
def State.answer (s : State) (r : Response) : State :=
  { s with commands := s.commands.tail, work := none, results := s.results ++ [r] }

/-- `return v`: the command ends with status `OK` and its result (00_scope.md R14). -/
def returnResult (s : State) (v : ResultBundle) : Host.Outcome State Fault Refusal :=
  .next (s.answer (Response.ok v))

/-- `raise e(info)`: the command ends at once with the error's status and `INFO`; any output built is discarded, no
control is transferred, nothing is saved or masked, and the instance is idle (60_exceptions.md R211, R216, R217, R220). -/
def raiseError (s : State) (e : Err) (info : Nat) : Host.Outcome State Fault Refusal :=
  .next (s.answer (Response.error e info))

/-- The end of a command whose pseudocode ran to `x`. -/
def finish (s : State) (x : Run ResultBundle) : Host.Outcome State Fault Refusal :=
  match x with
  | .ret v => returnResult s v
  | .raise e info => raiseError s e info
  | .stop f => .fault f

end Sys2Proof.Machine
end

