-- ==== Sys2Proof/Machine/Operands.lean ====
section
/-!
DEFINITION. The operands of a command: the checks made after decode and before the command runs (30_encoding.md R78),
the well-formedness of a tree operand (10_state.md R32), and the one frame in which every command runs: operands
taken whole, checked, pseudocode, answer (R70, R72; 20_memory.md R57; 60_exceptions.md R215).
-/

namespace Sys2Proof.Machine

/-- `2^COUNT_BITS - 1`, the greatest number an implementation holds, when `COUNT_BITS` is set (30_encoding.md R78, R86). -/
def numMax (cfg : Config) : Option Nat := cfg.COUNT_BITS.map fun bits => 2 ^ bits - 1

/-- `v` is greater than the bound, when there is one. -/
def exceeds (bound : Option Nat) (v : Nat) : Bool :=
  match bound with
  | some m => decide (v > m)
  | none => false

/-- The input buffer the checks of 30_encoding.md R78 measure: the length of the command's byte, token or bit input,
0 for a command that has none (R72). -/
def inputLength (i : Instr) (ops : Operands) : Nat :=
  match i with
  | .findMatch => ops.IN.length
  | .lzEncode => ops.IN.length
  | .lzDecode => ops.TOK.length
  | .tokenFormat => ops.TOK.length
  | .tokenParse => ops.TEXT.length
  | .freqCount => ops.IN.length
  | .buildTree => 0
  | .codeTable => 0
  | .entEncode => ops.IN.length
  | .entDecode => ops.BITS.length

/-- Check 1 of 30_encoding.md R78: an input buffer longer than `MAX_INPUT_LEN`. -/
def inputTooLong (cfg : Config) (i : Instr) (ops : Operands) : Bool :=
  exceeds cfg.MAX_INPUT_LEN (inputLength i ops)

/-- Check 2 of 30_encoding.md R78: a `windowSize` operand greater than `WINDOW_MAX`. -/
def windowTooLarge (cfg : Config) (i : Instr) (ops : Operands) : Bool :=
  match i with
  | .findMatch => exceeds cfg.WINDOW_MAX ops.windowSize
  | .lzEncode => exceeds cfg.WINDOW_MAX ops.windowSize
  | .lzDecode | .tokenFormat | .tokenParse | .freqCount | .buildTree | .codeTable | .entEncode | .entDecode => false

/-- Check 3 of 30_encoding.md R78: BUILD_TREE with a sum of counts that `COUNT_BITS` bits cannot hold. -/
def countsTooLarge (cfg : Config) (i : Instr) (ops : Operands) : Bool :=
  match i with
  | .buildTree => exceeds (numMax cfg) ops.F.toList.sum
  | .findMatch | .lzEncode | .lzDecode | .tokenFormat | .tokenParse | .freqCount | .codeTable | .entEncode | .entDecode => false

/-- Check 4 of 30_encoding.md R78: FIND_MATCH with a cursor at or past the end. -/
def cursorPastEnd (i : Instr) (ops : Operands) : Bool :=
  match i with
  | .findMatch => decide (ops.pos ≥ ops.IN.length)
  | .lzEncode | .lzDecode | .tokenFormat | .tokenParse | .freqCount | .buildTree | .codeTable | .entEncode | .entDecode => false

/-- Some operand check of 30_encoding.md R78 fails. -/
def operandsRejected (cfg : Config) (i : Instr) (ops : Operands) : Bool :=
  inputTooLong cfg i ops || windowTooLarge cfg i ops || countsTooLarge cfg i ops || cursorPastEnd i ops

/-- `isLeaf(n)`: both children absent (10_state.md R31, R32). -/
def isLeaf : Node → Bool
  | .leaf _ _ => true
  | .onlyLeft _ _ _ => false
  | .onlyRight _ _ _ => false
  | .branch _ _ _ _ => false

/-- `isInternal(n)` (10_state.md R32). -/
def isInternal (n : Node) : Bool := !isLeaf n

/-- `leaves(n)`, left before right (10_state.md R32). -/
def leaves : Node → List Node
  | .leaf s f => [.leaf s f]
  | .onlyLeft _ _ l => leaves l
  | .onlyRight _ _ r => leaves r
  | .branch _ _ l r => leaves l ++ leaves r

/-- WF1: every leaf carries a symbol (10_state.md R32). -/
def allLeavesHaveSymbol (t : Node) : Bool := (leaves t).all fun l => l.symbol.isSome

/-- WF3: the symbols of the leaves are pairwise different (10_state.md R32). -/
def distinctLeafSymbols (t : Node) : Bool := decide ((leaves t).map Node.symbol).Nodup

/-- `WF(t)`: the tree is well formed (10_state.md R32). -/
def treeWF (t : Node) : Bool := isInternal t && allLeavesHaveSymbol t && distinctLeafSymbols t

/-- `sym(n)` of a leaf (43_entropy_codec.md R180). -/
def symbolOf (n : Node) : Run Byte :=
  match n.symbol with
  | some x => .ret x
  | none => .stop .symbolAbsent

/-- How every command runs: its operand bundle is that of the command issued first; the checks of 30_encoding.md R78
come before its pseudocode `body`; the command ends with one answer (20_memory.md R57; 60_exceptions.md R211, R215). -/
def runCommand (i : Instr) (body : Config → Operands → Run ResultBundle) (s : State) : Host.Outcome State Fault Refusal :=
  match s.commands with
  | [] => .refused .noCommand
  | c :: _ =>
    if operandsRejected s.config i c.OPS then raiseError s .invalidArgument 0
    else finish s (body s.config c.OPS)

end Sys2Proof.Machine
end

