-- ==== Sys2Proof/Machine/WindowMatcher.lean ====
section
/-!
DEFINITION. U1, the Window Matcher: FIND_MATCH (40_window_matcher.md R100 to R110).
-/

namespace Sys2Proof.Machine

/-- `lo(pos, w)`, the first index of the window (40_window_matcher.md R100). -/
def lo (pos w : Nat) : Nat := if pos > w then pos - w else 0

/-- `limit(pos, w, n)`, the run bound (40_window_matcher.md R101). -/
def runLimit (pos w n : Nat) : Nat := min (pos + w) n

/-- The run goes on from length `run`: the cursor side is inside the bound and the two bytes are equal
(40_window_matcher.md R101). -/
def runGoesOn (IN : List Byte) (i pos limit run : Nat) : Run Bool :=
  if pos + run < limit then
    (memRead IN (i + run)).bind fun x => (memRead IN (pos + run)).bind fun y => .ret (x == y)
  else .ret false

/-- The loop of `runLen` from run length `run`; `bound` is what is left of the run bound, so at 0 the loop condition
`pos + run < limit` is false (40_window_matcher.md R101). -/
def runLenFrom (IN : List Byte) (i pos limit : Nat) (bound run : Nat) : Run Nat :=
  match bound with
  | 0 => .ret run
  | bound + 1 => (runGoesOn IN i pos limit run).bind fun more =>
      if more then runLenFrom IN i pos limit bound (run + 1) else .ret run

/-- `runLen(IN, i, pos, limit)` (40_window_matcher.md R101). The run may pass `pos` into the bytes it is compared
with (R102). -/
def runLen (IN : List Byte) (i pos limit : Nat) : Run Nat := runLenFrom IN i pos limit (limit - pos) 0

/-- `best` after candidate `i` with run length `run`: replaced only by a strictly longer run (40_window_matcher.md
R103, R106); no literal when the run reaches the end of the input (R105). -/
def betterMatch (IN : List Byte) (pos i run : Nat) (best : Match) : Run Match :=
  if run > best.length then
    if pos + run < IN.length then
      (memRead IN (pos + run)).bind fun b => .ret { offset := pos - i, length := run, literal := some b }
    else .ret { offset := pos - i, length := run, literal := none }
  else .ret best

/-- The pure literal, the best match before any candidate (40_window_matcher.md R103). -/
def pureLiteral (IN : List Byte) (pos : Nat) : Run Match :=
  (memRead IN pos).bind fun b => .ret { offset := 0, length := 0, literal := some b }

/-- `matchCore(IN, pos, windowSize)`: the pseudocode of FIND_MATCH (40_window_matcher.md R103; 41_dictionary_codec.md
R120). -/
def matchCore (IN : List Byte) (pos w : Nat) : Run Match :=
  (pureLiteral IN pos).bind fun start =>
    forEach (range (lo pos w) pos) start fun best i =>
      (runLen IN i pos (runLimit pos w IN.length)).bind fun run => betterMatch IN pos i run best

/-- FIND_MATCH on its operands (40_window_matcher.md R103). -/
def findMatchBody (_cfg : Config) (ops : Operands) : Run ResultBundle :=
  (matchCore ops.IN ops.pos ops.windowSize).map .found

/-- FIND_MATCH (40_window_matcher.md R103): the longest match in the window. -/
def execFindMatch (s : State) : Host.Outcome State Fault Refusal := runCommand .findMatch findMatchBody s

end Sys2Proof.Machine
end

