-- ==== Sys2Proof/Machine/DictionaryCodec.lean ====
section
/-!
DEFINITION. U2, the Dictionary Codec, its codec half: LZ_ENCODE and LZ_DECODE (41_dictionary_codec.md R120 to R134).
-/

namespace Sys2Proof.Machine

/-- The token of a match: one Token per Match (10_state.md R28). -/
def Match.toToken (m : Match) : Token := { offset := m.offset, length := m.length, literal := m.literal }

/-- The bytes a token stands for: its copied bytes and its literal byte, if any (41_dictionary_codec.md R123). -/
def tokenSpan (tok : Token) : Nat := tok.length + (if tok.literal = none then 0 else 1)

/-- `pos < n`, the loop condition of LZ_ENCODE (41_dictionary_codec.md R122). -/
def lzEncodeGoesOn (IN : List Byte) (r : LzEncodeRegs) : Bool := decide (r.pos < IN.length)

/-- One iteration of LZ_ENCODE: find the match at the cursor, append its token, advance the cursor
(41_dictionary_codec.md R122, R123). -/
def lzEncodeToken (cfg : Config) (IN : List Byte) (w : Nat) (r : LzEncodeRegs) : Run LzEncodeRegs :=
  (matchCore IN r.pos w).bind fun m =>
    (append cfg r.OUT (Match.toToken m)).bind fun OUT =>
      .ret { pos := r.pos + tokenSpan (Match.toToken m), m := some m, OUT := OUT }

/-- LZ_ENCODE's registers before its first iteration (10_state.md R22, R39). -/
def lzEncodeStart : LzEncodeRegs := { pos := 0, m := none, OUT := [] }

/-- LZ_ENCODE's pseudocode (41_dictionary_codec.md R122), at most one iteration per input byte (R124). -/
def lzEncode (cfg : Config) (IN : List Byte) (w : Nat) : Run (List Token) :=
  (whileLoop IN.length (lzEncodeGoesOn IN) (lzEncodeToken cfg IN w) lzEncodeStart).map fun r => r.OUT

/-- LZ_ENCODE on its operands. -/
def lzEncodeBody (cfg : Config) (ops : Operands) : Run ResultBundle := (lzEncode cfg ops.IN ops.windowSize).map .tokens

/-- LZ_ENCODE (41_dictionary_codec.md R122): dictionary encode of a whole input. -/
def execLzEncode (s : State) : Host.Outcome State Fault Refusal := runCommand .lzEncode lzEncodeBody s

/-- Token acceptance, in the order of its checks (41_dictionary_codec.md R128): `t` is the token's index, `count` the
number of tokens, `outLen` the output length before the token. -/
def acceptToken (count t outLen : Nat) (tok : Token) : Run Unit :=
  if tok.literal = none ∧ t + 1 ≠ count then .raise .malformedToken t
  else if tok.literal = none ∧ (tok.offset = 0 ∨ tok.length = 0) then .raise .malformedToken t
  else if tok.offset = 0 ∧ tok.length > 0 then .raise .malformedToken t
  else if tok.offset > outLen then .raise .outOfRangeBackReference t
  else .ret ()

/-- Copy one byte from `offset` behind the end of the output to its end: it is at once a source for the next
(41_dictionary_codec.md R129, R130; 70_reset_and_hazards.md R248). -/
def copyByte (cfg : Config) (offset : Nat) (OUT : List Byte) : Run (List Byte) :=
  (memRead OUT (OUT.length - offset)).bind fun b => append cfg OUT b

/-- The forward copy of a back-reference, byte by byte (41_dictionary_codec.md R129, R130). -/
def copyRun (cfg : Config) (offset length : Nat) (OUT : List Byte) : Run (List Byte) :=
  forEach (range 0 length) OUT fun OUT _ => copyByte cfg offset OUT

/-- Append the literal byte, if the token has one (41_dictionary_codec.md R129). -/
def appendLiteral (cfg : Config) (literal : Option Byte) (OUT : List Byte) : Run (List Byte) :=
  match literal with
  | some b => append cfg OUT b
  | none => .ret OUT

/-- LZ_DECODE's work on token `t`: check, copy, literal (41_dictionary_codec.md R129). -/
def lzDecodeToken (cfg : Config) (TOK : List Token) (OUT : List Byte) (t : Nat) : Run (List Byte) :=
  (memRead TOK t).bind fun tok =>
    (acceptToken TOK.length t OUT.length tok).bind fun _ =>
      (if tok.offset > 0 then copyRun cfg tok.offset tok.length OUT else .ret OUT).bind fun OUT =>
        appendLiteral cfg tok.literal OUT

/-- LZ_DECODE's pseudocode (41_dictionary_codec.md R129). -/
def lzDecode (cfg : Config) (TOK : List Token) : Run (List Byte) :=
  forEach (range 0 TOK.length) [] (lzDecodeToken cfg TOK)

/-- LZ_DECODE on its operands. -/
def lzDecodeBody (cfg : Config) (ops : Operands) : Run ResultBundle := (lzDecode cfg ops.TOK).map .bytes

/-- LZ_DECODE (41_dictionary_codec.md R129): dictionary decode of a token sequence. -/
def execLzDecode (s : State) : Host.Outcome State Fault Refusal := runCommand .lzDecode lzDecodeBody s

end Sys2Proof.Machine
end

