-- ==== Sys2Proof/Machine/EntropyCodec.lean ====
section
/-!
DEFINITION. U4, the Entropy Codec: CODE_TABLE, ENT_ENCODE and ENT_DECODE (43_entropy_codec.md R180 to R199).
-/

namespace Sys2Proof.Machine

/-- The table with no entry (43_entropy_codec.md R182). -/
def emptyCodes : CodeTable := Vector.replicate 256 none

/-- The tree check of CODE_TABLE and ENT_DECODE, before anything else they do (43_entropy_codec.md R181, R192). -/
def checkTree (T : Node) : Run Unit := if treeWF T then .ret () else .raise .corruptTree 0

/-- `C[sym(n)] <- some path` at a leaf (43_entropy_codec.md R182). -/
def recordCode (n : Node) (path : List Bit) (C : CodeTable) : Run CodeTable :=
  (symbolOf n).bind fun x => .ret (tableSet C x (some path))

/-- `walk(n, path)`: depth-first, left before right, 0 for a left step and 1 for a right step (43_entropy_codec.md R182). -/
def walk (n : Node) (path : List Bit) (C : CodeTable) : Run CodeTable :=
  match n with
  | .leaf s f => recordCode (.leaf s f) path C
  | .onlyLeft _ _ l => walk l (path ++ [false]) C
  | .onlyRight _ _ r => walk r (path ++ [true]) C
  | .branch _ _ l r => (walk l (path ++ [false]) C).bind fun C => walk r (path ++ [true]) C

/-- CODE_TABLE's pseudocode (43_entropy_codec.md R182). -/
def codeTable (T : Node) : Run CodeTable := (checkTree T).bind fun _ => walk T [] emptyCodes

/-- CODE_TABLE on its operands. -/
def codeTableBody (_cfg : Config) (ops : Operands) : Run ResultBundle := (codeTable ops.T).map .codes

/-- CODE_TABLE (43_entropy_codec.md R182): derive the code table of a tree. -/
def execCodeTable (s : State) : Host.Outcome State Fault Refusal := runCommand .codeTable codeTableBody s

/-- The code of input byte `j`, or `UnknownSymbol(j)` (43_entropy_codec.md R187, R188). -/
def lookUp (IN : List Byte) (C : CodeTable) (j : Nat) : Run (List Bit) :=
  (memRead IN j).bind fun c =>
    match tableGet C c with
    | some code => .ret code
    | none => .raise .unknownSymbol j

/-- ENT_ENCODE's pseudocode: each code is appended, first bit first, in input order (43_entropy_codec.md R187). The
table is not checked (R189). -/
def entEncode (cfg : Config) (IN : List Byte) (C : CodeTable) : Run (List Bit) :=
  forEach (range 0 IN.length) [] fun OUT j => (lookUp IN C j).bind fun code => appendAll cfg OUT code

/-- ENT_ENCODE on its operands. -/
def entEncodeBody (cfg : Config) (ops : Operands) : Run ResultBundle := (entEncode cfg ops.IN ops.C).map .bits

/-- ENT_ENCODE (43_entropy_codec.md R187): encode a byte string with a code table. -/
def execEntEncode (s : State) : Host.Outcome State Fault Refusal := runCommand .entEncode entEncodeBody s

/-- `nxt`: the child a bit selects, 0 left and 1 right (43_entropy_codec.md R191). -/
def childOf (n : Node) (b : Bit) : Option Node := if b then n.right else n.left

/-- ENT_DECODE's registers before its first bit: the walker at the root (10_state.md R39; 43_entropy_codec.md R191). -/
def entDecodeStart (T : Node) : EntDecodeRegs := { cur := T, depth := 0, j := 0, OUT := [] }

/-- ENT_DECODE's work on bit `j`: take the child, and at a leaf emit its symbol and return to the root
(43_entropy_codec.md R191, R193). -/
def entDecodeBit (cfg : Config) (BITS : List Bit) (T : Node) (r : EntDecodeRegs) (j : Nat) : Run EntDecodeRegs :=
  (memRead BITS j).bind fun b =>
    match childOf r.cur b with
    | none => .raise .corruptTree j
    | some n =>
      if isLeaf n then
        (symbolOf n).bind fun x => (append cfg r.OUT x).bind fun OUT =>
          .ret { cur := T, depth := 0, j := j + 1, OUT := OUT }
      else .ret { r with cur := n, depth := r.depth + 1, j := j + 1 }

/-- The end of ENT_DECODE: the bits must not end inside a code (43_entropy_codec.md R194). -/
def entDecodeEnd (BITS : List Bit) (r : EntDecodeRegs) : Run (List Byte) :=
  if r.depth > 0 then .raise .truncatedInput BITS.length else .ret r.OUT

/-- ENT_DECODE's pseudocode (43_entropy_codec.md R191). -/
def entDecode (cfg : Config) (BITS : List Bit) (T : Node) : Run (List Byte) :=
  (checkTree T).bind fun _ =>
    (forEach (range 0 BITS.length) (entDecodeStart T) (entDecodeBit cfg BITS T)).bind (entDecodeEnd BITS)

/-- ENT_DECODE on its operands. -/
def entDecodeBody (cfg : Config) (ops : Operands) : Run ResultBundle := (entDecode cfg ops.BITS ops.T).map .bytes

/-- ENT_DECODE (43_entropy_codec.md R191): decode a bit sequence by walking a tree. -/
def execEntDecode (s : State) : Host.Outcome State Fault Refusal := runCommand .entDecode entDecodeBody s

end Sys2Proof.Machine
end

