-- ==== Sys2Proof/Machine/TokenText.lean ====
section
/-!
DEFINITION. U2, the Dictionary Codec, its text half: TOKEN_FORMAT and TOKEN_PARSE, the token text format
(30_encoding.md R80 to R86; 41_dictionary_codec.md R135 to R138). The ASCII values of the text's bytes are those the
spec gives from general knowledge (R80).
-/

namespace Sys2Proof.Machine

/-- `(`, `)`, `,`, `-` and space (30_encoding.md R80). -/
def chOpen : Byte := 0x28
def chClose : Byte := 0x29
def chComma : Byte := 0x2C
def chDash : Byte := 0x2D
def chSpace : Byte := 0x20

/-- The digit of value `d < 10` (30_encoding.md R80: the digits are 0x30 to 0x39). -/
def digitChar (d : Nat) : Byte := BitVec.ofNat 8 (0x30 + d)

/-- `fmtNum` with at most `bound` digits (30_encoding.md R81). -/
def fmtNumFrom (bound v : Nat) : List Byte :=
  match bound with
  | 0 => []
  | bound + 1 => if v < 10 then [digitChar v] else fmtNumFrom bound (v / 10) ++ [digitChar (v % 10)]

/-- `fmtNum(v)`: the shortest decimal numeral of `v`, most significant digit first (30_encoding.md R81). A number has
at most `v + 1` digits. -/
def fmtNum (v : Nat) : List Byte := fmtNumFrom (v + 1) v

/-- `L`: the literal in decimal, or `-` (30_encoding.md R81). -/
def fmtLit (literal : Option Byte) : List Byte :=
  match literal with
  | some b => fmtNum b.toNat
  | none => [chDash]

/-- `fmtTok(t)` (30_encoding.md R81). -/
def fmtTok (t : Token) : List Byte :=
  [chOpen] ++ fmtNum t.offset ++ [chComma] ++ fmtNum t.length ++ [chComma] ++ fmtLit t.literal ++ [chClose]

/-- `fmt`: the tokens' texts with one space between two (30_encoding.md R81). -/
def fmt : List Token → List Byte
  | [] => []
  | [t] => fmtTok t
  | t :: u :: ts => fmtTok t ++ [chSpace] ++ fmt (u :: ts)

/-- TOKEN_FORMAT's pseudocode (41_dictionary_codec.md R135). -/
def tokenFormat (cfg : Config) (TOK : List Token) : Run (List Byte) := appendAll cfg [] (fmt TOK)

/-- TOKEN_FORMAT on its operands. -/
def tokenFormatBody (cfg : Config) (ops : Operands) : Run ResultBundle := (tokenFormat cfg ops.TOK).map .bytes

/-- TOKEN_FORMAT (41_dictionary_codec.md R135): write a token sequence as text. -/
def execTokenFormat (s : State) : Host.Outcome State Fault Refusal := runCommand .tokenFormat tokenFormatBody s

/-- `isDigit(c)` (41_dictionary_codec.md R136). -/
def isDigit (c : Byte) : Bool := decide (0x30 ≤ c.toNat ∧ c.toNat ≤ 0x39)

/-- `val(c)` (41_dictionary_codec.md R136). -/
def digitVal (c : Byte) : Nat := c.toNat - 0x30

/-- `p < n and isDigit(TEXT[p])`, the loop condition of `parseNum` (41_dictionary_codec.md R136). -/
def digitAt (TEXT : List Byte) (p : Nat) : Bool :=
  match TEXT[p]? with
  | some c => isDigit c
  | none => false

/-- `expect(c)` at index `p`; the answer is the index after `c` (41_dictionary_codec.md R136). -/
def expectByte (TEXT : List Byte) (c : Byte) (p : Nat) : Run Nat :=
  if p = TEXT.length then .raise .truncatedInput TEXT.length
  else (memRead TEXT p).bind fun x => if x ≠ c then .raise .malformedToken p else .ret (p + 1)

/-- One iteration of the digit loop of `parseNum`, on the pair of the value and the index (41_dictionary_codec.md R136). -/
def parseDigit (TEXT : List Byte) (max : Option Nat) (vp : Nat × Nat) : Run (Nat × Nat) :=
  (memRead TEXT vp.2).bind fun c =>
    if exceeds max (10 * vp.1 + digitVal c) then .raise .malformedToken vp.2
    else .ret (10 * vp.1 + digitVal c, vp.2 + 1)

/-- `parseNum(max)` at index `p`; the answer is the value and the index after it (41_dictionary_codec.md R136). -/
def parseNum (TEXT : List Byte) (max : Option Nat) (p : Nat) : Run (Nat × Nat) :=
  if p = TEXT.length then .raise .truncatedInput TEXT.length
  else (memRead TEXT p).bind fun first =>
    if !isDigit first then .raise .malformedToken p
    else if exceeds max (digitVal first) then .raise .malformedToken p
    else if first = 0x30 then .ret (0, p + 1)
    else whileLoop (TEXT.length - (p + 1)) (fun vp => digitAt TEXT vp.2) (parseDigit TEXT max) (digitVal first, p + 1)

/-- The literal: `-`, or a number up to 255, whatever `COUNT_BITS` is (41_dictionary_codec.md R136; 30_encoding.md R80). -/
def parseLit (TEXT : List Byte) (p : Nat) : Run (Option Byte × Nat) :=
  if TEXT[p]? = some chDash then .ret (none, p + 1)
  else (parseNum TEXT (some 255) p).map fun vp => (some (BitVec.ofNat 8 vp.1), vp.2)

/-- One token at index `p`; the answer is the token and the index after it (41_dictionary_codec.md R136). -/
def parseToken (cfg : Config) (TEXT : List Byte) (p : Nat) : Run (Token × Nat) :=
  (expectByte TEXT chOpen p).bind fun p =>
  (parseNum TEXT (numMax cfg) p).bind fun off =>
  (expectByte TEXT chComma off.2).bind fun p =>
  (parseNum TEXT (numMax cfg) p).bind fun len =>
  (expectByte TEXT chComma len.2).bind fun p =>
  (parseLit TEXT p).bind fun lit =>
  (expectByte TEXT chClose lit.2).bind fun p =>
    .ret ({ offset := off.1, length := len.1, literal := lit.1 }, p)

/-- The parser goes on until it has met the end of the text (41_dictionary_codec.md R136). -/
def parseGoesOn (r : ParseRegs) : Bool := !r.parsed

/-- One iteration of `parse`: a token, then the end of the text or a space (41_dictionary_codec.md R136). -/
def parseStep (cfg : Config) (TEXT : List Byte) (r : ParseRegs) : Run ParseRegs :=
  (parseToken cfg TEXT r.p).bind fun tp =>
    if tp.2 = TEXT.length then .ret { r with p := tp.2, S := r.S ++ [tp.1], parsed := true }
    else (expectByte TEXT chSpace tp.2).bind fun p => .ret { r with p := p, S := r.S ++ [tp.1] }

/-- The parser's registers before its first token; the empty text is parsed at once (41_dictionary_codec.md R136). -/
def parseStart (TEXT : List Byte) : ParseRegs := { p := 0, S := [], parsed := TEXT.isEmpty }

/-- `parse(TEXT)`, at most one iteration per byte (41_dictionary_codec.md R136). -/
def parse (cfg : Config) (TEXT : List Byte) : Run (List Token) :=
  (whileLoop TEXT.length parseGoesOn (parseStep cfg TEXT) (parseStart TEXT)).map fun r => r.S

/-- TOKEN_PARSE's pseudocode: the whole text is parsed before any token is appended (41_dictionary_codec.md R137). -/
def tokenParse (cfg : Config) (TEXT : List Byte) : Run (List Token) :=
  (parse cfg TEXT).bind fun S => appendAll cfg [] S

/-- TOKEN_PARSE on its operands. -/
def tokenParseBody (cfg : Config) (ops : Operands) : Run ResultBundle := (tokenParse cfg ops.TEXT).map .tokens

/-- TOKEN_PARSE (41_dictionary_codec.md R137): read a token sequence from text. -/
def execTokenParse (s : State) : Host.Outcome State Fault Refusal := runCommand .tokenParse tokenParseBody s

end Sys2Proof.Machine
end

