-- ==== Sys2Proof/Machine/TreeBuilder.lean ====
section
/-!
DEFINITION. U3, the Tree Builder: FREQ_COUNT and BUILD_TREE (42_tree_builder.md R150 to R164).
-/

namespace Sys2Proof.Machine

/-- The all-zero table: `F[s] <- 0` for each `s` (42_tree_builder.md R150). -/
def zeroCounts : FreqTable := Vector.replicate 256 0

/-- `c <- IN[j]; F[c] <- F[c] + 1` (42_tree_builder.md R150). -/
def countByte (IN : List Byte) (F : FreqTable) (j : Nat) : Run FreqTable :=
  (memRead IN j).bind fun c => .ret (tableSet F c (tableGet F c + 1))

/-- FREQ_COUNT's pseudocode (42_tree_builder.md R150). -/
def freqCount (IN : List Byte) : Run FreqTable := forEach (range 0 IN.length) zeroCounts (countByte IN)

/-- FREQ_COUNT on its operands. -/
def freqCountBody (_cfg : Config) (ops : Operands) : Run ResultBundle := (freqCount ops.IN).map .counts

/-- FREQ_COUNT (42_tree_builder.md R150): count each byte value of an input. -/
def execFreqCount (s : State) : Host.Outcome State Fault Refusal := runCommand .freqCount freqCountBody s

/-- Keys `(frequency, seq)` in lexicographic order (42_tree_builder.md R153). -/
def keyLt (a b : Entry) : Bool :=
  decide (a.node.frequency < b.node.frequency) || (a.node.frequency == b.node.frequency && decide (a.seq < b.seq))

/-- `Q + {e}`: the queue is kept in ascending order of key, a structure 42_tree_builder.md R164 allows. -/
def enqueue (e : Entry) : List Entry → List Entry
  | [] => [e]
  | f :: Q => if keyLt e f then e :: f :: Q else f :: enqueue e Q

/-- `popMin(Q)`: the entry with the least key, and the others (42_tree_builder.md R153). -/
def popMin (Q : List Entry) : Run (Entry × List Entry) :=
  match Q with
  | [] => .stop .queueEmpty
  | e :: Q => .ret (e, Q)

/-- The leaf entry of byte value `x` with count `f` (42_tree_builder.md R152). -/
def leafEntry (x : Byte) (f seq : Nat) : Entry := { node := .leaf (some x) f, seq := seq }

/-- The leaf entries of the byte values given with their counts: one for each nonzero count, numbered from `seq` in the
order made (42_tree_builder.md R152). -/
def leafEntries (seq : Nat) : List (Byte × Nat) → List Entry
  | [] => []
  | xf :: rest => if xf.2 > 0 then leafEntry xf.1 xf.2 seq :: leafEntries (seq + 1) rest else leafEntries seq rest

/-- The leaves of a table, made in ascending order of the byte value (42_tree_builder.md R152). -/
def seededEntries (F : FreqTable) : List Entry := leafEntries 0 (symbols.zip F.toList)

/-- BUILD_TREE's registers after seeding: every leaf is in the queue, and `nextSeq = k` (42_tree_builder.md R152). -/
def seeded (F : FreqTable) : BuildTreeRegs :=
  { s := 256, Q := (seededEntries F).foldl (fun Q e => enqueue e Q) [], nextSeq := (seededEntries F).length,
    a := none, b := none }

/-- The internal node of a merge: the first entry taken is the left child (42_tree_builder.md R154). -/
def mergeNode (a b : Entry) : Node := .branch none (a.node.frequency + b.node.frequency) a.node b.node

/-- One merge step (42_tree_builder.md R154). -/
def mergeStep (r : BuildTreeRegs) : Run BuildTreeRegs :=
  (popMin r.Q).bind fun aQ =>
  (popMin aQ.2).bind fun bQ =>
    .ret { r with Q := enqueue { node := mergeNode aQ.1 bQ.1, seq := r.nextSeq } bQ.2, nextSeq := r.nextSeq + 1,
                  a := some aQ.1, b := some bQ.1 }

/-- `|Q| > 1`, the loop condition of the merges (42_tree_builder.md R155). -/
def mergeGoesOn (r : BuildTreeRegs) : Bool := decide (r.Q.length > 1)

/-- The single-symbol tree: an internal root with the leaf on its left and no right child (42_tree_builder.md R158). -/
def singleSymbolTree (e : Entry) : Node := .onlyLeft none e.node.frequency e.node

/-- BUILD_TREE after seeding (42_tree_builder.md R155 to R158). -/
def buildFrom (r : BuildTreeRegs) : Run Node :=
  match r.Q with
  | [] => .raise .emptyAlphabet 0
  | [e] => .ret (singleSymbolTree e)
  | _ :: _ :: _ =>
    (whileLoop r.Q.length mergeGoesOn mergeStep r).bind fun r' =>
      (popMin r'.Q).bind fun eQ => .ret eQ.1.node

/-- BUILD_TREE's pseudocode (42_tree_builder.md R155). -/
def buildTree (F : FreqTable) : Run Node := buildFrom (seeded F)

/-- BUILD_TREE on its operands. -/
def buildTreeBody (_cfg : Config) (ops : Operands) : Run ResultBundle := (buildTree ops.F).map .tree

/-- BUILD_TREE (42_tree_builder.md R155): build the Huffman tree of a frequency table. -/
def execBuildTree (s : State) : Host.Outcome State Fault Refusal := runCommand .buildTree buildTreeBody s

end Sys2Proof.Machine
end

