-- ==== Sys2Proof/Machine/Dispatch.lean ====
section
/-! DEFINITION. The dispatch of a decoded command to its meaning (30_encoding.md R75). -/

namespace Sys2Proof.Machine

def exec (i : Instr) (s : State) : Host.Outcome State Fault Refusal :=
  match i with
  | .findMatch => Sys2Proof.Machine.execFindMatch s
  | .lzEncode => Sys2Proof.Machine.execLzEncode s
  | .lzDecode => Sys2Proof.Machine.execLzDecode s
  | .tokenFormat => Sys2Proof.Machine.execTokenFormat s
  | .tokenParse => Sys2Proof.Machine.execTokenParse s
  | .freqCount => Sys2Proof.Machine.execFreqCount s
  | .buildTree => Sys2Proof.Machine.execBuildTree s
  | .codeTable => Sys2Proof.Machine.execCodeTable s
  | .entEncode => Sys2Proof.Machine.execEntEncode s
  | .entDecode => Sys2Proof.Machine.execEntDecode s

end Sys2Proof.Machine
end

