-- ==== Sys2Proof/WellFormed.lean ====
section
/-!
DEFINITION. Well-formed command words (30_encoding.md R71, R75, R77), said of the word's two fields without the
decoder: the reserved field is zero and the opcode is one of the ten. A command carries no other field, so every term
of `Instr` is well formed. (Well-formed trees, R32, and the operand checks, R78, are in Machine/Operands.lean.)
-/

namespace Sys2Proof

/-- The ten assigned opcodes (30_encoding.md R75). -/
def assignedOpcodes : List Nat := [0x01, 0x02, 0x03, 0x04, 0x05, 0x10, 0x11, 0x12, 0x13, 0x14]

/-- `RSV`, bits 31:8, is zero (30_encoding.md R71). -/
def CmdWord.reservedZero (w : CmdWord) : Bool := w.toNat / 256 == 0

/-- `OPCODE`, bits 7:0, spells a command (30_encoding.md R75). -/
def CmdWord.opcodeAssigned (w : CmdWord) : Bool := assignedOpcodes.contains (w.toNat % 256)

/-- The word is a command; every other word is illegal (30_encoding.md R77). -/
def CmdWord.wellFormed (w : CmdWord) : Bool := CmdWord.reservedZero w && CmdWord.opcodeAssigned w

end Sys2Proof
end

