-- ==== Sys2Proof/Decode.lean ====
section
/-!
DEFINITION. The decoder of command words, total on every 32-bit word and rejecting by name (30_encoding.md R76, R77),
and the encoder, written from the opcode map (R75).
-/

namespace Sys2Proof

/-- Why a word spells no command. Both are answered with `IllegalCommand(0)` (30_encoding.md R76). -/
inductive DecodeError where
  /-- `RSV`, bits 31:8, is not zero. -/
  | reservedNotZero (rsv : BitVec 24)
  /-- The opcode, 0x00 included, is not one of the ten. -/
  | unassignedOpcode (opcode : BitVec 8)
  deriving DecidableEq, Repr

/-- `CMD[7:0]` (30_encoding.md R71; 00_scope.md R11). -/
def opcodeField (w : CmdWord) : BitVec 8 := w.extractLsb' 0 8

/-- `CMD[31:8]` (30_encoding.md R71; 00_scope.md R11). -/
def rsvField (w : CmdWord) : BitVec 24 := w.extractLsb' 8 24

/-- The command an opcode spells, if any: the opcode map (30_encoding.md R75). -/
def opcodeInstr (opcode : BitVec 8) : Option Instr :=
  match opcode.toNat with
  | 0x01 => some .findMatch
  | 0x02 => some .lzEncode
  | 0x03 => some .lzDecode
  | 0x04 => some .tokenFormat
  | 0x05 => some .tokenParse
  | 0x10 => some .freqCount
  | 0x11 => some .buildTree
  | 0x12 => some .codeTable
  | 0x13 => some .entEncode
  | 0x14 => some .entDecode
  | _ => none

/-- Decode of a command word, in the order of 30_encoding.md R76: the reserved bits first, then the opcode. -/
def decode (w : CmdWord) : Except DecodeError Instr :=
  if rsvField w ≠ 0 then .error (.reservedNotZero (rsvField w))
  else match opcodeInstr (opcodeField w) with
    | some i => .ok i
    | none => .error (.unassignedOpcode (opcodeField w))

/-- The opcode of a command (30_encoding.md R75). -/
def opcodeOf : Instr → BitVec 8
  | .findMatch => 0x01
  | .lzEncode => 0x02
  | .lzDecode => 0x03
  | .tokenFormat => 0x04
  | .tokenParse => 0x05
  | .freqCount => 0x10
  | .buildTree => 0x11
  | .codeTable => 0x12
  | .entEncode => 0x13
  | .entDecode => 0x14

/-- The word of a command: its opcode in bits 7:0 and zeros in bits 31:8 (30_encoding.md R75). -/
def encode (i : Instr) : CmdWord := (opcodeOf i).setWidth 32

/-- The 32-bit command word whose low `nbits` bits are those of `w` and whose other bits are zero. A command is one
word (30_encoding.md R79) and the block stores no bytes of it (20_memory.md R52, R66), so no byte order enters. -/
def tableWord (nbits w : Nat) : CmdWord := BitVec.ofNat 32 (w % 2 ^ nbits)

/-- The instruction the decoder reads from an instruction of `nbits` bits `w`, numbered as spec/opcode_table.json
numbers them; `none` where it refuses. -/
def decodeTableWord (nbits w : Nat) : Option Instr :=
  match decode (tableWord nbits w) with
  | .ok i => some i
  | .error _ => none

end Sys2Proof
end

