-- ==== Sys2Proof/Machine/StepMachine.lean ====
section
/-!
DEFINITION. The step machines of the commands (40_window_matcher.md R110; 41_dictionary_codec.md R124, R134;
42_tree_builder.md R164; 43_entropy_codec.md R199; 70_reset_and_hazards.md R251): inside a command, the state holds its
working registers, and `tick` does one unit of its work. A whole command seen from outside is atomic (20_memory.md
R57); `step` of Machine/Step.lean is that view.
-/

namespace Sys2Proof.Machine

/-- What one unit of work leaves: registers to go on with, or the command's result. -/
inductive Micro where
  | more (w : Work)
  | done (v : ResultBundle)
  deriving DecidableEq, Repr

/-- BUILD_TREE's registers before seeding (42_tree_builder.md R155). -/
def buildStart : BuildTreeRegs := { s := 0, Q := [], nextSeq := 0, a := none, b := none }

/-- TOKEN_PARSE's registers before its first byte (41_dictionary_codec.md R136, R137). -/
def tokenParseStart (TEXT : List Byte) : TokenParseRegs :=
  { parseStart TEXT with phase := .opening, off := none, len := none, lit := none, v := none, first := none,
                         t := 0, OUT := [] }

/-- The working registers a command starts with (10_state.md R39), after the tree check where there is one
(43_entropy_codec.md R181). -/
def startWork (i : Instr) (ops : Operands) : Run Work :=
  match i with
  | .findMatch => (pureLiteral ops.IN ops.pos).bind fun best =>
      .ret (.findMatch { i := lo ops.pos ops.windowSize, run := 0, best := best,
                         limit := runLimit ops.pos ops.windowSize ops.IN.length })
  | .lzEncode => .ret (.lzEncode lzEncodeStart)
  | .lzDecode => .ret (.lzDecode { t := 0, OUT := [], src := none, k := 0, phase := .check })
  | .tokenFormat => .ret (.tokenFormat { OUT := [] })
  | .tokenParse => .ret (.tokenParse (tokenParseStart ops.TEXT))
  | .freqCount => .ret (.freqCount { s := 0, j := 0, F := zeroCounts })
  | .buildTree => .ret (.buildTree buildStart)
  | .codeTable => (checkTree ops.T).bind fun _ => .ret (.codeTable { C := emptyCodes, stack := [(ops.T, [])] })
  | .entEncode => .ret (.entEncode { j := 0, OUT := [], code := none, k := 0 })
  | .entDecode => (checkTree ops.T).bind fun _ => .ret (.entDecode (entDecodeStart ops.T))

/-- FIND_MATCH: one comparison, which lengthens the run or ends the candidate (40_window_matcher.md R110). -/
def findMatchTick (ops : Operands) (r : FindMatchRegs) : Run Micro :=
  if r.i < ops.pos then
    (runGoesOn ops.IN r.i ops.pos r.limit r.run).bind fun more =>
      if more then .ret (.more (.findMatch { r with run := r.run + 1 }))
      else (betterMatch ops.IN ops.pos r.i r.run r.best).bind fun best =>
        .ret (.more (.findMatch { r with i := r.i + 1, run := 0, best := best }))
  else .ret (.done (.found r.best))

/-- LZ_ENCODE: one token (41_dictionary_codec.md R124). -/
def lzEncodeTick (cfg : Config) (ops : Operands) (r : LzEncodeRegs) : Run Micro :=
  if lzEncodeGoesOn ops.IN r then
    (lzEncodeToken cfg ops.IN ops.windowSize r).map fun r => .more (.lzEncode r)
  else .ret (.done (.tokens r.OUT))

/-- LZ_DECODE: after the check or the copy of a token, its literal or the next token. -/
def lzLiteralOrNext (tok : Token) (r : LzDecodeRegs) : LzDecodeRegs :=
  match tok.literal with
  | some _ => { r with phase := .literal }
  | none => { r with t := r.t + 1, phase := .check }

/-- LZ_DECODE: one token check, one copied byte, or one literal (41_dictionary_codec.md R134). -/
def lzDecodeTick (cfg : Config) (ops : Operands) (r : LzDecodeRegs) : Run Micro :=
  match r.phase with
  | .check =>
    if r.t < ops.TOK.length then
      (memRead ops.TOK r.t).bind fun tok =>
      (acceptToken ops.TOK.length r.t r.OUT.length tok).bind fun _ =>
        if tok.offset > 0 ∧ tok.length > 0 then .ret (.more (.lzDecode { r with k := 0, phase := .copy }))
        else .ret (.more (.lzDecode (lzLiteralOrNext tok r)))
    else .ret (.done (.bytes r.OUT))
  | .copy =>
    (memRead ops.TOK r.t).bind fun tok =>
    let r := { r with src := some (r.OUT.length - tok.offset) }
    (readRegister r.src).bind fun src =>
    (memRead r.OUT src).bind fun b =>
    (append cfg r.OUT b).bind fun OUT =>
      let r := { r with OUT := OUT, k := r.k + 1 }
      if r.k < tok.length then .ret (.more (.lzDecode r)) else .ret (.more (.lzDecode (lzLiteralOrNext tok r)))
  | .literal =>
    (memRead ops.TOK r.t).bind fun tok =>
    (appendLiteral cfg tok.literal r.OUT).bind fun OUT =>
      .ret (.more (.lzDecode { r with OUT := OUT, t := r.t + 1, phase := .check }))

/-- TOKEN_FORMAT: one append (41_dictionary_codec.md R135). -/
def tokenFormatTick (cfg : Config) (ops : Operands) (r : TokenFormatRegs) : Run Micro :=
  match (fmt ops.TOK)[r.OUT.length]? with
  | some c => (append cfg r.OUT c).bind fun OUT => .ret (.more (.tokenFormat { OUT := OUT }))
  | none => .ret (.done (.bytes r.OUT))

/-- The bound of a field's number: that of offsets and lengths, or 255 for a literal (41_dictionary_codec.md R136). -/
def fieldMax (cfg : Config) : TextField → Option Nat
  | .offset => numMax cfg
  | .length => numMax cfg
  | .literal => some 255

/-- The byte expected after a field's number (30_encoding.md R80). -/
def fieldEnd : TextField → Byte
  | .offset => chComma
  | .length => chComma
  | .literal => chClose

/-- The token is complete with the byte at `p`: it joins `S`, and the parse ends here or goes on with a space
(41_dictionary_codec.md R136). -/
def endToken (TEXT : List Byte) (r : TokenParseRegs) : Run TokenParseRegs :=
  (readRegister r.off).bind fun off =>
  (readRegister r.len).bind fun len =>
  (readRegister r.lit).bind fun lit =>
    .ret { r with p := r.p + 1, S := r.S ++ [{ offset := off, length := len, literal := lit }],
                  parsed := decide (r.p + 1 = TEXT.length), phase := .space }

/-- The first byte of a field: the `-` of a literal, or a digit (41_dictionary_codec.md R136). -/
def firstByte (cfg : Config) (f : TextField) (r : TokenParseRegs) (c : Byte) : Run TokenParseRegs :=
  if f = .literal ∧ c = chDash then .ret { r with p := r.p + 1, lit := some none, phase := .closing }
  else if !isDigit c then .raise .malformedToken r.p
  else if exceeds (fieldMax cfg f) (digitVal c) then .raise .malformedToken r.p
  else .ret { r with p := r.p + 1, v := some (digitVal c), first := some c, phase := .digits f }

/-- The byte `c` ends the number `v` of a field: the field's register takes it (41_dictionary_codec.md R136). -/
def endNumber (TEXT : List Byte) (f : TextField) (v : Nat) (r : TokenParseRegs) : Run TokenParseRegs :=
  match f with
  | .offset => .ret { r with p := r.p + 1, off := some v, phase := .first .length }
  | .length => .ret { r with p := r.p + 1, len := some v, phase := .first .literal }
  | .literal => endToken TEXT { r with lit := some (some (BitVec.ofNat 8 v)) }

/-- A byte after the first digit of a number: a further digit, which may not follow a first `0`, or the byte that ends
the number (41_dictionary_codec.md R136). -/
def laterByte (cfg : Config) (TEXT : List Byte) (f : TextField) (r : TokenParseRegs) (c : Byte) : Run TokenParseRegs :=
  (readRegister r.v).bind fun v =>
  (readRegister r.first).bind fun first =>
    if first ≠ 0x30 ∧ isDigit c then
      if exceeds (fieldMax cfg f) (10 * v + digitVal c) then .raise .malformedToken r.p
      else .ret { r with p := r.p + 1, v := some (10 * v + digitVal c) }
    else if c = fieldEnd f then endNumber TEXT f v r
    else .raise .malformedToken r.p

/-- The parser's work on one byte of the text (41_dictionary_codec.md R136). -/
def parseByte (cfg : Config) (TEXT : List Byte) (r : TokenParseRegs) (c : Byte) : Run TokenParseRegs :=
  match r.phase with
  | .opening => if c = chOpen then .ret { r with p := r.p + 1, phase := .first .offset } else .raise .malformedToken r.p
  | .first f => firstByte cfg f r c
  | .digits f => laterByte cfg TEXT f r c
  | .closing => if c = chClose then endToken TEXT r else .raise .malformedToken r.p
  | .space => if c = chSpace then .ret { r with p := r.p + 1, phase := .opening } else .raise .malformedToken r.p

/-- TOKEN_PARSE: one byte of the text read, or, once the text is parsed, one append (41_dictionary_codec.md R136, R137;
70_reset_and_hazards.md R251). -/
def tokenParseTick (cfg : Config) (ops : Operands) (r : TokenParseRegs) : Run Micro :=
  if parseGoesOn r.toParseRegs then
    if r.p = ops.TEXT.length then .raise .truncatedInput ops.TEXT.length
    else (memRead ops.TEXT r.p).bind fun c =>
      (parseByte cfg ops.TEXT r c).map fun r => .more (.tokenParse r)
  else if r.t < r.S.length then
    (memRead r.S r.t).bind fun tok => (append cfg r.OUT tok).bind fun OUT =>
      .ret (.more (.tokenParse { r with OUT := OUT, t := r.t + 1 }))
  else .ret (.done (.tokens r.OUT))

/-- FREQ_COUNT: one count cleared, or one byte counted (42_tree_builder.md R150). -/
def freqCountTick (ops : Operands) (r : FreqCountRegs) : Run Micro :=
  if r.s < 256 then .ret (.more (.freqCount { r with F := tableSet r.F (BitVec.ofNat 8 r.s) 0, s := r.s + 1 }))
  else if r.j < ops.IN.length then
    (countByte ops.IN r.F r.j).bind fun F => .ret (.more (.freqCount { r with F := F, j := r.j + 1 }))
  else .ret (.done (.counts r.F))

/-- Seeding of byte value `x`, the one numbered `r.s`: a leaf for a nonzero count, numbered in order
(42_tree_builder.md R152). -/
def seedSymbol (F : FreqTable) (r : BuildTreeRegs) (x : Byte) : BuildTreeRegs :=
  if tableGet F x > 0 then
    { r with Q := enqueue (leafEntry x (tableGet F x) r.nextSeq) r.Q, nextSeq := r.nextSeq + 1, s := r.s + 1 }
  else { r with s := r.s + 1 }

/-- BUILD_TREE: one byte value seeded, or one merge; then the end, where a single leaf seeded gives the single-symbol
tree (42_tree_builder.md R157, R158, R164). -/
def buildTreeTick (ops : Operands) (r : BuildTreeRegs) : Run Micro :=
  if r.s < 256 then .ret (.more (.buildTree (seedSymbol ops.F r (BitVec.ofNat 8 r.s))))
  else if mergeGoesOn r then (mergeStep r).map fun r => .more (.buildTree r)
  else match r.Q with
    | [] => .raise .emptyAlphabet 0
    | e :: _ => if r.nextSeq = 1 then .ret (.done (.tree (singleSymbolTree e))) else .ret (.done (.tree e.node))

/-- The children of a node with their paths, left before right (43_entropy_codec.md R182). -/
def childPaths (n : Node) (path : List Bit) : List (Node × List Bit) :=
  n.left.toList.map (fun l => (l, path ++ [false])) ++ n.right.toList.map (fun r => (r, path ++ [true]))

/-- CODE_TABLE: one node (43_entropy_codec.md R199). -/
def codeTableTick (r : CodeTableRegs) : Run Micro :=
  match r.stack with
  | [] => .ret (.done (.codes r.C))
  | (n, path) :: rest =>
    if isLeaf n then (recordCode n path r.C).bind fun C => .ret (.more (.codeTable { C := C, stack := rest }))
    else .ret (.more (.codeTable { r with stack := childPaths n path ++ rest }))

/-- ENT_ENCODE: the code of byte `j` has been appended up to bit `k`: go on with it, or with the next byte. -/
def entEncodeNext (r : EntEncodeRegs) (code : List Bit) (k : Nat) : EntEncodeRegs :=
  if k < code.length then { r with code := some code, k := k } else { r with code := none, k := 0, j := r.j + 1 }

/-- ENT_ENCODE: one lookup, or one bit appended (43_entropy_codec.md R199). -/
def entEncodeTick (cfg : Config) (ops : Operands) (r : EntEncodeRegs) : Run Micro :=
  match r.code with
  | none =>
    if r.j < ops.IN.length then
      (lookUp ops.IN ops.C r.j).bind fun code => .ret (.more (.entEncode (entEncodeNext r code 0)))
    else .ret (.done (.bits r.OUT))
  | some code =>
    (memRead code r.k).bind fun b => (append cfg r.OUT b).bind fun OUT =>
      .ret (.more (.entEncode (entEncodeNext { r with OUT := OUT } code (r.k + 1))))

/-- ENT_DECODE: one bit (43_entropy_codec.md R199). -/
def entDecodeTick (cfg : Config) (ops : Operands) (r : EntDecodeRegs) : Run Micro :=
  if r.j < ops.BITS.length then
    (entDecodeBit cfg ops.BITS ops.T r r.j).bind fun r => .ret (.more (.entDecode r))
  else (entDecodeEnd ops.BITS r).bind fun OUT => .ret (.done (.bytes OUT))

/-- One unit of the work of the command in progress. -/
def microStep (cfg : Config) (ops : Operands) (w : Work) : Run Micro :=
  match w with
  | .findMatch r => findMatchTick ops r
  | .lzEncode r => lzEncodeTick cfg ops r
  | .lzDecode r => lzDecodeTick cfg ops r
  | .tokenFormat r => tokenFormatTick cfg ops r
  | .tokenParse r => tokenParseTick cfg ops r
  | .freqCount r => freqCountTick ops r
  | .buildTree r => buildTreeTick ops r
  | .codeTable r => codeTableTick r
  | .entEncode r => entEncodeTick cfg ops r
  | .entDecode r => entDecodeTick cfg ops r

/-- The state after a unit of work. -/
def settle (s : State) (x : Run Micro) : Host.Outcome State Fault Refusal :=
  match x with
  | .ret (.more w) => .next { s with work := some w }
  | .ret (.done v) => returnResult s v
  | .raise e info => raiseError s e info
  | .stop f => .fault f

/-- The start of a command: decode, operand checks, then its working registers come into being (30_encoding.md R76,
R78; 10_state.md R21; 60_exceptions.md R215). -/
def beginCommand (s : State) (c : Command) : Host.Outcome State Fault Refusal :=
  match decode c.CMD with
  | .error _ => raiseError s .illegalCommand 0
  | .ok i =>
    if operandsRejected s.config i c.OPS then raiseError s .invalidArgument 0
    else settle s ((startWork i c.OPS).map .more)

/-- One unit of the instance's work: nothing while it waits for a command; the start of the command issued first; or
the next unit of the command in progress. -/
def tick (s : State) : Host.Outcome State Fault Refusal :=
  match s.work, s.commands with
  | none, [] => .next s
  | none, c :: _ => beginCommand s c
  | some _, [] => .refused .noCommand
  | some w, c :: _ => settle s (microStep s.config c.OPS w)

/-- `n` ticks, ending at the first fault or refusal. -/
def ticks (n : Nat) (s : State) : Host.Outcome State Fault Refusal :=
  match n with
  | 0 => .next s
  | n + 1 =>
    match tick s with
    | .next s' => ticks n s'
    | .fault f => .fault f
    | .refused r => .refused r

/-- The number of nodes of a tree (42_tree_builder.md R160). -/
def nodeCount : Node → Nat
  | .leaf _ _ => 1
  | .onlyLeft _ _ l => 1 + nodeCount l
  | .onlyRight _ _ r => 1 + nodeCount r
  | .branch _ _ l r => 1 + nodeCount l + nodeCount r

/-- `k`, the number of nonzero counts of a table (42_tree_builder.md R152). -/
def alphabetSize (F : FreqTable) : Nat := F.toList.countP fun f => decide (f > 0)

/-- The number of tokens TOKEN_PARSE appends after its parse: those of the text, none when the parse fails
(41_dictionary_codec.md R137). -/
def tokensParsed (cfg : Config) (TEXT : List Byte) : Nat :=
  match parse cfg TEXT with
  | .ret S => S.length
  | .raise _ _ => 0
  | .stop _ => 0

/-- The steps at most of a command's work (70_reset_and_hazards.md R251). -/
def stepBound (cfg : Config) (i : Instr) (ops : Operands) : Nat :=
  match i with
  | .findMatch => min ops.pos ops.windowSize * (min ops.windowSize (ops.IN.length - ops.pos) + 1)
  | .lzEncode => ops.IN.length
  | .lzDecode => 2 * ops.TOK.length + (ops.TOK.map fun t => t.length).sum
  | .tokenFormat => (fmt ops.TOK).length
  | .tokenParse => ops.TEXT.length + tokensParsed cfg ops.TEXT
  | .freqCount => 256 + ops.IN.length
  | .buildTree => 256 + max 1 (alphabetSize ops.F - 1)
  | .codeTable => nodeCount ops.T
  | .entEncode => ops.IN.length + (ops.IN.map fun c => ((tableGet ops.C c).getD []).length).sum
  | .entDecode => ops.BITS.length

end Sys2Proof.Machine
end

