-- ==== Sys2Proof/Machine/Fetch.lean ====
section
/-!
DEFINITION. Taking the command issued first: decode and run (30_encoding.md R70, R76), and the operands it comes with
(log 4).
-/

namespace Sys2Proof.Machine

/-- The command issued first, decoded and run whole; a word that spells no command raises `IllegalCommand(0)` before
any operand is read (30_encoding.md R76, R77). -/
def runWord (s : State) (c : Command) : Host.Outcome State Fault Refusal :=
  match decode c.CMD with
  | .ok i => exec i s
  | .error _ => raiseError s .illegalCommand 0

/-- The bundle with nothing in it: every sequence empty, every number and count zero, no code, and a lone leaf without a
symbol for the tree. -/
def noOperands : Operands :=
  { IN := [], pos := 0, windowSize := 0, TOK := [], TEXT := [], F := zeroCounts, T := .leaf none 0, C := emptyCodes,
    BITS := [] }

/-- The operand bundle `withFetchWord` issues when no command is waiting whose operands it can keep: what the ten
commands take for the one-byte input `0` (its token, its text, its counts, its tree, its codes, its bits), on which each
of them passes its checks and runs. -/
def oneByteOperands : Operands :=
  { IN := [0], pos := 0, windowSize := 1, TOK := [{ offset := 0, length := 0, literal := some 0 }],
    TEXT := fmt [{ offset := 0, length := 0, literal := some 0 }], F := tableSet zeroCounts 0 1,
    T := .onlyLeft none 1 (.leaf (some 0) 1), C := tableSet emptyCodes 0 (some [false]), BITS := [false] }

/-- The operands the command issued first came with, or `oneByteOperands`. -/
def State.frontOperands (s : State) : Operands :=
  match s.commands with
  | [] => oneByteOperands
  | c :: _ => c.OPS

end Sys2Proof.Machine
end

