-- ==== Sys2Proof/Machine/Step.lean ====
section
/-!
DEFINITION. The step of an instance, at transaction level: one whole command (30_encoding.md R70; 20_memory.md R57,
R61). Every meaning it calls stands in the files it imports.
-/

namespace Sys2Proof.Machine

/-- One step. An idle instance runs the command issued first as one atomic transition (20_memory.md R57, R61), or, when
none is issued, waits (70_reset_and_hazards.md R240). A state with a command in progress is one that no step and no
reset leaves (R241); from it the step is the next unit of that command, which must run to its end before another
starts (20_memory.md R61). -/
def step (s : State) : Host.Outcome State Fault Refusal :=
  match s.work, s.commands with
  | some _, _ => tick s
  | none, [] => .next s
  | none, c :: _ => runWord s c

/-- The state whose next step runs the command word given: the word stands first in the issue order, with the operands
that stood there. The block fetches no word from a buffer (20_memory.md R66): the caller issues it. -/
def State.withFetchWord (s : State) (nbits w : Nat) : State :=
  { s with commands := { CMD := tableWord nbits w, OPS := s.frontOperands } :: s.commands.tail, work := none }

end Sys2Proof.Machine
end

