-- ==== Sys2Proof/Machine/Caller.lean ====
section
/-!
DEFINITION. What the outside world does to an instance (60_exceptions.md R227; 70_reset_and_hazards.md R240 to R242),
and several instances side by side (20_memory.md R62; 60_exceptions.md R224). None of these is a step of the block.
-/

namespace Sys2Proof.Machine

/-- The caller issues a command: any 32-bit word with any operand values (60_exceptions.md R227). -/
def issue (c : Command) (s : State) : State := { s with commands := s.commands ++ [c] }

/-- The caller reads the oldest result it has not taken; the block keeps no reference to it (60_exceptions.md R227). -/
def takeResult (s : State) : Option Response × State :=
  match s.results with
  | [] => (none, s)
  | r :: rest => (some r, { s with results := rest })

/-- The caller resets the instance: idle, no result pending, the configuration kept (70_reset_and_hazards.md R240).
Reset during a command is refused (R241). -/
def resetInstance (s : State) : Host.Outcome State Fault Refusal :=
  match s.work with
  | none => .next (State.build s.config)
  | some _ => .refused .resetDuringCommand

/-- Issue commands in order and let the instance answer each before the next: what a caller of the synchronous
interface sees (20_memory.md R61). -/
def session (s : State) : List Command → Host.Outcome State Fault Refusal
  | [] => .next s
  | c :: cs =>
    match step (issue c s) with
    | .next s' => session s' cs
    | .fault f => .fault f
    | .refused r => .refused r

/-- Issue commands one after another without waiting for an answer (20_memory.md R61; 60_exceptions.md R227). -/
def issueAll (cs : List Command) (s : State) : State := cs.foldl (fun s c => issue c s) s

/-- `n` steps, ending at the first fault or refusal. -/
def steps (n : Nat) (s : State) : Host.Outcome State Fault Refusal :=
  match n with
  | 0 => .next s
  | n + 1 =>
    match step s with
    | .next s' => steps n s'
    | .fault f => .fault f
    | .refused r => .refused r

/-- Several instances, each an agent of its own; they share nothing (60_exceptions.md R224). -/
abbrev System := List State

/-- Agent `k` takes the next step; any agent may (60_exceptions.md R224). An agent that does not exist changes nothing. -/
def stepAgent (k : Nat) (sys : System) : Host.Outcome System Fault Refusal :=
  match sys[k]? with
  | none => .next sys
  | some s =>
    match step s with
    | .next s' => .next (sys.set k s')
    | .fault f => .fault f
    | .refused r => .refused r

end Sys2Proof.Machine
end

