-- ==== Sys2Proof/Safety.lean ====
section
/-!
DEFINITION. The terms claims use: what counts as a safe state of an instance, and the spec's own notions (bounds, runs,
matches, token streams, valid text, paths in a tree, costs), said without the model's operations.
-/

namespace Sys2Proof.Machine

/-! ## States and answers -/

/-- The instance is idle: no command is running (70_reset_and_hazards.md R240). -/
def Idle (s : State) : Prop := s.work = none

/-- The state after the command issued first is answered with `r`: that command is gone, no working register exists, one
more result is delivered, and nothing else is changed (10_state.md R20, R21; 20_memory.md R57). -/
def afterAnswer (s : State) (r : Response) : State :=
  { config := s.config, commands := s.commands.tail, work := none, results := s.results ++ [r] }

/-- An idle instance of configuration `cfg` to which the command `i` with operands `ops` has just been issued
(30_encoding.md R70, R75). -/
def presenting (cfg : Config) (i : Instr) (ops : Operands) : State :=
  { config := cfg, commands := [{ CMD := encode i, OPS := ops }], work := none, results := [] }

/-- The idle instance that has delivered the one answer `r` (70_reset_and_hazards.md R240; 30_encoding.md R70). -/
def answered (cfg : Config) (r : Response) : State :=
  { config := cfg, commands := [], work := none, results := [r] }

/-- `n` is at most the bound, when there is one. -/
def AtMost (bound : Option Nat) (n : Nat) : Prop := ∀ m, bound = some m → n ≤ m

/-- An output of `len` elements is within `OUTPUT_CAP` (20_memory.md R60). -/
def WithinCap (cfg : Config) (len : Nat) : Prop := AtMost cfg.OUTPUT_CAP len

/-- Some operand check of 30_encoding.md R78 fails for the command `i`, said check by check. -/
def OperandCheckFails (cfg : Config) (i : Instr) (ops : Operands) : Prop :=
  (i ∈ [Instr.findMatch, .lzEncode, .freqCount, .entEncode] ∧ ¬ AtMost cfg.MAX_INPUT_LEN ops.IN.length) ∨
  (i = .tokenParse ∧ ¬ AtMost cfg.MAX_INPUT_LEN ops.TEXT.length) ∨
  (i ∈ [Instr.lzDecode, .tokenFormat] ∧ ¬ AtMost cfg.MAX_INPUT_LEN ops.TOK.length) ∨
  (i = .entDecode ∧ ¬ AtMost cfg.MAX_INPUT_LEN ops.BITS.length) ∨
  (i ∈ [Instr.findMatch, .lzEncode] ∧ ¬ AtMost cfg.WINDOW_MAX ops.windowSize) ∨
  (i = .buildTree ∧ ∃ bits, cfg.COUNT_BITS = some bits ∧ 2 ^ bits - 1 < (symbols.map (tableGet ops.F)).sum) ∨
  (i = .findMatch ∧ ops.IN.length ≤ ops.pos)

/-! ## The invariant -/

/-- The shape of a Match that FIND_MATCH returns, as far as it can be said without the input (40_window_matcher.md
R104). -/
def MatchShape (m : Match) : Prop := (m.length = 0 ↔ m.offset = 0) ∧ (m.literal = none → 1 ≤ m.length)

/-- No entry is empty and no entry is a prefix of the entry of another symbol (10_state.md R33; 43_entropy_codec.md
R184, R185). -/
def PrefixFree (C : CodeTable) : Prop :=
  (∀ x, tableGet C x ≠ some []) ∧
  ∀ x y p q, x ≠ y → tableGet C x = some p → tableGet C y = some q → ¬ p <+: q

/-- A result bundle the rules allow an `OK` answer to carry. -/
def BundleOk (cfg : Config) : ResultBundle → Prop
  | .found m => MatchShape m
  | .tokens OUT => WithinCap cfg OUT.length
  | .bytes OUT => WithinCap cfg OUT.length
  | .counts _ => True
  | .tree T => treeWF T = true
  | .codes C => PrefixFree C
  | .bits OUT => WithinCap cfg OUT.length
  | .info _ => False

/-- An answer the rules allow: `OK` with a result, or one of the nine error codes with `INFO` (30_encoding.md R73, R74;
60_exceptions.md R210, R220). -/
def ResponseOk (cfg : Config) (r : Response) : Prop :=
  (r.STATUS = 0 ∧ BundleOk cfg r.RES) ∨ (1 ≤ r.STATUS.toNat ∧ r.STATUS.toNat ≤ 9 ∧ ∃ n, r.RES = .info n)

/-- The invariant of an instance at transaction level: idle, and every answer delivered one the rules allow. -/
def Inv (s : State) : Prop := Idle s ∧ ∀ r ∈ s.results, ResponseOk s.config r

/-- The codes of the errors a command can raise (60_exceptions.md R214), `IllegalCommand` apart, which belongs to a word
rather than to a command. -/
def mayRaise : Instr → List Nat
  | .findMatch => [9]
  | .lzEncode => [5, 9]
  | .lzDecode => [1, 2, 5, 9]
  | .tokenFormat => [5, 9]
  | .tokenParse => [1, 3, 5, 9]
  | .freqCount => [9]
  | .buildTree => [6, 9]
  | .codeTable => [7, 9]
  | .entEncode => [4, 5, 9]
  | .entDecode => [3, 5, 7, 9]

/-! ## U1: runs and matches -/

/-- The first `L` bytes at candidate `i` and at the cursor are equal, inside the run bound (40_window_matcher.md R101). -/
def CommonRun (IN : List Byte) (i pos limit L : Nat) : Prop :=
  pos + L ≤ limit ∧ ∀ k < L, IN[i + k]? = IN[pos + k]?

/-- `L` is the run length at candidate `i`: the largest common run (40_window_matcher.md R101). -/
def IsRunLength (IN : List Byte) (i pos limit L : Nat) : Prop :=
  CommonRun IN i pos limit L ∧ ∀ L', CommonRun IN i pos limit L' → L' ≤ L

/-- `i` is a candidate: it lies in the window at `pos`, at a distance of at most `w` (40_window_matcher.md R100, R107). -/
def InWindow (pos w i : Nat) : Prop := i < pos ∧ pos ≤ i + w

/-- The constraints on a Match of 40_window_matcher.md R104, bullet by bullet. -/
structure MatchSpec (IN : List Byte) (pos w : Nat) (m : Match) : Prop where
  /-- `length = 0` if and only if `offset = 0`. -/
  zero_iff : m.length = 0 ↔ m.offset = 0
  /-- In that case `literal = some IN[pos]`. -/
  zero_literal : m.length = 0 → m.literal = IN[pos]? ∧ m.literal ≠ none
  /-- When `length >= 1`: `1 <= offset <= min(pos, windowSize)` and `1 <= length <= min(windowSize, n - pos)`. -/
  bounds : 1 ≤ m.length → 1 ≤ m.offset ∧ m.offset ≤ min pos w ∧ m.length ≤ min w (IN.length - pos)
  /-- For every `k < length`: `IN[pos - offset + k] = IN[pos + k]`. -/
  copies : ∀ k < m.length, IN[pos - m.offset + k]? = IN[pos + k]?
  /-- `literal = none` if and only if `length >= 1` and `pos + length = n`. -/
  noLiteral_iff : m.literal = none ↔ 1 ≤ m.length ∧ pos + m.length = IN.length
  /-- When `literal = some b` and `length >= 1`: `b = IN[pos + length]`. -/
  literal_follows : ∀ b, m.literal = some b → 1 ≤ m.length → IN[pos + m.length]? = some b
  /-- `length` is the greatest run length over the window. -/
  longest : ∀ i L, InWindow pos w i → IsRunLength IN i pos (min (pos + w) IN.length) L → L ≤ m.length
  /-- When there is a run, `length` is the run length at the candidate taken, ... -/
  attained : 1 ≤ m.length → IsRunLength IN (pos - m.offset) pos (min (pos + w) IN.length) m.length
  /-- ... and `offset` is the greatest `pos - i` among the candidates `i` that reach that length. -/
  earliest : 1 ≤ m.length → ∀ i, InWindow pos w i →
    IsRunLength IN i pos (min (pos + w) IN.length) m.length → pos - i ≤ m.offset

/-! ## U2: token streams -/

/-- The number of bytes a token stands for (41_dictionary_codec.md R123). -/
def bytesOf (tok : Token) : Nat := tok.length + (match tok.literal with | some _ => 1 | none => 0)

/-- The tokens are those of the matches at the cursors they lead through, from `pos` to the end of the input
(41_dictionary_codec.md R122, R123). -/
def Tokenizes (IN : List Byte) (w : Nat) : Nat → List Token → Prop
  | pos, [] => pos = IN.length
  | pos, tok :: toks =>
    pos < IN.length ∧ MatchSpec IN pos w { offset := tok.offset, length := tok.length, literal := tok.literal } ∧
      Tokenizes IN w (pos + bytesOf tok) toks

/-- Checks 1, 2 and 3 of 41_dictionary_codec.md R128, for token `t` of `count`. -/
def Malformed (count t : Nat) (tok : Token) : Prop :=
  (tok.literal = none ∧ t ≠ count - 1) ∨ (tok.literal = none ∧ (tok.offset = 0 ∨ tok.length = 0)) ∨
    (tok.offset = 0 ∧ 0 < tok.length)

/-- What an accepted token appends (41_dictionary_codec.md R129, R130): `length` bytes, the `k`-th equal to the byte
`offset` before it, which for `k >= offset` is one this token appended; then the literal, if any; and nothing before
them is changed. -/
def Appends (tok : Token) (OUT OUT' : List Byte) : Prop :=
  OUT <+: OUT' ∧ OUT'.length = OUT.length + bytesOf tok ∧
  (∀ k < tok.length, OUT'[OUT.length + k]? = OUT'[OUT.length - tok.offset + k]?) ∧
  ∀ b, tok.literal = some b → OUT'[OUT.length + tok.length]? = some b

/-- The tokens, from index `t` of `count` on, are all accepted, and take the output `OUT` to `OUT'`
(41_dictionary_codec.md R128, R129). -/
def Decodes (count : Nat) : Nat → List Token → List Byte → List Byte → Prop
  | _, [], OUT, OUT' => OUT' = OUT
  | t, tok :: toks, OUT, OUT' =>
    ¬ Malformed count t tok ∧ tok.offset ≤ OUT.length ∧
      ∃ mid, Appends tok OUT mid ∧ Decodes count (t + 1) toks mid OUT'

/-! ## U2: token text -/

/-- The token's numbers fit in `COUNT_BITS` bits, when it is set (30_encoding.md R86). -/
def TokenFits (cfg : Config) (tok : Token) : Prop :=
  ∀ bits, cfg.COUNT_BITS = some bits → tok.offset ≤ 2 ^ bits - 1 ∧ tok.length ≤ 2 ^ bits - 1

/-- The text of a token sequence (30_encoding.md R82). -/
def ValidText (cfg : Config) (x : List Byte) : Prop := ∃ toks, (∀ t ∈ toks, TokenFits cfg t) ∧ fmt toks = x

/-- The text can be continued to a valid one (30_encoding.md R83). -/
def ValidStart (cfg : Config) (x : List Byte) : Prop := ∃ y, ValidText cfg (x ++ y)

/-! ## U3 and U4: trees and codes -/

/-- The node a path of bits leads to from `n`, 0 for a left step and 1 for a right step (20_memory.md R53). -/
def nodeAt (n : Node) : List Bit → Option Node
  | [] => some n
  | b :: bs =>
    match (if b then n.right else n.left) with
    | some c => nodeAt c bs
    | none => none

/-- The path leads to a leaf that carries `x` (43_entropy_codec.md R183). -/
def LeafAt (T : Node) (path : List Bit) (x : Byte) : Prop :=
  ∃ n, nodeAt T path = some n ∧ n.left = none ∧ n.right = none ∧ n.symbol = some x

/-- WF1, WF2 and WF3 of 10_state.md R32, said of the tree's paths. -/
structure WellFormedTree (T : Node) : Prop where
  /-- WF1: every leaf carries a symbol. -/
  leaves_carry : ∀ p n, nodeAt T p = some n → n.left = none → n.right = none → ∃ x, n.symbol = some x
  /-- WF2: the root is internal. -/
  root_internal : T.left ≠ none ∨ T.right ≠ none
  /-- WF3: no byte value is the symbol of two different leaves. -/
  symbols_distinct : ∀ p q x, LeafAt T p x → LeafAt T q x → p = q

/-- `bits` spells `xs` in the codes of `T`: one path to a leaf of each symbol, in order (43_entropy_codec.md R187, R197). -/
def Spells (T : Node) : List Byte → List Bit → Prop
  | [], bits => bits = []
  | x :: xs, bits => ∃ p q, bits = p ++ q ∧ LeafAt T p x ∧ Spells T xs q

/-- `C` holds exactly the codes of `T`: the paths to its leaves (43_entropy_codec.md R183). -/
def IsCodeTableOf (T : Node) (C : CodeTable) : Prop := ∀ x p, tableGet C x = some p ↔ LeafAt T p x

/-- The number of bits of `xs` under `C` (43_entropy_codec.md R190). -/
def codedLength (C : CodeTable) (xs : List Byte) : Nat :=
  (xs.map fun c => ((tableGet C c).getD []).length).sum

/-- The codes of `xs` under `C`, joined in input order (43_entropy_codec.md R187). -/
def codedBits (C : CodeTable) (xs : List Byte) : List Bit := xs.flatMap fun c => (tableGet C c).getD []

/-- Every internal node has two children (42_tree_builder.md R160). -/
def TwoChildren : Node → Prop
  | .leaf _ _ => True
  | .onlyLeft _ _ _ => False
  | .onlyRight _ _ _ => False
  | .branch _ _ l r => TwoChildren l ∧ TwoChildren r

/-- The sum over the leaves of their frequency times their depth, for a tree whose root is at depth `d`
(42_tree_builder.md R161). -/
def leafCost (d : Nat) : Node → Nat
  | .leaf _ f => f * d
  | .onlyLeft _ _ l => leafCost (d + 1) l
  | .onlyRight _ _ r => leafCost (d + 1) r
  | .branch _ _ l r => leafCost (d + 1) l + leafCost (d + 1) r

/-- `cost(T)` (42_tree_builder.md R161). -/
def treeCost (T : Node) : Nat := leafCost 0 T

/-- The sum of the frequencies of the internal nodes (42_tree_builder.md R161). -/
def internalFrequencies : Node → Nat
  | .leaf _ _ => 0
  | .onlyLeft _ f l => f + internalFrequencies l
  | .onlyRight _ f r => f + internalFrequencies r
  | .branch _ f l r => f + internalFrequencies l + internalFrequencies r

/-- The sum of all counts of a table (42_tree_builder.md R151, R160). -/
def totalCount (F : FreqTable) : Nat := (symbols.map (tableGet F)).sum

/-- `k`, the number of nonzero counts (42_tree_builder.md R152). -/
def distinctSymbols (F : FreqTable) : Nat := (symbols.filter fun x => decide (tableGet F x > 0)).length

/-- The sum of the counts fits in `COUNT_BITS` bits, when it is set (30_encoding.md R78). -/
def CountsFit (cfg : Config) (F : FreqTable) : Prop := ∀ bits, cfg.COUNT_BITS = some bits → totalCount F ≤ 2 ^ bits - 1

/-- The key of `a` is less than the key of `b`: first by frequency, then by sequence number (42_tree_builder.md R153). -/
def KeyBefore (a b : Entry) : Prop :=
  a.node.frequency < b.node.frequency ∨ (a.node.frequency = b.node.frequency ∧ a.seq < b.seq)

/-- `L` is the leaf entries made by seeding from `F`, in the order made (42_tree_builder.md R152). -/
structure IsSeeding (F : FreqTable) (L : List Entry) : Prop where
  /-- The `j`-th leaf made has the sequence number `j`, and is the leaf of a byte value with a nonzero count. -/
  leaf_of : ∀ (j : Nat) (e : Entry), L[j]? = some e →
    e.seq = j ∧ ∃ x, e.node = .leaf (some x) (tableGet F x) ∧ 0 < tableGet F x
  /-- Every byte value with a nonzero count has its leaf. -/
  complete : ∀ x, 0 < tableGet F x → ∃ e ∈ L, e.node.symbol = some x
  /-- The leaves are made in ascending order of the byte value. -/
  ascending : L.Pairwise fun e f =>
    ∀ x y, e.node.symbol = some x → f.node.symbol = some y → x.toNat < y.toNat

/-- The merges from the queue with the entries `Q`, in any order, and the next sequence number `n` end in the root `T`:
each takes the entry `a` with the least key, then the entry `b` with the least key of the others, and puts in the node
with `a` on the left and `b` on the right under the number `n` (42_tree_builder.md R153, R154, R155). -/
inductive MergesTo : Nat → List Entry → Node → Prop where
  /-- One entry is left: its node is the root. -/
  | root (n : Nat) (e : Entry) : MergesTo n [e] e.node
  /-- One merge, and the merges that follow it. -/
  | merge (n : Nat) (Q rest : List Entry) (a b : Entry) (T : Node) (perm : Q.Perm (a :: b :: rest))
      (first : ∀ e ∈ b :: rest, KeyBefore a e) (second : ∀ e ∈ rest, KeyBefore b e)
      (goesOn : MergesTo (n + 1)
        ({ node := .branch none (a.node.frequency + b.node.frequency) a.node b.node, seq := n } :: rest) T) :
      MergesTo n Q T

/-- `T` is the tree of `F`: for one leaf, the root with that leaf on its left; for more, what the merges end in
(42_tree_builder.md R152 to R158). -/
def IsTreeOf (F : FreqTable) (T : Node) : Prop :=
  ∃ L, IsSeeding F L ∧
    ((∃ e, L = [e] ∧ T = .onlyLeft none e.node.frequency e.node) ∨ (2 ≤ L.length ∧ MergesTo L.length L T))

/-! ## Step machines -/

/-- The step machine of command `i` does the command: from an idle instance, some number of ticks, at most the bound of
70_reset_and_hazards.md R251 and one each for the start and the end of the command (the model's choice, log 14), gives
what `step` gives as one transition; and until then the caller sees nothing: no result, no command taken
(20_memory.md R57). -/
def StepMachineDoes (i : Instr) : Prop :=
  ∀ (s : State) (c : Command) (rest : List Command), s.work = none → s.commands = c :: rest → decode c.CMD = .ok i →
    ∃ n, n ≤ stepBound s.config i c.OPS + 2 ∧ ticks n s = step s ∧
      ∀ j < n, ∃ t, ticks j s = .next t ∧ t.results = s.results ∧ t.commands = s.commands ∧ t.config = s.config

end Sys2Proof.Machine
end

