-- ==== Sys2Proof/Certificates/Slice0/Obligations.lean ====
section
/-!
DEFINITION. The statements about the model, for the provers. Each docstring names the rules it formalises. An answer is
written out as its two fields: `STATUS := 0` is `OK`, and the codes 1 to 9 are those of 60_exceptions.md R210.
`afterAnswer s r` says the whole frame: the command answered is gone, one result is delivered, no working register
exists, and the configuration, the other commands and the earlier results are as they were.
-/

open Sys2Proof Sys2Proof.Machine

/-! ## Encoding -/

/-- R75, R76: the word of each command decodes to it. -/
def Obligations.EncodedCommandsDecode : Prop := ∀ i, decode (encode i) = .ok i

/-- R76: decode is total, and every word is one of the ten commands, at its own word only, or illegal. -/
def Obligations.OnlyTheTenWordsDecode : Prop :=
  ∀ w : CmdWord, (∀ i, decode w = .ok i ↔ w = encode i) ∧
    ((∃ i, decode w = .ok i) ↔ CmdWord.wellFormed w = true) ∧
    ((∀ i, w ≠ encode i) → ∃ e, decode w = .error e)

/-- R75, and the words of 95_test_vectors.md 2.1: the ten words, and words next to them. -/
def Obligations.WordsOfTheOpcodeMapDecode : Prop :=
  decode 0x00000001 = .ok .findMatch ∧ decode 0x00000002 = .ok .lzEncode ∧ decode 0x00000003 = .ok .lzDecode ∧
  decode 0x00000004 = .ok .tokenFormat ∧ decode 0x00000005 = .ok .tokenParse ∧ decode 0x00000010 = .ok .freqCount ∧
  decode 0x00000011 = .ok .buildTree ∧ decode 0x00000012 = .ok .codeTable ∧ decode 0x00000013 = .ok .entEncode ∧
  decode 0x00000014 = .ok .entDecode ∧
  decode 0x00000000 = .error (.unassignedOpcode 0x00) ∧ decode 0x00000006 = .error (.unassignedOpcode 0x06) ∧
  decode 0x00000102 = .error (.reservedNotZero 0x000001) ∧ decode 0x80000013 = .error (.reservedNotZero 0x800000)

/-! ## Steps, reset, answers -/

/-- R57, R61, R70: an idle instance whose first command's word decodes to `i` runs `i` as one step, and the step adds
nothing around it. -/
def Obligations.StepRunsTheDecodedCommand : Prop :=
  ∀ (s : State) (c : Command) (rest : List Command) (i : Instr), s.work = none → s.commands = c :: rest →
    decode c.CMD = .ok i → step s = exec i s

/-- R76, R77: a word that is none of the ten is answered with `IllegalCommand(0)`, whatever its operands, and does
nothing else. -/
def Obligations.IllegalWordsAreAnswered : Prop :=
  ∀ (s : State) (c : Command) (rest : List Command), s.work = none → s.commands = c :: rest →
    (∀ i, c.CMD ≠ encode i) → step s = .next (afterAnswer s { STATUS := 8, RES := .info 0 })

/-- R240: an idle instance to which no command has been issued waits. -/
def Obligations.IdleInstanceWaits : Prop :=
  ∀ s : State, s.work = none → s.commands = [] → step s = .next s

/-- R240, with the defaults of R8 for the instance the model starts with (log 5); that commands issued and not yet run
are dropped is the model's choice (log 7). -/
def Obligations.ResetLeavesAnIdleInstance : Prop :=
  State.reset = { config := { MAX_INPUT_LEN := none, WINDOW_MAX := none, OUTPUT_CAP := none, COUNT_BITS := none },
                  commands := [], work := none, results := [] } ∧
  ∀ s : State, s.work = none →
    resetInstance s = .next { config := s.config, commands := [], work := none, results := [] }

/-- The model's choices (log 1, log 7): exec refuses where no command is issued, and reset during a command is refused
(K12). -/
def Obligations.WhereTheModelOffersNoStep : Prop :=
  (∀ (i : Instr) (s : State), s.commands = [] → exec i s = .refused .noCommand) ∧
  ∀ (s : State) (w : Work), s.work = some w → resetInstance s = .refused .resetDuringCommand

/-- The invariant holds after reset. -/
def Obligations.ResetMeetsTheInvariant : Prop := Inv State.reset

/-- R21, R30, R33, R60, R74, R104, R159, R185: every step keeps the invariant: idle, every `OK` answer with a result the
rules allow (matches of the right shape, outputs within the cap, well-formed trees, prefix-free tables), every other
answer one of the nine errors with `INFO`. -/
def Obligations.EveryStepKeepsTheInvariant : Prop :=
  ∀ s t : State, Inv s → step s = .next t → Inv t

/-- R12, R24, R56, R217, R243, R251: a step of an idle instance never stops the model: no read outside a buffer, no
unwritten register, no loop without end; and it leaves the instance idle. -/
def Obligations.IdleInstanceNeverStops : Prop :=
  ∀ s : State, s.work = none → ∃ t, step s = .next t ∧ t.work = none

/-- R25: no step writes the configuration. -/
def Obligations.NoStepWritesTheConfiguration : Prop :=
  ∀ s t : State, step s = .next t → t.config = s.config

/-- R20: the answer to a command depends on the configuration and on the command alone, whatever ran before. -/
def Obligations.AnswersDoNotDependOnHistory : Prop :=
  ∀ (s₁ s₂ : State) (c : Command) (rest₁ rest₂ : List Command), s₁.work = none → s₂.work = none →
    s₁.config = s₂.config → s₁.commands = c :: rest₁ → s₂.commands = c :: rest₂ →
    ∃ r, step s₁ = .next (afterAnswer s₁ r) ∧ step s₂ = .next (afterAnswer s₂ r)

/-- R74, R211, R214, R220: every command answers, with `OK` or with one of the errors its row of R214 lists, and with an
error comes `INFO` alone. -/
def Obligations.CommandsRaiseOnlyTheirErrors : Prop :=
  ∀ (i : Instr) (s : State) (c : Command) (rest : List Command), s.commands = c :: rest →
    ∃ r, exec i s = .next (afterAnswer s r) ∧
      ((r.STATUS = 0 ∧ ∀ n, r.RES ≠ .info n) ∨ (r.STATUS.toNat ∈ mayRaise i ∧ ∃ n, r.RES = .info n))

/-- R78: the model's operand checks are those of R78, and a command with a failing check is answered with
`InvalidArgument(0)` and does nothing else. -/
def Obligations.RejectedOperandsAreAnswered : Prop :=
  (∀ cfg i ops, operandsRejected cfg i ops = true ↔ OperandCheckFails cfg i ops) ∧
  ∀ (i : Instr) (s : State) (c : Command) (rest : List Command), s.commands = c :: rest →
    OperandCheckFails s.config i c.OPS → exec i s = .next (afterAnswer s { STATUS := 9, RES := .info 0 })

/-- R60: an append adds one element within the cap, and raises `CapacityExceeded(len(OUT))` at it. -/
def Obligations.AppendGrowsWithinTheCap : Prop :=
  ∀ (α : Type) (cfg : Config) (OUT : List α) (v : α),
    ((∀ k, cfg.OUTPUT_CAP = some k → OUT.length + 1 ≤ k) → append cfg OUT v = .ret (OUT ++ [v])) ∧
    (∀ k, cfg.OUTPUT_CAP = some k → k < OUT.length + 1 → append cfg OUT v = .raise .capacityExceeded OUT.length)

/-! ## U1 Window Matcher -/

/-- R101: `runLen` is the largest common run inside the bound, and at most `min(w, n - pos)`. -/
def Obligations.RunLengthIsTheLargestCommonRun : Prop :=
  ∀ (IN : List Byte) (i pos w : Nat), i < pos → pos < IN.length →
    ∃ L, runLen IN i pos (runLimit pos w IN.length) = .ret L ∧
      IsRunLength IN i pos (min (pos + w) IN.length) L ∧ L ≤ min w (IN.length - pos)

/-- R104: FIND_MATCH answers with a Match that satisfies every constraint of R104. -/
def Obligations.FindMatchReturnsTheLongestMatch : Prop :=
  ∀ (s : State) (c : Command) (rest : List Command), s.commands = c :: rest → c.OPS.pos < c.OPS.IN.length →
    AtMost s.config.MAX_INPUT_LEN c.OPS.IN.length → AtMost s.config.WINDOW_MAX c.OPS.windowSize →
    ∃ m, exec .findMatch s = .next (afterAnswer s { STATUS := 0, RES := .found m }) ∧
      MatchSpec c.OPS.IN c.OPS.pos c.OPS.windowSize m

/-- R107: when no candidate in the window has a run of at least 1, FIND_MATCH answers with the pure literal. -/
def Obligations.RepeatOutsideTheWindowIsALiteral : Prop :=
  ∀ (s : State) (c : Command) (rest : List Command) (b : Byte), s.commands = c :: rest →
    c.OPS.IN[c.OPS.pos]? = some b →
    AtMost s.config.MAX_INPUT_LEN c.OPS.IN.length → AtMost s.config.WINDOW_MAX c.OPS.windowSize →
    (∀ d, 1 ≤ d → d ≤ c.OPS.windowSize → d ≤ c.OPS.pos → c.OPS.IN[c.OPS.pos - d]? ≠ some b) →
    exec .findMatch s =
      .next (afterAnswer s { STATUS := 0, RES := .found { offset := 0, length := 0, literal := some b } })

/-! ## U2 Dictionary Codec -/

/-- R122, R123, R124: LZ_ENCODE answers with the tokens of the matches at the cursors they lead through, at most one per
input byte, or, where they are more than the cap, with `CapacityExceeded`. So it completes, with `OK`, for every input
not longer than the cap. -/
def Obligations.LzEncodeTokenizesItsInput : Prop :=
  ∀ (s : State) (c : Command) (rest : List Command), s.commands = c :: rest →
    AtMost s.config.MAX_INPUT_LEN c.OPS.IN.length → AtMost s.config.WINDOW_MAX c.OPS.windowSize →
    ∃ toks, Tokenizes c.OPS.IN c.OPS.windowSize 0 toks ∧ toks.length ≤ c.OPS.IN.length ∧
      (WithinCap s.config toks.length →
        exec .lzEncode s = .next (afterAnswer s { STATUS := 0, RES := .tokens toks })) ∧
      (∀ k, s.config.OUTPUT_CAP = some k → k < toks.length →
        exec .lzEncode s = .next (afterAnswer s { STATUS := 5, RES := .info k }))

/-- R125, R29: the invariants of LZ_ENCODE, read off the tokens it answers with; `pos` is the cursor before token `k`. -/
def Obligations.LzEncodeTokensMeetTheInvariants : Prop :=
  ∀ (s : State) (c : Command) (rest : List Command) (OUT : List Token), s.commands = c :: rest →
    exec .lzEncode s = .next (afterAnswer s { STATUS := 0, RES := .tokens OUT }) →
    (OUT.map bytesOf).sum = c.OPS.IN.length ∧
    ∀ k tok pos, OUT[k]? = some tok → pos = ((OUT.take k).map bytesOf).sum →
      pos < c.OPS.IN.length ∧ pos + bytesOf tok ≤ c.OPS.IN.length ∧ tok.offset ≤ pos ∧
      (tok.literal = none → k + 1 = OUT.length ∧ pos + bytesOf tok = c.OPS.IN.length) ∧
      ((tok.offset = 0 ∧ tok.length = 0 ∧ ∃ b, tok.literal = some b) ∨
        (1 ≤ tok.offset ∧ tok.offset ≤ c.OPS.windowSize ∧ 1 ≤ tok.length ∧ tok.length ≤ c.OPS.windowSize))

/-- R121: the empty input encodes to no token, and no token decodes to the empty output, with `OK`. -/
def Obligations.EmptyInputGivesEmptyOutput : Prop :=
  ∀ (s : State) (c : Command) (rest : List Command), s.commands = c :: rest →
    (c.OPS.IN = [] → AtMost s.config.WINDOW_MAX c.OPS.windowSize →
      exec .lzEncode s = .next (afterAnswer s { STATUS := 0, RES := .tokens [] })) ∧
    (c.OPS.TOK = [] → exec .lzDecode s = .next (afterAnswer s { STATUS := 0, RES := .bytes [] }))

/-- R129, R130: LZ_DECODE of a stream whose tokens are all accepted answers with the bytes they append, each copied byte
at once a source for the next, or, where they are more than the cap, with `CapacityExceeded`. -/
def Obligations.LzDecodeRunsAcceptedStreams : Prop :=
  ∀ (s : State) (c : Command) (rest : List Command) (OUT : List Byte), s.commands = c :: rest →
    AtMost s.config.MAX_INPUT_LEN c.OPS.TOK.length → Decodes c.OPS.TOK.length 0 c.OPS.TOK [] OUT →
    (WithinCap s.config OUT.length → exec .lzDecode s = .next (afterAnswer s { STATUS := 0, RES := .bytes OUT })) ∧
    (∀ k, s.config.OUTPUT_CAP = some k → k < OUT.length →
      exec .lzDecode s = .next (afterAnswer s { STATUS := 5, RES := .info k }))

/-- R128, R215: after tokens that are all accepted, the next token that fails a check decides the error:
`MalformedToken(t)` for checks 1 to 3, and otherwise `OutOfRangeBackReference(t)` for check 4; but where the bytes of the
accepted tokens are more than the cap, the answer is `CapacityExceeded`, whatever tokens follow. -/
def Obligations.LzDecodeRejectsTokens : Prop :=
  ∀ (s : State) (c : Command) (rest : List Command) (pre post : List Token) (OUT : List Byte),
    s.commands = c :: rest → AtMost s.config.MAX_INPUT_LEN c.OPS.TOK.length → c.OPS.TOK = pre ++ post →
    Decodes c.OPS.TOK.length 0 pre [] OUT →
    (∀ tok more, post = tok :: more → WithinCap s.config OUT.length →
      (Malformed c.OPS.TOK.length pre.length tok →
        exec .lzDecode s = .next (afterAnswer s { STATUS := 1, RES := .info pre.length })) ∧
      (¬ Malformed c.OPS.TOK.length pre.length tok → OUT.length < tok.offset →
        exec .lzDecode s = .next (afterAnswer s { STATUS := 2, RES := .info pre.length }))) ∧
    (∀ k, s.config.OUTPUT_CAP = some k → k < OUT.length →
      exec .lzDecode s = .next (afterAnswer s { STATUS := 5, RES := .info k }))

/-- R133: for every input and window size, with no cap, decoding what LZ_ENCODE answers gives the input back. -/
def Obligations.LzDecodeInvertsLzEncode : Prop :=
  ∀ (cfg : Config) (ops : Operands) (IN : List Byte) (w : Nat), cfg.OUTPUT_CAP = none →
    AtMost cfg.MAX_INPUT_LEN IN.length → AtMost cfg.WINDOW_MAX w →
    ∃ toks, step (presenting cfg .lzEncode { ops with IN := IN, windowSize := w }) =
        .next (answered cfg { STATUS := 0, RES := .tokens toks }) ∧
      step (presenting cfg .lzDecode { ops with TOK := toks }) = .next (answered cfg { STATUS := 0, RES := .bytes IN })

/-- R81: `fmtNum(v)` is the decimal numeral of `v`, digits only, most significant first, with no leading zero. -/
def Obligations.NumeralsAreShortestDecimal : Prop :=
  fmtNum 0 = [0x30] ∧
  ∀ v, (∀ ch ∈ fmtNum v, 0x30 ≤ ch.toNat ∧ ch.toNat ≤ 0x39) ∧ fmtNum v ≠ [] ∧
    (fmtNum v).foldl (fun n ch => 10 * n + (ch.toNat - 0x30)) 0 = v ∧ (v ≠ 0 → (fmtNum v).head? ≠ some 0x30)

/-- R82: `fmt` is one-to-one. -/
def Obligations.TokenTextIsOneToOne : Prop := ∀ toks toks' : List Token, fmt toks = fmt toks' → toks = toks'

/-- R135: TOKEN_FORMAT answers with the text of any token sequence, or, where it is longer than the cap, with
`CapacityExceeded`. -/
def Obligations.TokenFormatWritesTheText : Prop :=
  ∀ (s : State) (c : Command) (rest : List Command), s.commands = c :: rest →
    AtMost s.config.MAX_INPUT_LEN c.OPS.TOK.length →
    (WithinCap s.config (fmt c.OPS.TOK).length →
      exec .tokenFormat s = .next (afterAnswer s { STATUS := 0, RES := .bytes (fmt c.OPS.TOK) })) ∧
    (∀ k, s.config.OUTPUT_CAP = some k → k < (fmt c.OPS.TOK).length →
      exec .tokenFormat s = .next (afterAnswer s { STATUS := 5, RES := .info k }))

/-- R138: with no cap and no `COUNT_BITS`, TOKEN_PARSE of what TOKEN_FORMAT answers gives the tokens back. -/
def Obligations.TokenParseInvertsTokenFormat : Prop :=
  ∀ (cfg : Config) (ops : Operands) (TOK : List Token), cfg.OUTPUT_CAP = none → cfg.COUNT_BITS = none →
    AtMost cfg.MAX_INPUT_LEN TOK.length → AtMost cfg.MAX_INPUT_LEN (fmt TOK).length →
    ∃ text, step (presenting cfg .tokenFormat { ops with TOK := TOK }) =
        .next (answered cfg { STATUS := 0, RES := .bytes text }) ∧
      step (presenting cfg .tokenParse { ops with TEXT := text }) =
        .next (answered cfg { STATUS := 0, RES := .tokens TOK })

/-- R83 (and R86 through `TokenFits`): TOKEN_PARSE answers by the longest valid prefix: the tokens of a valid text (or
`CapacityExceeded` where they are more than the cap), `TruncatedInput(len(TEXT))` for a text that a valid one continues,
and otherwise `MalformedToken(p)`, `p` the length of the longest prefix that a valid text continues. -/
def Obligations.TokenParseFollowsTheLongestValidStart : Prop :=
  ∀ (s : State) (c : Command) (rest : List Command), s.commands = c :: rest →
    AtMost s.config.MAX_INPUT_LEN c.OPS.TEXT.length →
    (∀ toks, (∀ t ∈ toks, TokenFits s.config t) → fmt toks = c.OPS.TEXT →
      (WithinCap s.config toks.length →
        exec .tokenParse s = .next (afterAnswer s { STATUS := 0, RES := .tokens toks })) ∧
      (∀ k, s.config.OUTPUT_CAP = some k → k < toks.length →
        exec .tokenParse s = .next (afterAnswer s { STATUS := 5, RES := .info k }))) ∧
    (ValidStart s.config c.OPS.TEXT → ¬ ValidText s.config c.OPS.TEXT →
      exec .tokenParse s = .next (afterAnswer s { STATUS := 3, RES := .info c.OPS.TEXT.length })) ∧
    (∀ p < c.OPS.TEXT.length, ValidStart s.config (c.OPS.TEXT.take p) →
      ¬ ValidStart s.config (c.OPS.TEXT.take (p + 1)) →
      exec .tokenParse s = .next (afterAnswer s { STATUS := 1, RES := .info p }))

/-! ## U3 Tree Builder -/

/-- R151: FREQ_COUNT answers with the number of occurrences of each byte value, and they add up to `len(IN)`. -/
def Obligations.FreqCountCountsEachByte : Prop :=
  ∀ (s : State) (c : Command) (rest : List Command), s.commands = c :: rest →
    AtMost s.config.MAX_INPUT_LEN c.OPS.IN.length →
    ∃ F, exec .freqCount s = .next (afterAnswer s { STATUS := 0, RES := .counts F }) ∧
      (∀ x, tableGet F x = c.OPS.IN.count x) ∧ totalCount F = c.OPS.IN.length

/-- R157: BUILD_TREE of the all-zero table is answered with `EmptyAlphabet(0)`. -/
def Obligations.AllZeroTableIsAnEmptyAlphabet : Prop :=
  ∀ (s : State) (c : Command) (rest : List Command), s.commands = c :: rest → (∀ x, tableGet c.OPS.F x = 0) →
    exec .buildTree s = .next (afterAnswer s { STATUS := 6, RES := .info 0 })

/-- R158: exactly one nonzero count, `f` for byte `x`, gives the internal root whose left child is the leaf `x` and whose
right child is absent; the code of `x` in that tree is `[0]`. -/
def Obligations.SingleSymbolTreeAndCode : Prop :=
  ∀ (s : State) (c : Command) (rest : List Command) (x : Byte) (f : Nat), s.commands = c :: rest → 0 < f →
    (∀ y, tableGet c.OPS.F y = if y = x then f else 0) → CountsFit s.config c.OPS.F →
    exec .buildTree s =
      .next (afterAnswer s { STATUS := 0, RES := .tree (.onlyLeft none f (.leaf (some x) f)) }) ∧
    ∀ (s' : State) (c' : Command) (rest' : List Command), s'.commands = c' :: rest' →
      c'.OPS.T = .onlyLeft none f (.leaf (some x) f) →
      ∃ C, exec .codeTable s' = .next (afterAnswer s' { STATUS := 0, RES := .codes C }) ∧
        ∀ y, tableGet C y = if y = x then some [false] else none

/-- R159: BUILD_TREE of a table with a nonzero count answers with one well-formed tree; its leaves are exactly the
symbols with `F[s] > 0`, each with its count. -/
def Obligations.BuildTreeAnswersAWellFormedTree : Prop :=
  ∀ (s : State) (c : Command) (rest : List Command), s.commands = c :: rest → (∃ x, 0 < tableGet c.OPS.F x) →
    CountsFit s.config c.OPS.F →
    ∃ T, exec .buildTree s = .next (afterAnswer s { STATUS := 0, RES := .tree T }) ∧ WellFormedTree T ∧
      (∀ x, (∃ p, LeafAt T p x) ↔ 0 < tableGet c.OPS.F x) ∧
      ∀ p n x, nodeAt T p = some n → n.left = none → n.right = none → n.symbol = some x →
        n.frequency = tableGet c.OPS.F x

/-- R160: the size and the depth of the tree BUILD_TREE answers with, and the frequency of its root. -/
def Obligations.TreeSizeAndDepth : Prop :=
  ∀ (s : State) (c : Command) (rest : List Command) (T : Node), s.commands = c :: rest →
    exec .buildTree s = .next (afterAnswer s { STATUS := 0, RES := .tree T }) →
    T.frequency = totalCount c.OPS.F ∧ nodeCount T ≤ 511 ∧
    (2 ≤ distinctSymbols c.OPS.F →
      (leaves T).length = distinctSymbols c.OPS.F ∧ nodeCount T = 2 * distinctSymbols c.OPS.F - 1 ∧ TwoChildren T ∧
      ∀ p x, LeafAt T p x → p.length ≤ distinctSymbols c.OPS.F - 1) ∧
    (distinctSymbols c.OPS.F = 1 → nodeCount T = 2 ∧ ∀ p x, LeafAt T p x → p.length = 1)

/-- R161, first half: the cost of the tree BUILD_TREE answers with is the sum of the frequencies of its internal nodes. -/
def Obligations.TreeCostIsTheInternalFrequencies : Prop :=
  ∀ (s : State) (c : Command) (rest : List Command) (T : Node), s.commands = c :: rest →
    exec .buildTree s = .next (afterAnswer s { STATUS := 0, RES := .tree T }) → treeCost T = internalFrequencies T

/-- R161, second half: for two symbols or more, no prefix-free code of the symbols has a lesser cost than the tree
BUILD_TREE answers with. -/
def Obligations.TreeCostIsLeast : Prop :=
  ∀ (s : State) (c : Command) (rest : List Command) (T : Node), s.commands = c :: rest →
    exec .buildTree s = .next (afterAnswer s { STATUS := 0, RES := .tree T }) → 2 ≤ distinctSymbols c.OPS.F →
    ∀ code : Byte → List Bit,
      (∀ x y, 0 < tableGet c.OPS.F x → 0 < tableGet c.OPS.F y → x ≠ y → ¬ code x <+: code y) →
      treeCost T ≤ (symbols.map fun x => tableGet c.OPS.F x * (code x).length).sum

/-- R153: an entry put into a queue in key order, under a new sequence number, leaves it in key order with that entry
added; and `popMin` takes the entry whose key is less than every other's. -/
def Obligations.QueueHandsOutTheLeastKey : Prop :=
  (∀ (e : Entry) (Q : List Entry), Q.Pairwise KeyBefore → (∀ f ∈ Q, f.seq ≠ e.seq) →
    (enqueue e Q).Pairwise KeyBefore ∧ (enqueue e Q).Perm (e :: Q)) ∧
  ∀ (a : Entry) (Q Q' : List Entry), Q.Pairwise KeyBefore → popMin Q = .ret (a, Q') →
    Q.Perm (a :: Q') ∧ Q'.Pairwise KeyBefore ∧ ∀ b ∈ Q', KeyBefore a b

/-! ## U4 Entropy Codec -/

/-- R32: the tree check is WF1, WF2 and WF3. -/
def Obligations.TreeCheckIsWellFormedness : Prop := ∀ T : Node, treeWF T = true ↔ WellFormedTree T

/-- R181, R192: a tree that is not well formed is answered with `CorruptTree(0)` by CODE_TABLE and ENT_DECODE, whatever
the bits. -/
def Obligations.CorruptTreesAreAnswered : Prop :=
  ∀ (s : State) (c : Command) (rest : List Command), s.commands = c :: rest → ¬ WellFormedTree c.OPS.T →
    exec .codeTable s = .next (afterAnswer s { STATUS := 7, RES := .info 0 }) ∧
    (AtMost s.config.MAX_INPUT_LEN c.OPS.BITS.length →
      exec .entDecode s = .next (afterAnswer s { STATUS := 7, RES := .info 0 }))

/-- R182, R183: CODE_TABLE of a well-formed tree answers with the table of the paths to its leaves, and of nothing else. -/
def Obligations.CodeTableHoldsThePaths : Prop :=
  ∀ (s : State) (c : Command) (rest : List Command), s.commands = c :: rest → WellFormedTree c.OPS.T →
    ∃ C, exec .codeTable s = .next (afterAnswer s { STATUS := 0, RES := .codes C }) ∧ IsCodeTableOf c.OPS.T C

/-- R185: the codes of any table CODE_TABLE answers with are prefix-free (and, R184, none is empty). -/
def Obligations.CodesArePrefixFree : Prop :=
  ∀ (s : State) (c : Command) (rest : List Command) (C : CodeTable), s.commands = c :: rest →
    exec .codeTable s = .next (afterAnswer s { STATUS := 0, RES := .codes C }) → PrefixFree C

/-- R184: every code has at least 1 bit; the codes of a tree from BUILD_TREE have at most `max(1, k - 1)` bits, so at
most 255. -/
def Obligations.CodeLengthsAreBounded : Prop :=
  (∀ (s : State) (c : Command) (rest : List Command) (C : CodeTable), s.commands = c :: rest →
    exec .codeTable s = .next (afterAnswer s { STATUS := 0, RES := .codes C }) →
    ∀ x p, tableGet C x = some p → 1 ≤ p.length) ∧
  ∀ (cfg : Config) (ops : Operands) (T : Node),
    step (presenting cfg .buildTree ops) = .next (answered cfg { STATUS := 0, RES := .tree T }) →
    ∃ C, step (presenting cfg .codeTable { ops with T := T }) =
        .next (answered cfg { STATUS := 0, RES := .codes C }) ∧
      ∀ x p, tableGet C x = some p → p.length ≤ max 1 (distinctSymbols ops.F - 1) ∧ p.length ≤ 255

/-- R187, R190: ENT_ENCODE of bytes that all have entries answers with their codes joined in input order, whatever the
entries, as many bits as the codes have; or, where they are more than the cap, with `CapacityExceeded`. -/
def Obligations.EntEncodeJoinsTheCodes : Prop :=
  ∀ (s : State) (c : Command) (rest : List Command), s.commands = c :: rest →
    AtMost s.config.MAX_INPUT_LEN c.OPS.IN.length → (∀ x ∈ c.OPS.IN, tableGet c.OPS.C x ≠ none) →
    (codedBits c.OPS.C c.OPS.IN).length = codedLength c.OPS.C c.OPS.IN ∧
    (WithinCap s.config (codedLength c.OPS.C c.OPS.IN) →
      exec .entEncode s = .next (afterAnswer s { STATUS := 0, RES := .bits (codedBits c.OPS.C c.OPS.IN) })) ∧
    (∀ k, s.config.OUTPUT_CAP = some k → k < codedLength c.OPS.C c.OPS.IN →
      exec .entEncode s = .next (afterAnswer s { STATUS := 5, RES := .info k }))

/-- R188, R215: the first byte with no entry is answered with `UnknownSymbol(j)`, unless the bits before it already pass
the cap. -/
def Obligations.UnknownSymbolsAreAnswered : Prop :=
  ∀ (s : State) (c : Command) (rest : List Command) (pre post : List Byte) (x : Byte), s.commands = c :: rest →
    AtMost s.config.MAX_INPUT_LEN c.OPS.IN.length → c.OPS.IN = pre ++ x :: post →
    (∀ y ∈ pre, tableGet c.OPS.C y ≠ none) → tableGet c.OPS.C x = none →
    (WithinCap s.config (codedLength c.OPS.C pre) →
      exec .entEncode s = .next (afterAnswer s { STATUS := 4, RES := .info pre.length })) ∧
    (∀ k, s.config.OUTPUT_CAP = some k → k < codedLength c.OPS.C pre →
      exec .entEncode s = .next (afterAnswer s { STATUS := 5, RES := .info k }))

/-- R190: for an input whose counts are `F`, the number of bits under the table of `BUILD_TREE(F)` is the cost of the
tree. -/
def Obligations.CodedLengthIsTheTreeCost : Prop :=
  ∀ (cfg : Config) (ops : Operands) (xs : List Byte) (T : Node) (C : CodeTable),
    (∀ y, tableGet ops.F y = xs.count y) →
    step (presenting cfg .buildTree ops) = .next (answered cfg { STATUS := 0, RES := .tree T }) →
    step (presenting cfg .codeTable { ops with T := T }) = .next (answered cfg { STATUS := 0, RES := .codes C }) →
    codedLength C xs = treeCost T

/-- R191: ENT_DECODE of bits that spell `xs` in the codes of a well-formed tree answers with `xs`, or, where they are
more than the cap, with `CapacityExceeded`. -/
def Obligations.EntDecodeReadsTheCodes : Prop :=
  ∀ (s : State) (c : Command) (rest : List Command) (xs : List Byte), s.commands = c :: rest →
    AtMost s.config.MAX_INPUT_LEN c.OPS.BITS.length → WellFormedTree c.OPS.T → Spells c.OPS.T xs c.OPS.BITS →
    (WithinCap s.config xs.length → exec .entDecode s = .next (afterAnswer s { STATUS := 0, RES := .bytes xs })) ∧
    (∀ k, s.config.OUTPUT_CAP = some k → k < xs.length →
      exec .entDecode s = .next (afterAnswer s { STATUS := 5, RES := .info k }))

/-- R194, R215: when the bits run out with the walker inside a code, ENT_DECODE answers with
`TruncatedInput(len(BITS))`; when they run out with the walker at the root, the decode ends cleanly; but where the bytes
decoded before are more than the cap, the answer is `CapacityExceeded`. -/
def Obligations.BitsThatEndInsideACode : Prop :=
  ∀ (s : State) (c : Command) (rest : List Command) (xs : List Byte) (bits p : List Bit) (n : Node),
    s.commands = c :: rest → AtMost s.config.MAX_INPUT_LEN c.OPS.BITS.length → WellFormedTree c.OPS.T →
    c.OPS.BITS = bits ++ p → Spells c.OPS.T xs bits → nodeAt c.OPS.T p = some n →
    (n.left ≠ none ∨ n.right ≠ none) →
    (WithinCap s.config xs.length →
      (p ≠ [] → exec .entDecode s = .next (afterAnswer s { STATUS := 3, RES := .info c.OPS.BITS.length })) ∧
      (p = [] → exec .entDecode s = .next (afterAnswer s { STATUS := 0, RES := .bytes xs }))) ∧
    (∀ k, s.config.OUTPUT_CAP = some k → k < xs.length →
      exec .entDecode s = .next (afterAnswer s { STATUS := 5, RES := .info k }))

/-- R193, R215: a bit that selects an absent child of an internal node is answered with `CorruptTree(j)`, `j` its index,
whatever bits follow; but where the bytes decoded before are more than the cap, the answer is `CapacityExceeded`. -/
def Obligations.BitsThatSelectAnAbsentChild : Prop :=
  ∀ (s : State) (c : Command) (rest : List Command) (xs : List Byte) (bits p more : List Bit) (b : Bit) (n : Node),
    s.commands = c :: rest → AtMost s.config.MAX_INPUT_LEN c.OPS.BITS.length → WellFormedTree c.OPS.T →
    c.OPS.BITS = bits ++ p ++ b :: more → Spells c.OPS.T xs bits → nodeAt c.OPS.T p = some n →
    (n.left ≠ none ∨ n.right ≠ none) → (if b then n.right else n.left) = none →
    (WithinCap s.config xs.length →
      exec .entDecode s = .next (afterAnswer s { STATUS := 7, RES := .info (bits.length + p.length) })) ∧
    (∀ k, s.config.OUTPUT_CAP = some k → k < xs.length →
      exec .entDecode s = .next (afterAnswer s { STATUS := 5, RES := .info k }))

/-- R196: ENT_DECODE of no bits with a well-formed tree, and ENT_ENCODE of the empty input with any table, answer with
the empty output and `OK`. -/
def Obligations.EmptyBitsAndEmptyInput : Prop :=
  ∀ (s : State) (c : Command) (rest : List Command), s.commands = c :: rest →
    (c.OPS.BITS = [] → WellFormedTree c.OPS.T →
      exec .entDecode s = .next (afterAnswer s { STATUS := 0, RES := .bytes [] })) ∧
    (c.OPS.IN = [] → exec .entEncode s = .next (afterAnswer s { STATUS := 0, RES := .bits [] }))

/-- R197, its general half: for every well-formed tree and every input whose bytes all have codes in it, ENT_DECODE of
what ENT_ENCODE answers gives the input back. -/
def Obligations.EntropyRoundTripForAnyTree : Prop :=
  ∀ (cfg : Config) (ops : Operands) (T : Node) (xs : List Byte), cfg.OUTPUT_CAP = none → cfg.MAX_INPUT_LEN = none →
    WellFormedTree T → (∀ x ∈ xs, ∃ p, LeafAt T p x) →
    ∃ C bits, step (presenting cfg .codeTable { ops with T := T }) =
        .next (answered cfg { STATUS := 0, RES := .codes C }) ∧
      step (presenting cfg .entEncode { ops with IN := xs, C := C }) =
        .next (answered cfg { STATUS := 0, RES := .bits bits }) ∧
      step (presenting cfg .entDecode { ops with BITS := bits, T := T }) =
        .next (answered cfg { STATUS := 0, RES := .bytes xs })

/-- R197, its first half: for every non-empty input, counting, building, deriving the codes, encoding and decoding gives
the input back. -/
def Obligations.EntropyRoundTrip : Prop :=
  ∀ (cfg : Config) (ops : Operands) (xs : List Byte), cfg.OUTPUT_CAP = none → cfg.MAX_INPUT_LEN = none →
    cfg.COUNT_BITS = none → xs ≠ [] →
    ∃ F T C bits,
      step (presenting cfg .freqCount { ops with IN := xs }) = .next (answered cfg { STATUS := 0, RES := .counts F }) ∧
      step (presenting cfg .buildTree { ops with F := F }) = .next (answered cfg { STATUS := 0, RES := .tree T }) ∧
      step (presenting cfg .codeTable { ops with T := T }) = .next (answered cfg { STATUS := 0, RES := .codes C }) ∧
      step (presenting cfg .entEncode { ops with IN := xs, C := C }) =
        .next (answered cfg { STATUS := 0, RES := .bits bits }) ∧
      step (presenting cfg .entDecode { ops with BITS := bits, T := T }) =
        .next (answered cfg { STATUS := 0, RES := .bytes xs })

/-! ## Step machines, the caller, several instances -/

/-- R110: the step machine of FIND_MATCH, one comparison a tick, does the command within its bound. -/
def Obligations.FindMatchStepMachine : Prop := StepMachineDoes .findMatch

/-- R124, R134: the step machines of LZ_ENCODE, one token a tick, and of LZ_DECODE, one check, copied byte or literal a
tick, do their commands within their bounds. -/
def Obligations.DictionaryStepMachines : Prop := StepMachineDoes .lzEncode ∧ StepMachineDoes .lzDecode

/-- R135, R136, R137, R251: the step machines of TOKEN_FORMAT, one append a tick, and of TOKEN_PARSE, one byte read a
tick and then one append a tick, do their commands within their bounds. -/
def Obligations.TokenTextStepMachines : Prop := StepMachineDoes .tokenFormat ∧ StepMachineDoes .tokenParse

/-- R150, R164: the step machines of FREQ_COUNT and BUILD_TREE do their commands within their bounds. -/
def Obligations.TreeBuilderStepMachines : Prop := StepMachineDoes .freqCount ∧ StepMachineDoes .buildTree

/-- R199: the step machines of CODE_TABLE, ENT_ENCODE and ENT_DECODE do their commands within their bounds. -/
def Obligations.EntropyStepMachines : Prop :=
  StepMachineDoes .codeTable ∧ StepMachineDoes .entEncode ∧ StepMachineDoes .entDecode

/-- R61: commands are answered in the order they are issued, one answer each, each the answer the command gets alone on
a newly built instance of the same configuration: when each is issued after the answer to the one before, and when
commands are all issued first, behind any that wait already (log 1). -/
def Obligations.SessionsAnswerInIssueOrder : Prop :=
  (∀ (s : State) (cs : List Command), s.work = none → s.commands = [] →
    ∃ rs : List Response,
      session s cs = .next { config := s.config, commands := [], work := none, results := s.results ++ rs } ∧
      rs.length = cs.length ∧
      ∀ (k : Nat) (c : Command) (r : Response), cs[k]? = some c → rs[k]? = some r →
        step { config := s.config, commands := [c], work := none, results := [] } = .next (answered s.config r)) ∧
  ∀ (s : State) (cs : List Command), s.work = none →
    ∃ rs : List Response,
      steps (s.commands.length + cs.length) (issueAll cs s) =
        .next { config := s.config, commands := [], work := none, results := s.results ++ rs } ∧
      rs.length = s.commands.length + cs.length ∧
      ∀ (k : Nat) (c : Command) (r : Response), (s.commands ++ cs)[k]? = some c → rs[k]? = some r →
        step { config := s.config, commands := [c], work := none, results := [] } = .next (answered s.config r)

/-- R62, R224: two idle instances may step in either order with the same outcome, and neither changes the other. For an
index at which no agent stands, that its step changes nothing is the model's choice (log 17). -/
def Obligations.InstancesDoNotInterfere : Prop :=
  ∀ (sys : System) (j k : Nat), j ≠ k → (∀ s ∈ sys, s.work = none) →
    ∃ a b t, stepAgent j sys = .next a ∧ stepAgent k a = .next t ∧ stepAgent k sys = .next b ∧
      stepAgent j b = .next t ∧ a[k]? = sys[k]? ∧ b[j]? = sys[j]?

/-! ## Which tree BUILD_TREE answers with -/

/-- R152 to R156: which tree BUILD_TREE answers with: leaves numbered in ascending order of the byte value, the two
least keys merged again and again, the first taken on the left, the merged node under the next number; and these rules
give one tree only. -/
def Obligations.BuildTreeAnswersTheTreeOfTheMerges : Prop :=
  ∀ (s : State) (c : Command) (rest : List Command), s.commands = c :: rest → (∃ x, 0 < tableGet c.OPS.F x) →
    CountsFit s.config c.OPS.F →
    ∃ T, exec .buildTree s = .next (afterAnswer s { STATUS := 0, RES := .tree T }) ∧ IsTreeOf c.OPS.F T ∧
      ∀ T', IsTreeOf c.OPS.F T' → T' = T
end

