-- ==== Sys2Proof/Laws/State.lean ====
section
/-!
SUPPORT. The small lemmas of the state updates: one per field per update, so that no proof unfolds one.
-/

namespace Sys2Proof.Machine

@[simp] theorem State.answer_config (s : State) (r : Response) : (s.answer r).config = s.config := rfl
@[simp] theorem State.answer_commands (s : State) (r : Response) : (s.answer r).commands = s.commands.tail := rfl
@[simp] theorem State.answer_work (s : State) (r : Response) : (s.answer r).work = none := rfl
@[simp] theorem State.answer_results (s : State) (r : Response) : (s.answer r).results = s.results ++ [r] := rfl

@[simp] theorem State.build_config (cfg : Config) : (State.build cfg).config = cfg := rfl
@[simp] theorem State.build_commands (cfg : Config) : (State.build cfg).commands = [] := rfl
@[simp] theorem State.build_work (cfg : Config) : (State.build cfg).work = none := rfl
@[simp] theorem State.build_results (cfg : Config) : (State.build cfg).results = [] := rfl

@[simp] theorem issue_config (c : Command) (s : State) : (issue c s).config = s.config := rfl
@[simp] theorem issue_commands (c : Command) (s : State) : (issue c s).commands = s.commands ++ [c] := rfl
@[simp] theorem issue_work (c : Command) (s : State) : (issue c s).work = s.work := rfl
@[simp] theorem issue_results (c : Command) (s : State) : (issue c s).results = s.results := rfl

@[simp] theorem withFetchWord_config (s : State) (nbits w : Nat) : (s.withFetchWord nbits w).config = s.config := rfl
@[simp] theorem withFetchWord_work (s : State) (nbits w : Nat) : (s.withFetchWord nbits w).work = none := rfl
@[simp] theorem withFetchWord_results (s : State) (nbits w : Nat) : (s.withFetchWord nbits w).results = s.results := rfl
@[simp] theorem withFetchWord_commands (s : State) (nbits w : Nat) :
    (s.withFetchWord nbits w).commands = { CMD := tableWord nbits w, OPS := s.frontOperands } :: s.commands.tail := rfl

@[simp] theorem Response.ok_STATUS (v : ResultBundle) : (Response.ok v).STATUS = 0 := rfl
@[simp] theorem Response.ok_RES (v : ResultBundle) : (Response.ok v).RES = v := rfl
@[simp] theorem Response.error_STATUS (e : Err) (n : Nat) : (Response.error e n).STATUS = e.code := rfl
@[simp] theorem Response.error_RES (e : Err) (n : Nat) : (Response.error e n).RES = .info n := rfl

@[simp] theorem Node.make_symbol (x : Option Byte) (f : Nat) (l r : Option Node) : (Node.make x f l r).symbol = x := by
  cases l <;> cases r <;> rfl
@[simp] theorem Node.make_frequency (x : Option Byte) (f : Nat) (l r : Option Node) :
    (Node.make x f l r).frequency = f := by cases l <;> cases r <;> rfl
@[simp] theorem Node.make_left (x : Option Byte) (f : Nat) (l r : Option Node) : (Node.make x f l r).left = l := by
  cases l <;> cases r <;> rfl
@[simp] theorem Node.make_right (x : Option Byte) (f : Nat) (l r : Option Node) : (Node.make x f l r).right = r := by
  cases l <;> cases r <;> rfl

/-- A node is the record of its four fields (10_state.md R31). -/
theorem Node.make_fields (n : Node) : Node.make n.symbol n.frequency n.left n.right = n := by cases n <;> rfl

end Sys2Proof.Machine
end

