-- ==== Sys2Proof/Laws/Ops.lean ====
section
/-!
SUPPORT. One lemma per shared operation, saying once what it can do: sequencing, buffer reads and appends, loops, the
256-entry tables, the frame every command runs in.
-/

namespace Sys2Proof.Machine

variable {α β γ ρ ι : Type}

@[simp] theorem Run.ret_bind (v : α) (k : α → Run β) : (Run.ret v).bind k = k v := rfl
@[simp] theorem Run.raise_bind (e : Err) (n : Nat) (k : α → Run β) : (Run.raise e n).bind k = .raise e n := rfl
@[simp] theorem Run.stop_bind (f : Fault) (k : α → Run β) : (Run.stop f : Run α).bind k = .stop f := rfl
@[simp] theorem Run.bind_ret (x : Run α) : x.bind .ret = x := by cases x <;> rfl

theorem Run.bind_assoc (x : Run α) (k : α → Run β) (l : β → Run γ) :
    (x.bind k).bind l = x.bind fun v => (k v).bind l := by cases x <;> rfl

@[simp] theorem Run.map_ret (f : α → β) (v : α) : (Run.ret v).map f = .ret (f v) := rfl
@[simp] theorem Run.map_raise (f : α → β) (e : Err) (n : Nat) : (Run.raise e n).map f = .raise e n := rfl
@[simp] theorem Run.map_stop (f : α → β) (x : Fault) : (Run.stop x : Run α).map f = .stop x := rfl

theorem Run.bind_eq_ret {x : Run α} {k : α → Run β} {b : β} :
    x.bind k = .ret b ↔ ∃ a, x = .ret a ∧ k a = .ret b := by
  cases x <;> simp [Run.bind]

theorem Run.bind_eq_raise {x : Run α} {k : α → Run β} {e : Err} {n : Nat} :
    x.bind k = .raise e n ↔ x = .raise e n ∨ ∃ a, x = .ret a ∧ k a = .raise e n := by
  cases x <;> simp [Run.bind]

theorem Run.bind_eq_stop {x : Run α} {k : α → Run β} {f : Fault} :
    x.bind k = .stop f ↔ x = .stop f ∨ ∃ a, x = .ret a ∧ k a = .stop f := by
  cases x <;> simp [Run.bind]

theorem Run.map_eq_ret {f : α → β} {x : Run α} {b : β} : x.map f = .ret b ↔ ∃ a, x = .ret a ∧ f a = b := by
  cases x <;> simp [Run.map, Run.bind]

theorem Run.map_eq_raise {f : α → β} {x : Run α} {e : Err} {n : Nat} :
    x.map f = .raise e n ↔ x = .raise e n := by cases x <;> simp [Run.map, Run.bind]

theorem Run.map_eq_stop {f : α → β} {x : Run α} {y : Fault} : x.map f = .stop y ↔ x = .stop y := by
  cases x <;> simp [Run.map, Run.bind]

/-! ## Buffers -/

theorem memRead_eq_ret {B : List α} {k : Nat} {v : α} : memRead B k = .ret v ↔ B[k]? = some v := by
  unfold memRead; cases B[k]? <;> simp

/-- A read inside the buffer gives the element and nothing else (00_scope.md R12). -/
theorem memRead_of_lt {B : List α} {k : Nat} (h : k < B.length) : memRead B k = .ret B[k] := by
  simp [memRead, List.getElem?_eq_getElem h]

/-- A read outside the buffer stops the model (00_scope.md R12). -/
theorem memRead_of_ge {B : List α} {k : Nat} (h : B.length ≤ k) : memRead B k = .stop .readOutOfRange := by
  simp [memRead, List.getElem?_eq_none h]

theorem memRead_ne_raise {B : List α} {k : Nat} {e : Err} {n : Nat} : memRead B k ≠ .raise e n := by
  unfold memRead; cases B[k]? <;> simp

theorem capReached_iff {cfg : Config} {len : Nat} :
    capReached cfg len = true ↔ ∃ c, cfg.OUTPUT_CAP = some c ∧ c ≤ len := by
  unfold capReached; cases cfg.OUTPUT_CAP <;> simp

/-- Everything an append can do: append within the cap, or raise at it (20_memory.md R60). -/
theorem append_cases (cfg : Config) (OUT : List α) (v : α) :
    (capReached cfg OUT.length = false ∧ append cfg OUT v = .ret (OUT ++ [v])) ∨
    (capReached cfg OUT.length = true ∧ append cfg OUT v = .raise .capacityExceeded OUT.length) := by
  unfold append; cases h : capReached cfg OUT.length <;> simp

theorem append_eq_ret {cfg : Config} {OUT OUT' : List α} {v : α} :
    append cfg OUT v = .ret OUT' ↔ capReached cfg OUT.length = false ∧ OUT' = OUT ++ [v] := by
  unfold append; cases h : capReached cfg OUT.length <;> simp [eq_comm]

/-- Read after append: the new element stands at the old length, and every earlier element reads as before. -/
theorem append_reads {cfg : Config} {OUT OUT' : List α} {v : α} (h : append cfg OUT v = .ret OUT') :
    OUT'[OUT.length]? = some v ∧ ∀ k < OUT.length, OUT'[k]? = OUT[k]? := by
  obtain ⟨-, rfl⟩ := append_eq_ret.mp h
  exact ⟨by simp, fun k hk => List.getElem?_append_left hk⟩

/-! ## Loops -/

@[simp] theorem forEach_nil (r : ρ) (body : ρ → ι → Run ρ) : forEach [] r body = .ret r := rfl
@[simp] theorem forEach_cons (x : ι) (xs : List ι) (r : ρ) (body : ρ → ι → Run ρ) :
    forEach (x :: xs) r body = (body r x).bind fun r' => forEach xs r' body := rfl

theorem forEach_append (xs ys : List ι) (r : ρ) (body : ρ → ι → Run ρ) :
    forEach (xs ++ ys) r body = (forEach xs r body).bind fun r' => forEach ys r' body := by
  induction xs generalizing r with
  | nil => rfl
  | cons x xs ih => simp [Run.bind_assoc, ih]

/-- A property of the registers that every iteration keeps holds at the end of a `for`. -/
theorem forEach_keeps {P : ρ → Prop} {xs : List ι} {body : ρ → ι → Run ρ}
    (hstep : ∀ r x r', P r → x ∈ xs → body r x = .ret r' → P r') {r r' : ρ} (hr : P r)
    (h : forEach xs r body = .ret r') : P r' := by
  induction xs generalizing r with
  | nil => cases h; exact hr
  | cons x xs ih =>
    obtain ⟨m, hm, h⟩ := Run.bind_eq_ret.mp h
    exact ih (fun r y r' hP hy => hstep r y r' hP (List.mem_cons_of_mem _ hy)) (hstep r x m hr List.mem_cons_self hm) h

@[simp] theorem range_zero_zero : range 0 0 = [] := rfl

theorem mem_range {a b i : Nat} : i ∈ range a b ↔ a ≤ i ∧ i < b := by
  simp only [range, List.mem_range'_1]; omega

@[simp] theorem length_range (a b : Nat) : (range a b).length = b - a := by simp [range]

theorem range_succ {a b : Nat} (h : a < b) : range a b = a :: range (a + 1) b := by
  simp only [range]
  rw [show b - a = (b - (a + 1)) + 1 by omega, List.range'_succ]

theorem range_of_le {a b : Nat} (h : b ≤ a) : range a b = [] := by
  simp [range, Nat.sub_eq_zero_of_le h]

/-- `for j in [0, len(xs)): ... xs[j] ...` goes through the elements of `xs`. -/
theorem forEach_range_memRead (B : List α) (r : ρ) (body : ρ → α → Run ρ) :
    forEach (range 0 B.length) r (fun r j => (memRead B j).bind (body r)) = forEach B r body := by
  suffices h : ∀ (xs pre : List α) (r : ρ),
      forEach (range pre.length (pre ++ xs).length) r (fun r j => (memRead (pre ++ xs) j).bind (body r))
        = forEach xs r body by simpa using h B [] r
  intro xs
  induction xs with
  | nil => intro pre r; simp [range]
  | cons x xs ih =>
    intro pre r
    rw [range_succ (by simp), forEach_cons, memRead_eq_ret.mpr (show (pre ++ x :: xs)[pre.length]? = some x by simp)]
    simp only [Run.ret_bind, forEach_cons]
    congr 1; funext r'
    simpa using ih (pre ++ [x]) r'

/-- A `while` whose condition is false does nothing. -/
theorem whileLoop_done {bound : Nat} {cond : ρ → Bool} {body : ρ → Run ρ} {r : ρ} (h : cond r = false) :
    whileLoop bound cond body r = .ret r := by
  cases bound <;> simp [whileLoop, h]

/-- A `while` whose condition is true runs its body and goes on, while its bound lasts. -/
theorem whileLoop_goes {bound : Nat} {cond : ρ → Bool} {body : ρ → Run ρ} {r : ρ} (h : cond r = true) :
    whileLoop (bound + 1) cond body r = (body r).bind (whileLoop bound cond body) := by
  simp [whileLoop, h]

/-- A `while` that ends with `r'` ends with its condition false, and with every property its body keeps. -/
theorem whileLoop_keeps {P : ρ → Prop} {cond : ρ → Bool} {body : ρ → Run ρ}
    (hstep : ∀ r r', P r → cond r = true → body r = .ret r' → P r') {bound : Nat} {r r' : ρ} (hr : P r)
    (h : whileLoop bound cond body r = .ret r') : P r' ∧ cond r' = false := by
  induction bound generalizing r with
  | zero =>
    cases hc : cond r <;> simp only [whileLoop, hc] at h
    · cases h; exact ⟨hr, hc⟩
    · simp at h
  | succ bound ih =>
    cases hc : cond r
    · rw [whileLoop_done hc] at h; cases h; exact ⟨hr, hc⟩
    · rw [whileLoop_goes hc] at h
      obtain ⟨m, hm, h⟩ := Run.bind_eq_ret.mp h
      exact ih (hstep r m hr hc hm) h

/-- A `while` with a measure that its body decreases, and that its bound covers, never passes its bound: it stops only
if its body stops. -/
theorem whileLoop_stops {P : ρ → Prop} {cond : ρ → Bool} {body : ρ → Run ρ} {measure : ρ → Nat}
    (hstep : ∀ r r', P r → cond r = true → body r = .ret r' → P r' ∧ measure r' < measure r)
    (hpos : ∀ r, P r → cond r = true → 0 < measure r)
    (hbody : ∀ r f, P r → cond r = true → body r ≠ .stop f) {bound : Nat} {r : ρ} (hr : P r)
    (hb : measure r ≤ bound) (f : Fault) : whileLoop bound cond body r ≠ .stop f := by
  induction bound generalizing r with
  | zero =>
    cases hc : cond r
    · simp [whileLoop, hc]
    · have := hpos r hr hc; omega
  | succ bound ih =>
    cases hc : cond r
    · simp [whileLoop_done hc]
    · rw [whileLoop_goes hc]
      intro h
      rcases Run.bind_eq_stop.mp h with h | ⟨m, hm, h⟩
      · exact hbody r f hr hc h
      · obtain ⟨hP, hlt⟩ := hstep r m hr hc hm
        exact ih hP (by omega) h

/-- Everything an append of several elements can do: append them all, when they are within the cap, ... -/
theorem appendAll_within (cfg : Config) (vs : List α) (OUT : List α)
    (h : ∀ k, cfg.OUTPUT_CAP = some k → OUT.length + vs.length ≤ k) :
    appendAll cfg OUT vs = .ret (OUT ++ vs) := by
  induction vs generalizing OUT with
  | nil => simp [appendAll]
  | cons v vs ih =>
    have hc : capReached cfg OUT.length = false := by
      cases hc : capReached cfg OUT.length with
      | false => rfl
      | true =>
        obtain ⟨k, hk, hle⟩ := capReached_iff.mp hc
        have := h k hk; simp at this; omega
    have hrest : ∀ k, cfg.OUTPUT_CAP = some k → (OUT ++ [v]).length + vs.length ≤ k := by
      intro k hk; have := h k hk; simp at this ⊢; omega
    have := ih (OUT ++ [v]) hrest
    simp only [appendAll] at this
    rw [appendAll, forEach_cons, append_eq_ret.mpr ⟨hc, rfl⟩, Run.ret_bind, this]
    simp

/-- ... or raise at the cap, which is the length of the output at the append that fails (20_memory.md R60;
60_exceptions.md R210). -/
theorem appendAll_past {cfg : Config} {k : Nat} (hk : cfg.OUTPUT_CAP = some k) (vs : List α) (OUT : List α)
    (hle : OUT.length ≤ k) (h : k < OUT.length + vs.length) :
    appendAll cfg OUT vs = .raise .capacityExceeded k := by
  induction vs generalizing OUT with
  | nil => simp at h; omega
  | cons v vs ih =>
    rw [appendAll, forEach_cons]
    rcases append_cases cfg OUT v with ⟨hc, ha⟩ | ⟨hc, ha⟩
    · have hlt : OUT.length < k := by
        rcases Nat.lt_or_ge OUT.length k with h | h
        · exact h
        · rw [capReached_iff.mpr ⟨k, hk, h⟩] at hc; cases hc
      have := ih (OUT ++ [v]) (by simp; omega) (by simp at h ⊢; omega)
      rw [ha, Run.ret_bind]; exact this
    · obtain ⟨k', hk', hk''⟩ := capReached_iff.mp hc
      obtain rfl : k = k' := Option.some.inj (hk.symm.trans hk')
      rw [ha, Run.raise_bind, Nat.le_antisymm hle hk'']

/-! ## Tables -/

@[simp] theorem tableGet_tableSet_self (t : Vector α 256) (x : Byte) (v : α) : tableGet (tableSet t x v) x = v := by
  simp [tableGet, tableSet]

theorem tableGet_tableSet_ne {t : Vector α 256} {x y : Byte} {v : α} (h : x ≠ y) :
    tableGet (tableSet t x v) y = tableGet t y := by
  have : x.toNat ≠ y.toNat := fun he => h (BitVec.eq_of_toNat_eq he)
  simp [tableGet, tableSet, Vector.getElem_set_ne _ _ this]

@[simp] theorem tableGet_zeroCounts (x : Byte) : tableGet zeroCounts x = 0 := by
  simp [tableGet, zeroCounts]

@[simp] theorem tableGet_emptyCodes (x : Byte) : tableGet emptyCodes x = none := by
  simp [tableGet, emptyCodes]

/-- Every byte value is one of the 256 symbols (00_scope.md R8). -/
theorem mem_symbols (x : Byte) : x ∈ symbols := by
  simp only [symbols, List.mem_map, List.mem_range]
  exact ⟨x.toNat, x.isLt, by simp⟩

theorem nodup_symbols : symbols.Nodup := by
  rw [symbols, List.nodup_map_iff_inj_on List.nodup_range]
  intro a ha b hb hab
  simp only [List.mem_range] at ha hb
  have := congrArg BitVec.toNat hab
  simpa [BitVec.toNat_ofNat, Nat.mod_eq_of_lt ha, Nat.mod_eq_of_lt hb] using this

/-- The entries of a table, read symbol by symbol. -/
theorem toList_eq_map_symbols (t : Vector α 256) : t.toList = symbols.map (tableGet t) := by
  apply List.ext_getElem
  · simp [symbols]
  · intro i h₁ h₂
    have hi : i < 256 := by simpa using h₁
    simp [symbols, tableGet, BitVec.toNat_ofNat, Nat.mod_eq_of_lt hi]

/-! ## Registers, trees, the queue -/

theorem readRegister_eq_ret {r : Option α} {v : α} : readRegister r = .ret v ↔ r = some v := by
  cases r <;> simp [readRegister]

theorem symbolOf_eq_ret {n : Node} {x : Byte} : symbolOf n = .ret x ↔ n.symbol = some x := by
  unfold symbolOf; cases n.symbol <;> simp

theorem isLeaf_iff {n : Node} : isLeaf n = true ↔ n.left = none ∧ n.right = none := by
  cases n <;> simp [isLeaf, Node.left, Node.right]

theorem checkTree_eq (T : Node) :
    (treeWF T = true ∧ checkTree T = .ret ()) ∨ (treeWF T = false ∧ checkTree T = .raise .corruptTree 0) := by
  unfold checkTree; cases treeWF T <;> simp

theorem popMin_eq_ret {Q Q' : List Entry} {e : Entry} : popMin Q = .ret (e, Q') ↔ Q = e :: Q' := by
  cases Q <;> simp [popMin]

/-- An enqueue adds its entry and keeps the others. -/
theorem enqueue_perm (e : Entry) (Q : List Entry) : (enqueue e Q).Perm (e :: Q) := by
  induction Q with
  | nil => exact .refl _
  | cons f Q ih =>
    simp only [enqueue]
    split
    · exact .refl _
    · exact (ih.cons f).trans (.swap e f Q)

theorem length_enqueue (e : Entry) (Q : List Entry) : (enqueue e Q).length = Q.length + 1 := by
  simpa using (enqueue_perm e Q).length_eq

/-- The queue of a merge has one entry fewer (42_tree_builder.md R159). -/
theorem mergeStep_eq_ret {r r' : BuildTreeRegs} (h : mergeStep r = .ret r') :
    ∃ a b Q, r.Q = a :: b :: Q ∧
      r' = { r with Q := enqueue { node := mergeNode a b, seq := r.nextSeq } Q, nextSeq := r.nextSeq + 1,
                    a := some a, b := some b } := by
  obtain ⟨⟨a, Q₁⟩, h₁, h⟩ := Run.bind_eq_ret.mp h
  obtain ⟨⟨b, Q₂⟩, h₂, h⟩ := Run.bind_eq_ret.mp h
  rw [popMin_eq_ret] at h₁ h₂
  simp only at h₁ h₂ h
  subst h₂
  cases h
  exact ⟨a, b, Q₂, h₁, rfl⟩

/-! ## How a command runs -/

/-- Everything the end of a command can be. -/
theorem finish_eq (s : State) (x : Run ResultBundle) :
    finish s x = match x with
      | .ret v => .next (s.answer (Response.ok v))
      | .raise e n => .next (s.answer (Response.error e n))
      | .stop f => .fault f := by cases x <;> rfl

/-- If a command ends in a next state, that state is the old one with one answer delivered. -/
theorem finish_next {s s' : State} {x : Run ResultBundle} (h : finish s x = .next s') : ∃ r, s' = s.answer r := by
  cases x <;> simp only [finish_eq] at h <;> cases h <;> exact ⟨_, rfl⟩

theorem runCommand_nil {i : Instr} {body : Config → Operands → Run ResultBundle} {s : State} (h : s.commands = []) :
    runCommand i body s = .refused .noCommand := by simp [runCommand, h]

/-- Everything a command can do once its operands are there: be rejected by the operand checks, or run (30_encoding.md
R78; 60_exceptions.md R215). -/
theorem runCommand_cons {i : Instr} {body : Config → Operands → Run ResultBundle} {s : State} {c : Command}
    {rest : List Command} (h : s.commands = c :: rest) :
    runCommand i body s =
      if operandsRejected s.config i c.OPS then .next (s.answer (Response.error .invalidArgument 0))
      else finish s (body s.config c.OPS) := by simp [runCommand, h, raiseError]

/-- Every next state of a command: one answer delivered, nothing else changed. -/
theorem runCommand_next {i : Instr} {body : Config → Operands → Run ResultBundle} {s s' : State}
    (h : runCommand i body s = .next s') : ∃ r, s' = s.answer r := by
  cases hc : s.commands with
  | nil => rw [runCommand_nil hc] at h; cases h
  | cons c rest =>
    rw [runCommand_cons hc] at h
    split at h
    · cases h; exact ⟨_, rfl⟩
    · exact finish_next h

/-- Every next state of `exec`: one answer delivered, nothing else changed. -/
theorem exec_next {i : Instr} {s s' : State} (h : exec i s = .next s') : ∃ r, s' = s.answer r := by
  cases i <;> exact runCommand_next h

/-- The operand checks, one by one (30_encoding.md R78). -/
theorem operandsRejected_eq_false {cfg : Config} {i : Instr} {ops : Operands} :
    operandsRejected cfg i ops = false ↔
      inputTooLong cfg i ops = false ∧ windowTooLarge cfg i ops = false ∧ countsTooLarge cfg i ops = false ∧
        cursorPastEnd i ops = false := by
  simp [operandsRejected, and_assoc]

theorem exceeds_eq_false {b : Option Nat} {v : Nat} : exceeds b v = false ↔ ∀ m, b = some m → v ≤ m := by
  cases b <;> simp [exceeds]

theorem exceeds_eq_true {b : Option Nat} {v : Nat} : exceeds b v = true ↔ ∃ m, b = some m ∧ m < v := by
  cases b <;> simp [exceeds]

/-- An idle instance with a command issued runs it (20_memory.md R61). -/
theorem step_idle {s : State} {c : Command} {rest : List Command} (hw : s.work = none) (hc : s.commands = c :: rest) :
    step s = runWord s c := by simp [step, hw, hc]

/-- What a unit of work leaves of the state (70_reset_and_hazards.md R251). -/
theorem settle_next {s s' : State} {x : Run Micro} (h : settle s x = .next s') :
    (∃ w, x = .ret (.more w) ∧ s' = { s with work := some w }) ∨ ∃ r, s' = s.answer r := by
  rcases x with (_ | _) | _ | _ <;> simp [settle, returnResult, raiseError] at h <;> subst h
  · exact .inl ⟨_, rfl, rfl⟩
  · exact .inr ⟨_, rfl⟩
  · exact .inr ⟨_, rfl⟩

/-! ## The parser, byte by byte -/

/-- The end of a token adds it to the tokens parsed and moves the index past its last byte; the appends have not begun. -/
theorem endToken_eq_ret {TEXT : List Byte} {r r' : TokenParseRegs} (h : endToken TEXT r = .ret r') :
    ∃ off len lit, r.off = some off ∧ r.len = some len ∧ r.lit = some lit ∧
      r' = { r with p := r.p + 1, S := r.S ++ [{ offset := off, length := len, literal := lit }],
                    parsed := decide (r.p + 1 = TEXT.length), phase := .space } := by
  obtain ⟨off, ho, h⟩ := Run.bind_eq_ret.mp h
  obtain ⟨len, hl, h⟩ := Run.bind_eq_ret.mp h
  obtain ⟨lit, hi, h⟩ := Run.bind_eq_ret.mp h
  rw [readRegister_eq_ret] at ho hl hi
  cases h
  exact ⟨off, len, lit, ho, hl, hi, rfl⟩

theorem readRegister_ne_raise {α : Type} {x : Option α} {e : Err} {n : Nat} : readRegister x ≠ .raise e n := by
  cases x <;> simp [readRegister]

theorem endToken_ne_raise {TEXT : List Byte} {r : TokenParseRegs} {e : Err} {n : Nat} : endToken TEXT r ≠ .raise e n := by
  simp [endToken, Run.bind_eq_raise, readRegister_ne_raise]

/-- A byte the parser accepts moves its index by one and leaves the registers of the appends (41_dictionary_codec.md
R136). -/
theorem parseByte_advances {cfg : Config} {TEXT : List Byte} {r r' : TokenParseRegs} {c : Byte}
    (h : parseByte cfg TEXT r c = .ret r') : r'.p = r.p + 1 ∧ r'.t = r.t ∧ r'.OUT = r.OUT := by
  have hend : ∀ {q : TokenParseRegs}, endToken TEXT q = .ret r' → r'.p = q.p + 1 ∧ r'.t = q.t ∧ r'.OUT = q.OUT := by
    intro q h
    obtain ⟨_, _, _, -, -, -, rfl⟩ := endToken_eq_ret h
    exact ⟨rfl, rfl, rfl⟩
  unfold parseByte at h
  split at h
  · split at h <;> cases h; exact ⟨rfl, rfl, rfl⟩
  · unfold firstByte at h
    repeat' split at h
    all_goals cases h
    all_goals exact ⟨rfl, rfl, rfl⟩
  · rename_i f _
    obtain ⟨v, -, h⟩ := Run.bind_eq_ret.mp h
    obtain ⟨first, -, h⟩ := Run.bind_eq_ret.mp h
    repeat' split at h
    · cases h
    · cases h; exact ⟨rfl, rfl, rfl⟩
    · cases f
      · cases h; exact ⟨rfl, rfl, rfl⟩
      · cases h; exact ⟨rfl, rfl, rfl⟩
      · exact hend (q := { r with lit := some (some (BitVec.ofNat 8 v)) }) h
    · cases h
  · split at h
    · exact hend h
    · cases h
  · split at h <;> cases h; exact ⟨rfl, rfl, rfl⟩

/-- A byte the parser does not accept is `MalformedToken` at its own index (41_dictionary_codec.md R136). -/
theorem parseByte_rejects {cfg : Config} {TEXT : List Byte} {r : TokenParseRegs} {c : Byte} {e : Err} {n : Nat}
    (h : parseByte cfg TEXT r c = .raise e n) : e = .malformedToken ∧ n = r.p := by
  unfold parseByte at h
  split at h
  · split at h <;> cases h; exact ⟨rfl, rfl⟩
  · unfold firstByte at h
    repeat' split at h
    all_goals cases h
    all_goals exact ⟨rfl, rfl⟩
  · rename_i f _
    rcases Run.bind_eq_raise.mp h with h | ⟨v, -, h⟩
    · exact (readRegister_ne_raise h).elim
    rcases Run.bind_eq_raise.mp h with h | ⟨first, -, h⟩
    · exact (readRegister_ne_raise h).elim
    repeat' split at h
    · cases h; exact ⟨rfl, rfl⟩
    · cases h
    · cases f
      · cases h
      · cases h
      · exact (endToken_ne_raise h).elim
    · cases h; exact ⟨rfl, rfl⟩
  · split at h
    · exact (endToken_ne_raise h).elim
    · cases h; exact ⟨rfl, rfl⟩
  · split at h <;> cases h; exact ⟨rfl, rfl⟩

/-! ## Runs of steps -/

@[simp] theorem steps_zero (s : State) : steps 0 s = .next s := rfl

theorem steps_succ_next {n : Nat} {s s' : State} (h : step s = .next s') : steps (n + 1) s = steps n s' := by
  simp [steps, h]

/-- Issuing commands adds them at the end of the issue order, and changes nothing else (20_memory.md R61). -/
theorem issueAll_eq (cs : List Command) (s : State) : issueAll cs s = { s with commands := s.commands ++ cs } := by
  induction cs generalizing s with
  | nil => simp [issueAll]
  | cons c cs ih =>
    have h := ih (issue c s)
    simp only [issueAll, List.foldl_cons] at h ⊢
    rw [h]
    simp [issue]

end Sys2Proof.Machine
end

