-- ==== Sys2Proof/Laws/PerInstr.lean ====
section
/-!
SUPPORT. Facts about every command as syntax, one lemma per constructor of `Instr`: its word is well formed and decodes
to it (30_encoding.md R75, R76).
-/

namespace Sys2Proof.Laws

/-- The word of the command is well formed, and decodes to the command, in the opcode table's numbering too. -/
def RoundTrip.Statement (i : Instr) : Prop :=
  CmdWord.wellFormed (encode i) = true ∧ decode (encode i) = .ok i ∧ decodeTableWord 32 (encode i).toNat = some i

theorem RoundTrip.findMatch : RoundTrip.Statement .findMatch := ⟨by decide, by rfl, by rfl⟩
theorem RoundTrip.lzEncode : RoundTrip.Statement .lzEncode := ⟨by decide, by rfl, by rfl⟩
theorem RoundTrip.lzDecode : RoundTrip.Statement .lzDecode := ⟨by decide, by rfl, by rfl⟩
theorem RoundTrip.tokenFormat : RoundTrip.Statement .tokenFormat := ⟨by decide, by rfl, by rfl⟩
theorem RoundTrip.tokenParse : RoundTrip.Statement .tokenParse := ⟨by decide, by rfl, by rfl⟩
theorem RoundTrip.freqCount : RoundTrip.Statement .freqCount := ⟨by decide, by rfl, by rfl⟩
theorem RoundTrip.buildTree : RoundTrip.Statement .buildTree := ⟨by decide, by rfl, by rfl⟩
theorem RoundTrip.codeTable : RoundTrip.Statement .codeTable := ⟨by decide, by rfl, by rfl⟩
theorem RoundTrip.entEncode : RoundTrip.Statement .entEncode := ⟨by decide, by rfl, by rfl⟩
theorem RoundTrip.entDecode : RoundTrip.Statement .entDecode := ⟨by decide, by rfl, by rfl⟩

end Sys2Proof.Laws
end

