-- ==== Sys2Proof/Tests/Slice0.lean ====
section
/-!
SUPPORT. Tests. Expected results are those of spec/95_test_vectors.md, or worked from the rule named. Strings are written
as their ASCII bytes: 65 is `A`, 97 is `a`.
-/

namespace Sys2Proof.Tests

open Sys2Proof.Machine

/-! ## Helpers -/

/-- The first answer an outcome delivers. -/
def answerOf : Host.Outcome State Fault Refusal → Option Response
  | .next s => s.results.head?
  | .fault _ => none
  | .refused _ => none

/-- What an idle instance answers to a command. -/
def ask (cfg : Config) (i : Instr) (ops : Operands) : Option Response := answerOf (step (presenting cfg i ops))

/-- Some entries of the code table in an answer. -/
def codesIn (r : Option Response) (xs : List Byte) : List (Option (List Bit)) :=
  match r with
  | some { STATUS := _, RES := .codes C } => xs.map (tableGet C)
  | _ => []

/-- Some counts of the frequency table in an answer. -/
def countsIn (r : Option Response) (xs : List Byte) : List Nat :=
  match r with
  | some { STATUS := _, RES := .counts F } => xs.map (tableGet F)
  | _ => []

def lit (b : Byte) : Token := { offset := 0, length := 0, literal := some b }

/-- `ABABABABA` and its tokens (95 E2). -/
def ababText : List Byte := [65, 66, 65, 66, 65, 66, 65, 66, 65]
def ababTokens : List Token := [lit 65, lit 66, { offset := 2, length := 7, literal := none }]

/-- The text `(2,7,-)`. -/
def noLiteralText : List Byte := [40, 50, 44, 55, 44, 45, 41]

/-- `[10 x:10 -]`, the tree of 95 E6, and its table. -/
def treeX : Node := .onlyLeft none 10 (.leaf (some 120) 10)
def countsX : FreqTable := tableSet zeroCounts 120 10
def codesX : CodeTable := tableSet emptyCodes 120 (some [false])

/-- `[4 a:2 [2 b:1 c:1]]`, a tree of 95 2.8, and its counts. -/
def treeABC : Node := .branch none 4 (.leaf (some 97) 2) (.branch none 2 (.leaf (some 98) 1) (.leaf (some 99) 1))
def countsABC : FreqTable := tableSet (tableSet (tableSet zeroCounts 97 2) 98 1) 99 1

/-! ## Well-formed command words: one ill-formed word for each check -/

theorem test_reserved_bits_are_ill_formed : CmdWord.reservedZero 0x00000102 = false := by decide
theorem test_unassigned_opcode_is_ill_formed : CmdWord.opcodeAssigned 0x00000000 = false := by decide
theorem test_ill_formed_words_are_refused :
    CmdWord.wellFormed 0x00000102 = false ∧ CmdWord.wellFormed 0x00000006 = false := by decide
/-- WF2, WF1 and WF3 of R32, one ill-formed tree each (95 2.8). -/
theorem test_ill_formed_trees_are_refused :
    treeWF (.leaf (some 97) 1) = false ∧ treeWF (.branch none 2 (.leaf none 1) (.leaf (some 98) 1)) = false ∧
      treeWF (.branch none 2 (.leaf (some 97) 1) (.leaf (some 97) 1)) = false := by decide
theorem test_a_tree_with_absent_children_is_well_formed :
    treeWF (.branch none 3 (.leaf (some 97) 2) (.onlyRight none 1 (.leaf (some 98) 1))) = true := by decide

/-! ## Decoding: each word written out from R75 bit by bit, `OPCODE` in bits 7:0 and `RSV` zero -/

theorem test_decode_findMatch : decode 0b00000000000000000000000000000001 = .ok .findMatch := by rfl
theorem test_decode_lzEncode : decode 0b00000000000000000000000000000010 = .ok .lzEncode := by rfl
theorem test_decode_lzDecode : decode 0b00000000000000000000000000000011 = .ok .lzDecode := by rfl
theorem test_decode_tokenFormat : decode 0b00000000000000000000000000000100 = .ok .tokenFormat := by rfl
theorem test_decode_tokenParse : decode 0b00000000000000000000000000000101 = .ok .tokenParse := by rfl
theorem test_decode_freqCount : decode 0b00000000000000000000000000010000 = .ok .freqCount := by rfl
theorem test_decode_buildTree : decode 0b00000000000000000000000000010001 = .ok .buildTree := by rfl
theorem test_decode_codeTable : decode 0b00000000000000000000000000010010 = .ok .codeTable := by rfl
theorem test_decode_entEncode : decode 0b00000000000000000000000000010011 = .ok .entEncode := by rfl
theorem test_decode_entDecode : decode 0b00000000000000000000000000010100 = .ok .entDecode := by rfl
/-- 95 2.1: the words next to an assigned one, and reserved bits. -/
theorem test_decode_rejects :
    [0x00, 0x06, 0x0F, 0x15, 0xFF, 0x0102, 0x80000013, 0xFFFFFF01].map (decodeTableWord 32) =
      List.replicate 8 none := by decide

/-! ## The commands -/

/-- 95 E1. -/
theorem test_findMatch_to_the_end :
    ask {} .findMatch { noOperands with IN := ababText, pos := 2, windowSize := 4096 } =
      some { STATUS := 0, RES := .found { offset := 2, length := 7, literal := none } } := by decide +kernel
/-- 95 2.2, `"AAAAAA"`, 3, 2: the tie goes to the larger offset, and the window caps the run. -/
theorem test_findMatch_tie :
    ask {} .findMatch { noOperands with IN := List.replicate 6 65, pos := 3, windowSize := 2 } =
      some { STATUS := 0, RES := .found { offset := 2, length := 2, literal := some 65 } } := by decide +kernel
/-- 95 E2. -/
theorem test_lzEncode : ask {} .lzEncode { noOperands with IN := ababText, windowSize := 4096 } =
    some { STATUS := 0, RES := .tokens ababTokens } := by decide +kernel
/-- 95 2.11, `"ABCABD"` with a cap of 3. -/
theorem test_lzEncode_cap :
    ask { OUTPUT_CAP := some 3 } .lzEncode { noOperands with IN := [65, 66, 67, 65, 66, 68], windowSize := 4096 } =
      some { STATUS := 5, RES := .info 3 } := by decide +kernel
/-- 95 E3: the overlapping copy. -/
theorem test_lzDecode : ask {} .lzDecode { noOperands with TOK := ababTokens } =
    some { STATUS := 0, RES := .bytes ababText } := by decide +kernel
/-- 95 2.4, `(0,0,65) (3,0,-) (9,9,9)`: check 1 beats the out-of-range offset of the same token. -/
theorem test_lzDecode_first_check :
    ask {} .lzDecode { noOperands with TOK := [lit 65, { offset := 3, length := 0, literal := none },
      { offset := 9, length := 9, literal := some 9 }] } = some { STATUS := 1, RES := .info 1 } := by decide +kernel
/-- 95 2.5, `(12,345,-)`. -/
theorem test_tokenFormat :
    ask {} .tokenFormat { noOperands with TOK := [{ offset := 12, length := 345, literal := none }] } =
      some { STATUS := 0, RES := .bytes [40, 49, 50, 44, 51, 52, 53, 44, 45, 41] } := by decide +kernel
/-- 95 2.11: the 8 bytes of `(0,0,65)` with a cap of 3. -/
theorem test_tokenFormat_cap : ask { OUTPUT_CAP := some 3 } .tokenFormat { noOperands with TOK := [lit 65] } =
    some { STATUS := 5, RES := .info 3 } := by decide +kernel
/-- 95 2.6, `(0,0,256)`: the literal passes 255 at index 7. -/
theorem test_tokenParse_literal :
    ask {} .tokenParse { noOperands with TEXT := [40, 48, 44, 48, 44, 50, 53, 54, 41] } =
      some { STATUS := 1, RES := .info 7 } := by decide +kernel
/-- 95 2.6 with `COUNT_BITS = 4`, `(1,15,65)` and `(1,16,65)`. -/
theorem test_tokenParse_width :
    ask { COUNT_BITS := some 4 } .tokenParse { noOperands with TEXT := [40, 49, 44, 49, 53, 44, 54, 53, 41] } =
        some { STATUS := 0, RES := .tokens [{ offset := 1, length := 15, literal := some 65 }] } ∧
      ask { COUNT_BITS := some 4 } .tokenParse { noOperands with TEXT := [40, 49, 44, 49, 54, 44, 54, 53, 41] } =
        some { STATUS := 1, RES := .info 4 } := by decide +kernel
/-- 95 2.7: byte 0 is counted like any other. -/
theorem test_freqCount : countsIn (ask {} .freqCount { noOperands with IN := [0, 97, 0, 0] }) [0, 97, 98] = [3, 1, 0] := by
  decide +kernel
/-- 95 2.8, `{a:2, b:1, c:1}`. -/
theorem test_buildTree : ask {} .buildTree { noOperands with F := countsABC } =
    some { STATUS := 0, RES := .tree treeABC } := by decide +kernel
/-- 95 2.12: `COUNT_BITS = 2` cannot hold the sum 4. -/
theorem test_buildTree_width : ask { COUNT_BITS := some 2 } .buildTree { noOperands with F := countsABC } =
    some { STATUS := 9, RES := .info 0 } := by decide +kernel
/-- 95 2.8: `a = 0`, `b = 10`, `c = 11`, and no other code. -/
theorem test_codeTable : codesIn (ask {} .codeTable { noOperands with T := treeABC }) [97, 98, 99, 100] =
    [some [false], some [true, false], some [true, true], none] := by decide +kernel
/-- 95 2.8, 2.10: `[1 - q:1]`, a tree with no left child. -/
theorem test_codeTable_right : codesIn (ask {} .codeTable { noOperands with T := .onlyRight none 1 (.leaf (some 113) 1) })
    [113] = [some [true]] := by decide +kernel
/-- 95 E6. -/
theorem test_entEncode : ask {} .entEncode { noOperands with IN := [120, 120, 120], C := codesX } =
    some { STATUS := 0, RES := .bits [false, false, false] } := by decide +kernel
/-- 95 2.11 in small: with a cap of 1, the second bit fails before the unknown byte is looked up, and after one bit the
unknown byte is met first. -/
theorem test_entEncode_order :
    ask { OUTPUT_CAP := some 1 } .entEncode { noOperands with IN := [120, 120, 65], C := codesX } =
        some { STATUS := 5, RES := .info 1 } ∧
      ask { OUTPUT_CAP := some 1 } .entEncode { noOperands with IN := [120, 65], C := codesX } =
        some { STATUS := 4, RES := .info 1 } := by decide +kernel
/-- `0`, `10`, `11` with the tree of 95 2.8 are `a`, `b`, `c`; `0` then `1` ends inside a code. -/
theorem test_entDecode :
    ask {} .entDecode { noOperands with BITS := [false, true, false, true, true], T := treeABC } =
        some { STATUS := 0, RES := .bytes [97, 98, 99] } ∧
      ask {} .entDecode { noOperands with BITS := [false, true], T := treeABC } =
        some { STATUS := 3, RES := .info 2 } := by decide +kernel
/-- 95 2.10, `b"01"` with the single-symbol tree: bit 1 selects the absent right child. -/
theorem test_entDecode_absent_child : ask {} .entDecode { noOperands with BITS := [false, true], T := treeX } =
    some { STATUS := 7, RES := .info 1 } := by decide +kernel

/-! ## The interface -/

/-- 95 2.12, last row: the reserved bits of the word come before the operand checks. -/
theorem test_illegal_word :
    answerOf (step { presenting {} .findMatch noOperands with commands := [{ CMD := 0x00000101, OPS := noOperands }] }) =
      some { STATUS := 8, RES := .info 0 } := by decide +kernel
/-- A word issued first after reset is run by the next step. -/
theorem test_first_step_after_reset :
    step (State.reset.withFetchWord 32 0x00000010) = exec .freqCount (State.reset.withFetchWord 32 0x00000010) := by rfl
/-- Each of the ten commands issued first after reset, on the operands of the one-byte input 0, ends with `OK`. -/
theorem test_every_command_runs_after_reset :
    [0x01, 0x02, 0x03, 0x04, 0x05, 0x10, 0x11, 0x12, 0x13, 0x14].map (fun w =>
      (answerOf (step (State.reset.withFetchWord 32 w))).map fun r => r.STATUS) = List.replicate 10 (some 0) := by
  decide +kernel
/-- Three ticks do FIND_MATCH on `"AB"` at 1: the start, one comparison that ends the only candidate, the end. -/
theorem test_ticks : answerOf (ticks 3 (presenting {} .findMatch { noOperands with IN := [65, 66], pos := 1, windowSize := 4 }))
    = some { STATUS := 0, RES := .found { offset := 0, length := 0, literal := some 66 } } := by decide +kernel

end Sys2Proof.Tests
end

