-- ==== Sys2Proof/Tests/Witnesses.lean ====
section
/-!
SUPPORT. For each statement of Certificates/Slice0/Obligations.lean that has hypotheses, a concrete state and operands
that meet them all together; where its clauses differ, one for each, at the boundary where they meet.
-/

namespace Sys2Proof.Tests

open Sys2Proof.Machine

/-! ## Helpers -/

/-- The outcome is the next state `t`, as a Bool. -/
def nextIs (o : Host.Outcome State Fault Refusal) (t : State) : Bool :=
  match o with
  | .next s => decide (s = t)
  | .fault _ => false
  | .refused _ => false

theorem eq_next_of_nextIs {o : Host.Outcome State Fault Refusal} {t : State} (h : nextIs o t = true) : o = .next t := by
  cases o <;> simp_all [nextIs]

theorem atMost_none (n : Nat) : AtMost none n := by intro m h; cases h

theorem withinCap_some {cfg : Config} {k n : Nat} (hc : cfg.OUTPUT_CAP = some k) (h : n ≤ k) : WithinCap cfg n := by
  intro m hm; rw [hc] at hm; cases hm; exact h

theorem nodeAt_treeX {p : List Bit} {n : Node} (h : nodeAt treeX p = some n) :
    (p = [] ∧ n = treeX) ∨ (p = [false] ∧ n = .leaf (some 120) 10) := by
  rcases p with _ | ⟨_ | _, _ | ⟨_ | _, _⟩⟩ <;> simp_all [nodeAt, treeX, Node.left, Node.right]

theorem treeX_wellFormed : WellFormedTree treeX where
  leaves_carry p n h hl _ := by
    rcases nodeAt_treeX h with ⟨-, rfl⟩ | ⟨-, rfl⟩
    · cases hl
    · exact ⟨120, rfl⟩
  root_internal := .inl (by simp [treeX, Node.left])
  symbols_distinct p q x := by
    rintro ⟨m, hm, hml, -, -⟩ ⟨n, hn, hnl, -, -⟩
    rcases nodeAt_treeX hm with ⟨-, rfl⟩ | ⟨rfl, -⟩
    · cases hml
    · rcases nodeAt_treeX hn with ⟨-, rfl⟩ | ⟨rfl, -⟩
      · cases hnl
      · rfl

theorem nodeAt_treeABC {p : List Bit} {n : Node} (h : nodeAt treeABC p = some n) (hl : n.left = none) :
    (p = [false] ∧ n.symbol = some 97) ∨ (p = [true, false] ∧ n.symbol = some 98) ∨
      (p = [true, true] ∧ n.symbol = some 99) := by
  rcases p with _ | ⟨_ | _, _ | ⟨_ | _, _ | ⟨_ | _, _⟩⟩⟩ <;> simp [nodeAt, treeABC, Node.left, Node.right] at h <;>
    subst h <;> simp_all [Node.left, Node.symbol]

theorem treeABC_wellFormed : WellFormedTree treeABC where
  leaves_carry p n h hl _ := by
    rcases nodeAt_treeABC h hl with ⟨-, hs⟩ | ⟨-, hs⟩ | ⟨-, hs⟩ <;> exact ⟨_, hs⟩
  root_internal := .inl (by simp [treeABC, Node.left])
  symbols_distinct p q x := by
    rintro ⟨m, hm, hml, -, hms⟩ ⟨n, hn, hnl, -, hns⟩
    rcases nodeAt_treeABC hm hml with ⟨rfl, h⟩ | ⟨rfl, h⟩ | ⟨rfl, h⟩ <;>
      rcases nodeAt_treeABC hn hnl with ⟨rfl, h'⟩ | ⟨rfl, h'⟩ | ⟨rfl, h'⟩ <;>
      first
        | rfl
        | exact absurd (Option.some.inj ((h.symm.trans (hms.trans hns.symm)).trans h')) (by decide)

theorem leaf_not_wellFormed : ¬ WellFormedTree (.leaf (some 97) 1) := fun h => by
  rcases h.root_internal with h | h <;> exact h rfl

theorem countsX_get (y : Byte) : tableGet countsX y = if y = 120 then 10 else 0 := by
  by_cases h : y = 120
  · subst h; simp [countsX]
  · rw [if_neg h, countsX, tableGet_tableSet_ne (Ne.symm h), tableGet_zeroCounts]

theorem countsABC_pos {y : Byte} (h : 0 < tableGet countsABC y) : y = 97 ∨ y = 98 ∨ y = 99 := by
  by_contra hc
  simp only [not_or] at hc
  rw [countsABC, tableGet_tableSet_ne (Ne.symm hc.2.2), tableGet_tableSet_ne (Ne.symm hc.2.1),
    tableGet_tableSet_ne (Ne.symm hc.1), tableGet_zeroCounts] at h
  exact absurd h (Nat.lt_irrefl 0)

/-! ## Steps, reset, answers -/

theorem witness_StepRunsTheDecodedCommand : ∃ (s : State) (c : Command) (rest : List Command) (i : Instr),
    s.work = none ∧ s.commands = c :: rest ∧ decode c.CMD = .ok i :=
  ⟨presenting {} .lzEncode noOperands, _, [], .lzEncode, rfl, rfl, rfl⟩

theorem witness_IllegalWordsAreAnswered : ∃ (s : State) (c : Command) (rest : List Command),
    s.work = none ∧ s.commands = c :: rest ∧ ∀ i, c.CMD ≠ encode i :=
  ⟨{ State.reset with commands := [{ CMD := 0x00000006, OPS := noOperands }] }, _, [], rfl, rfl,
    fun i => by cases i <;> decide⟩

theorem witness_OnlyTheTenWordsDecode : ∀ i, (0x00000006 : CmdWord) ≠ encode i := fun i => by cases i <;> decide

theorem witness_IdleInstanceWaits : State.reset.work = none ∧ State.reset.commands = [] := ⟨rfl, rfl⟩

theorem witness_ResetLeavesAnIdleInstance : (presenting { OUTPUT_CAP := some 3 } .lzDecode noOperands).work = none := rfl

theorem witness_WhereTheModelOffersNoStep : State.reset.commands = [] ∧
    ∃ (s : State) (w : Work), s.work = some w :=
  ⟨rfl, { State.reset with work := some (.tokenFormat { OUT := [] }) }, _, rfl⟩

theorem presenting_inv (cfg : Config) (i : Instr) (ops : Operands) : Inv (presenting cfg i ops) :=
  ⟨rfl, fun _ h => by cases h⟩

theorem witness_EveryStepKeepsTheInvariant : ∃ s t : State, Inv s ∧ step s = .next t :=
  ⟨presenting {} .findMatch { noOperands with IN := [65] }, _, presenting_inv _ _ _, rfl⟩

theorem witness_IdleInstanceNeverStops : (presenting {} .entDecode { noOperands with T := treeX }).work = none := rfl

theorem witness_NoStepWritesTheConfiguration : ∃ s t : State, step s = .next t :=
  ⟨presenting { OUTPUT_CAP := some 0 } .lzEncode noOperands, _, rfl⟩

theorem witness_AnswersDoNotDependOnHistory :
    ∃ (s₁ s₂ : State) (c : Command) (rest₁ rest₂ : List Command), s₁.work = none ∧ s₂.work = none ∧
      s₁.config = s₂.config ∧ s₁.commands = c :: rest₁ ∧ s₂.commands = c :: rest₂ ∧ s₁ ≠ s₂ :=
  ⟨presenting {} .lzEncode noOperands,
    { presenting {} .lzEncode noOperands with results := [{ STATUS := 6, RES := .info 0 }] }, _, [], [],
    rfl, rfl, rfl, rfl, rfl, by simp [presenting]⟩

theorem witness_CommandsRaiseOnlyTheirErrors : ∃ (s : State) (c : Command) (rest : List Command),
    s.commands = c :: rest := ⟨presenting {} .lzEncode noOperands, _, _, rfl⟩

/-- One for each check of R78, just past its bound. -/
theorem witness_RejectedOperandsAreAnswered :
    OperandCheckFails { MAX_INPUT_LEN := some 0 } .entEncode { noOperands with IN := [0] } ∧
    OperandCheckFails { MAX_INPUT_LEN := some 0 } .tokenParse { noOperands with TEXT := [0] } ∧
    OperandCheckFails { MAX_INPUT_LEN := some 0 } .lzDecode { noOperands with TOK := [lit 0] } ∧
    OperandCheckFails { MAX_INPUT_LEN := some 0 } .entDecode { noOperands with BITS := [false] } ∧
    OperandCheckFails { WINDOW_MAX := some 8 } .lzEncode { noOperands with windowSize := 9 } ∧
    OperandCheckFails { COUNT_BITS := some 3 } .buildTree { noOperands with F := countsX } ∧
    OperandCheckFails {} .findMatch { noOperands with IN := [65], pos := 1 } := by
  refine ⟨?_, ?_, ?_, ?_, ?_, ?_, ?_⟩
  · exact .inl ⟨by decide, fun h => absurd (h 0 rfl) (by decide)⟩
  · exact .inr (.inl ⟨rfl, fun h => absurd (h 0 rfl) (by decide)⟩)
  · exact .inr (.inr (.inl ⟨by decide, fun h => absurd (h 0 rfl) (by decide)⟩))
  · exact .inr (.inr (.inr (.inl ⟨rfl, fun h => absurd (h 0 rfl) (by decide)⟩)))
  · exact .inr (.inr (.inr (.inr (.inl ⟨by decide, fun h => absurd (h 8 rfl) (by decide)⟩))))
  · exact .inr (.inr (.inr (.inr (.inr (.inl ⟨rfl, 3, rfl, by decide +kernel⟩)))))
  · exact .inr (.inr (.inr (.inr (.inr (.inr ⟨rfl, by decide⟩)))))

/-- With a cap of 1: nothing stands in the output, and one byte does. -/
theorem witness_AppendGrowsWithinTheCap :
    (∀ k, ({ OUTPUT_CAP := some 1 } : Config).OUTPUT_CAP = some k → ([] : List Byte).length + 1 ≤ k) ∧
    ∃ k, ({ OUTPUT_CAP := some 1 } : Config).OUTPUT_CAP = some k ∧ k < ([65] : List Byte).length + 1 :=
  ⟨fun k h => by cases h; decide, 1, rfl, by decide⟩

/-! ## U1 and U2 -/

theorem witness_RunLengthIsTheLargestCommonRun : 0 < 2 ∧ 2 < ababText.length := by decide

theorem witness_FindMatchReturnsTheLongestMatch : ∃ (s : State) (c : Command) (rest : List Command),
    s.commands = c :: rest ∧ c.OPS.pos < c.OPS.IN.length ∧ AtMost s.config.MAX_INPUT_LEN c.OPS.IN.length ∧
      AtMost s.config.WINDOW_MAX c.OPS.windowSize :=
  ⟨presenting {} .findMatch { noOperands with IN := ababText, pos := 8, windowSize := 4096 }, _, [], rfl, by decide,
    atMost_none _, atMost_none _⟩

/-- `"ABCABD"` at 3 with a window of 2 (95 E8): the repeat stands at distance 3. -/
theorem witness_RepeatOutsideTheWindowIsALiteral : ∃ (s : State) (c : Command) (rest : List Command) (b : Byte),
    s.commands = c :: rest ∧ c.OPS.IN[c.OPS.pos]? = some b ∧ AtMost s.config.MAX_INPUT_LEN c.OPS.IN.length ∧
      AtMost s.config.WINDOW_MAX c.OPS.windowSize ∧
      ∀ d, 1 ≤ d → d ≤ c.OPS.windowSize → d ≤ c.OPS.pos → c.OPS.IN[c.OPS.pos - d]? ≠ some b := by
  refine ⟨presenting {} .findMatch { noOperands with IN := [65, 66, 67, 65, 66, 68], pos := 3, windowSize := 2 }, _, [],
    65, rfl, rfl, atMost_none _, atMost_none _, ?_⟩
  intro d h1 h2 _
  have h2 : d ≤ 2 := h2
  obtain rfl | rfl : d = 1 ∨ d = 2 := by omega
  · decide
  · decide

theorem witness_LzEncodeTokenizesItsInput : ∃ (s : State) (c : Command) (rest : List Command),
    s.commands = c :: rest ∧ AtMost s.config.MAX_INPUT_LEN c.OPS.IN.length ∧
      AtMost s.config.WINDOW_MAX c.OPS.windowSize :=
  ⟨presenting {} .lzEncode { noOperands with IN := ababText, windowSize := 4096 }, _, [], rfl, atMost_none _,
    atMost_none _⟩

/-- The two clauses meet at the cap: three tokens with a cap of 3, and with a cap of 2 (95 2.11). -/
theorem witness_LzEncodeTokenizesItsInput_cap :
    ask { OUTPUT_CAP := some 3 } .lzEncode { noOperands with IN := ababText, windowSize := 4096 } =
        some { STATUS := 0, RES := .tokens ababTokens } ∧
      ask { OUTPUT_CAP := some 2 } .lzEncode { noOperands with IN := ababText, windowSize := 4096 } =
        some { STATUS := 5, RES := .info 2 } := by decide +kernel

theorem witness_LzEncodeTokensMeetTheInvariants : ∃ (s : State) (c : Command) (rest : List Command) (OUT : List Token),
    s.commands = c :: rest ∧ exec .lzEncode s = .next (afterAnswer s { STATUS := 0, RES := .tokens OUT }) :=
  ⟨presenting {} .lzEncode { noOperands with IN := ababText, windowSize := 4096 }, _, [], ababTokens, rfl,
    eq_next_of_nextIs (by decide +kernel)⟩

theorem witness_EmptyInputGivesEmptyOutput : ∃ (s : State) (c : Command) (rest : List Command),
    s.commands = c :: rest ∧ c.OPS.IN = [] ∧ AtMost s.config.WINDOW_MAX c.OPS.windowSize ∧ c.OPS.TOK = [] :=
  ⟨presenting { WINDOW_MAX := some 0 } .lzEncode noOperands, _, [], rfl, rfl, fun m h => by cases h; decide, rfl⟩

theorem appends_lit (b : Byte) (OUT : List Byte) : Appends (lit b) OUT (OUT ++ [b]) :=
  ⟨⟨[b], rfl⟩, by simp [bytesOf, lit], fun k hk => absurd hk (Nat.not_lt_zero k), fun x hx => by
    cases hx; simp [lit]⟩

/-- `(0,0,65) (1,3,-)` (95 2.4): a copy longer than its offset. -/
theorem decodes_AAAA : Decodes 2 0 [lit 65, { offset := 1, length := 3, literal := none }] [] [65, 65, 65, 65] := by
  refine ⟨by simp [Malformed, lit], by decide, [65], appends_lit 65 [], by simp [Malformed], by decide,
    [65, 65, 65, 65], ⟨⟨[65, 65, 65], rfl⟩, rfl, ?_, fun b hb => by cases hb⟩, rfl⟩
  intro k hk
  have hk : k < 3 := hk
  obtain rfl | rfl | rfl : k = 0 ∨ k = 1 ∨ k = 2 := by omega
  all_goals rfl

/-- The two clauses meet at the cap: 4 bytes with a cap of 4, and with a cap of 3. -/
theorem witness_LzDecodeRunsAcceptedStreams (k : Nat) : ∃ (s : State) (c : Command) (rest : List Command)
    (OUT : List Byte), s.commands = c :: rest ∧ AtMost s.config.MAX_INPUT_LEN c.OPS.TOK.length ∧
      Decodes c.OPS.TOK.length 0 c.OPS.TOK [] OUT ∧ s.config.OUTPUT_CAP = some k ∧
      (k = 4 → WithinCap s.config OUT.length) ∧ (k = 3 → k < OUT.length) :=
  ⟨presenting { OUTPUT_CAP := some k } .lzDecode
      { noOperands with TOK := [lit 65, { offset := 1, length := 3, literal := none }] }, _, [], [65, 65, 65, 65], rfl,
    atMost_none _, decodes_AAAA, rfl, fun h => withinCap_some rfl (by subst h; decide), fun h => by subst h; decide⟩

/-- After `(0,0,65)`: `(0,2,66)` fails check 3, and `(2,1,66)` fails check 4 (95 2.4, E4), with a cap of 1; with a cap of
0 the first token already passes it. -/
theorem witness_LzDecodeRejectsTokens (tok : Token) (k : Nat) : ∃ (s : State) (c : Command) (rest : List Command)
    (pre post : List Token) (OUT : List Byte), s.commands = c :: rest ∧
      AtMost s.config.MAX_INPUT_LEN c.OPS.TOK.length ∧ c.OPS.TOK = pre ++ post ∧
      Decodes c.OPS.TOK.length 0 pre [] OUT ∧ post = [tok] ∧ s.config.OUTPUT_CAP = some k ∧
      (k = 1 → WithinCap s.config OUT.length) ∧ (k = 0 → k < OUT.length) ∧
      (tok = { offset := 0, length := 2, literal := some 66 } → Malformed c.OPS.TOK.length pre.length tok) ∧
      (tok = { offset := 2, length := 1, literal := some 66 } →
        ¬ Malformed c.OPS.TOK.length pre.length tok ∧ OUT.length < tok.offset) :=
  ⟨presenting { OUTPUT_CAP := some k } .lzDecode { noOperands with TOK := [lit 65, tok] }, _, [], [lit 65], [tok], [65],
    rfl, atMost_none _, rfl, ⟨by simp [Malformed, lit], by decide, [65], appends_lit 65 [], rfl⟩, rfl, rfl,
    fun h => withinCap_some rfl (by subst h; decide), fun h => by subst h; decide,
    fun h => by subst h; simp [Malformed], fun h => by subst h; simp [Malformed]⟩

theorem witness_LzDecodeInvertsLzEncode : ({} : Config).OUTPUT_CAP = none ∧
    AtMost ({} : Config).MAX_INPUT_LEN ababText.length ∧ AtMost ({} : Config).WINDOW_MAX 4096 :=
  ⟨rfl, atMost_none _, atMost_none _⟩

theorem witness_TokenTextIsOneToOne : fmt ababTokens = fmt ababTokens ∧ fmt ababTokens ≠ [] := by decide

/-- The two clauses meet at the cap: the 7 bytes of `(0,0,0)` with a cap of 7, and with a cap of 6. -/
theorem witness_TokenFormatWritesTheText (k : Nat) : ∃ (s : State) (c : Command) (rest : List Command),
    s.commands = c :: rest ∧ AtMost s.config.MAX_INPUT_LEN c.OPS.TOK.length ∧ s.config.OUTPUT_CAP = some k ∧
      (k = 7 → WithinCap s.config (fmt c.OPS.TOK).length) ∧ (k = 6 → k < (fmt c.OPS.TOK).length) :=
  ⟨presenting { OUTPUT_CAP := some k } .tokenFormat { noOperands with TOK := [lit 0] }, _, [], rfl, atMost_none _, rfl,
    fun h => withinCap_some rfl (by subst h; decide), fun h => by subst h; decide⟩

theorem witness_TokenParseInvertsTokenFormat : ({} : Config).OUTPUT_CAP = none ∧ ({} : Config).COUNT_BITS = none ∧
    AtMost ({} : Config).MAX_INPUT_LEN ababTokens.length ∧ AtMost ({} : Config).MAX_INPUT_LEN (fmt ababTokens).length :=
  ⟨rfl, rfl, atMost_none _, atMost_none _⟩

/-- A text begins with `(`, or is empty. -/
theorem fmt_head {toks : List Token} {b : Byte} {y : List Byte} (h : fmt toks = b :: y) : b = chOpen := by
  rcases toks with _ | ⟨t, _ | ⟨u, ts⟩⟩ <;> simp [fmt, fmtTok] at h <;> exact h.1.symm

/-- A text is not one byte. -/
theorem fmt_ne_single (toks : List Token) (b : Byte) : fmt toks ≠ [b] := by
  rcases toks with _ | ⟨t, _ | ⟨u, ts⟩⟩ <;> simp [fmt, fmtTok]

/-- The three clauses: `(0,0,0)` with a cap of 1; `(`, which it continues; `A`, which begins no text. -/
theorem witness_TokenParseFollowsTheLongestValidStart (TEXT : List Byte) :
    ∃ (s : State) (c : Command) (rest : List Command), s.commands = c :: rest ∧ c.OPS.TEXT = TEXT ∧
      AtMost s.config.MAX_INPUT_LEN c.OPS.TEXT.length ∧
      (TEXT = fmt [lit 0] → (∀ t ∈ [lit 0], TokenFits s.config t) ∧ WithinCap s.config [lit 0].length) ∧
      (TEXT = fmt [lit 0, lit 0] → (∀ t ∈ [lit 0, lit 0], TokenFits s.config t) ∧ s.config.OUTPUT_CAP = some 1 ∧
        1 < [lit 0, lit 0].length) ∧
      (TEXT = [40] → ValidStart s.config c.OPS.TEXT ∧ ¬ ValidText s.config c.OPS.TEXT) ∧
      (TEXT = [65] → 0 < c.OPS.TEXT.length ∧ ValidStart s.config (c.OPS.TEXT.take 0) ∧
        ¬ ValidStart s.config (c.OPS.TEXT.take 1)) := by
  have fits : ∀ (toks : List Token), ∀ t ∈ toks, TokenFits { OUTPUT_CAP := some 1 } t := fun _ _ _ _ h => by cases h
  refine ⟨presenting { OUTPUT_CAP := some 1 } .tokenParse { noOperands with TEXT := TEXT }, _, [], rfl, rfl,
    atMost_none _, fun _ => ⟨fits _, withinCap_some rfl (by decide)⟩, fun _ => ⟨fits _, rfl, by decide⟩, ?_, ?_⟩
  · rintro rfl
    exact ⟨⟨[48, 44, 48, 44, 48, 41], [lit 0], fits _, by decide⟩, fun ⟨toks, _, h⟩ => fmt_ne_single toks _ h⟩
  · rintro rfl
    exact ⟨by decide, ⟨[], [], fits _, rfl⟩, fun ⟨y, toks, _, h⟩ => absurd (fmt_head h) (by decide)⟩

/-! ## U3 -/

theorem witness_FreqCountCountsEachByte : ∃ (s : State) (c : Command) (rest : List Command), s.commands = c :: rest ∧
    AtMost s.config.MAX_INPUT_LEN c.OPS.IN.length :=
  ⟨presenting {} .freqCount { noOperands with IN := ababText }, _, [], rfl, atMost_none _⟩

theorem witness_AllZeroTableIsAnEmptyAlphabet : ∃ (s : State) (c : Command) (rest : List Command),
    s.commands = c :: rest ∧ ∀ x, tableGet c.OPS.F x = 0 :=
  ⟨presenting {} .buildTree noOperands, _, [], rfl, tableGet_zeroCounts⟩

theorem witness_SingleSymbolTreeAndCode : ∃ (s : State) (c : Command) (rest : List Command) (x : Byte) (f : Nat),
    s.commands = c :: rest ∧ 0 < f ∧ (∀ y, tableGet c.OPS.F y = if y = x then f else 0) ∧
      CountsFit s.config c.OPS.F ∧ ∃ (s' : State) (c' : Command) (rest' : List Command), s'.commands = c' :: rest' ∧
        c'.OPS.T = .onlyLeft none f (.leaf (some x) f) :=
  ⟨presenting {} .buildTree { noOperands with F := countsX }, _, [], 120, 10, rfl, by decide, countsX_get,
    fun _ h => (by cases h), presenting {} .codeTable { noOperands with T := treeX }, _, [], rfl, rfl⟩

theorem witness_BuildTreeAnswersAWellFormedTree : ∃ (s : State) (c : Command) (rest : List Command),
    s.commands = c :: rest ∧ (∃ x, 0 < tableGet c.OPS.F x) ∧ CountsFit s.config c.OPS.F :=
  ⟨presenting {} .buildTree { noOperands with F := countsX }, _, [], rfl, ⟨120, by rw [countsX_get]; decide⟩,
    fun _ h => (by cases h)⟩

/-- For one symbol, and for three. -/
theorem witness_TreeSizeAndDepth (F : FreqTable) (T : Node)
    (h : (F = countsX ∧ T = treeX) ∨ (F = countsABC ∧ T = treeABC)) :
    ∃ (s : State) (c : Command) (rest : List Command), s.commands = c :: rest ∧ c.OPS.F = F ∧
      exec .buildTree s = .next (afterAnswer s { STATUS := 0, RES := .tree T }) := by
  rcases h with ⟨rfl, rfl⟩ | ⟨rfl, rfl⟩
  · exact ⟨presenting {} .buildTree { noOperands with F := countsX }, _, [], rfl, rfl,
      eq_next_of_nextIs (by decide +kernel)⟩
  · exact ⟨presenting {} .buildTree { noOperands with F := countsABC }, _, [], rfl, rfl,
      eq_next_of_nextIs (by decide +kernel)⟩

theorem witness_distinctSymbols : distinctSymbols countsX = 1 ∧ distinctSymbols countsABC = 3 := by decide +kernel

/-- `b = 0`, `a = 10`, `c = 11`, a prefix-free code that is not the tree's. -/
theorem witness_TreeCostIsLeast : ∃ (s : State) (c : Command) (rest : List Command) (T : Node),
    s.commands = c :: rest ∧ exec .buildTree s = .next (afterAnswer s { STATUS := 0, RES := .tree T }) ∧
      2 ≤ distinctSymbols c.OPS.F ∧ ∃ code : Byte → List Bit,
        ∀ x y, 0 < tableGet c.OPS.F x → 0 < tableGet c.OPS.F y → x ≠ y → ¬ code x <+: code y := by
  refine ⟨presenting {} .buildTree { noOperands with F := countsABC }, _, [], treeABC, rfl,
    eq_next_of_nextIs (by decide +kernel), by decide +kernel,
    fun x => if x = 98 then [false] else if x = 97 then [true, false] else [true, true], ?_⟩
  intro x y hx hy
  rcases countsABC_pos hx with rfl | rfl | rfl <;> rcases countsABC_pos hy with rfl | rfl | rfl <;> decide

theorem witness_TreeCostIsTheInternalFrequencies : ∃ (s : State) (c : Command) (rest : List Command) (T : Node),
    s.commands = c :: rest ∧ exec .buildTree s = .next (afterAnswer s { STATUS := 0, RES := .tree T }) :=
  have ⟨s, c, rest, h, _, he⟩ := witness_TreeSizeAndDepth countsABC treeABC (.inr ⟨rfl, rfl⟩)
  ⟨s, c, rest, treeABC, h, he⟩

theorem witness_QueueHandsOutTheLeastKey :
    ∃ (e a : Entry) (Q Q' : List Entry), Q.Pairwise KeyBefore ∧ (∀ f ∈ Q, f.seq ≠ e.seq) ∧ popMin Q = .ret (a, Q') := by
  refine ⟨{ node := .leaf none 5, seq := 2 }, { node := .leaf none 5, seq := 0 },
    [{ node := .leaf none 5, seq := 0 }, { node := .leaf none 5, seq := 1 }], [{ node := .leaf none 5, seq := 1 }],
    by simp [KeyBefore], by simp, rfl⟩

/-! ## U4 -/

theorem witness_CorruptTreesAreAnswered : ∃ (s : State) (c : Command) (rest : List Command), s.commands = c :: rest ∧
    ¬ WellFormedTree c.OPS.T ∧ AtMost s.config.MAX_INPUT_LEN c.OPS.BITS.length :=
  ⟨presenting {} .entDecode { noOperands with T := .leaf (some 97) 1 }, _, [], rfl, leaf_not_wellFormed, atMost_none _⟩

theorem witness_CodeTableHoldsThePaths : ∃ (s : State) (c : Command) (rest : List Command), s.commands = c :: rest ∧
    WellFormedTree c.OPS.T :=
  ⟨presenting {} .codeTable { noOperands with T := treeABC }, _, [], rfl, treeABC_wellFormed⟩

theorem witness_CodesArePrefixFree : ∃ (s : State) (c : Command) (rest : List Command) (C : CodeTable),
    s.commands = c :: rest ∧ exec .codeTable s = .next (afterAnswer s { STATUS := 0, RES := .codes C }) :=
  ⟨presenting {} .codeTable { noOperands with T := treeX }, _, [], codesX, rfl, eq_next_of_nextIs (by decide +kernel)⟩

/-- The second clause; `witness_CodesArePrefixFree` meets the hypotheses of the first. -/
theorem witness_CodeLengthsAreBounded : ∃ (cfg : Config) (ops : Operands) (T : Node),
    step (presenting cfg .buildTree ops) = .next (answered cfg { STATUS := 0, RES := .tree T }) :=
  ⟨{}, { noOperands with F := countsABC }, treeABC, eq_next_of_nextIs (by decide +kernel)⟩

theorem codesX_get : tableGet codesX 120#8 = some [false] := by simp [codesX]

/-- The two clauses meet at the cap: two bits with a cap of 2, and with a cap of 1. -/
theorem witness_EntEncodeJoinsTheCodes (k : Nat) : ∃ (s : State) (c : Command) (rest : List Command),
    s.commands = c :: rest ∧ AtMost s.config.MAX_INPUT_LEN c.OPS.IN.length ∧
      (∀ x ∈ c.OPS.IN, tableGet c.OPS.C x ≠ none) ∧ s.config.OUTPUT_CAP = some k ∧
      (k = 2 → WithinCap s.config (codedLength c.OPS.C c.OPS.IN)) ∧ (k = 1 → k < codedLength c.OPS.C c.OPS.IN) :=
  ⟨presenting { OUTPUT_CAP := some k } .entEncode { noOperands with IN := [120, 120], C := codesX }, _, [], rfl,
    atMost_none _, by simp [codesX_get], rfl,
    fun h => withinCap_some rfl (by subst h; simp [codedLength, codesX_get]),
    fun h => by subst h; simp [codedLength, codesX_get]⟩

/-- The two clauses meet at the cap: one bit before the unknown byte, with a cap of 1, and with a cap of 0. -/
theorem witness_UnknownSymbolsAreAnswered (k : Nat) : ∃ (s : State) (c : Command) (rest : List Command)
    (pre post : List Byte) (x : Byte), s.commands = c :: rest ∧ AtMost s.config.MAX_INPUT_LEN c.OPS.IN.length ∧
      c.OPS.IN = pre ++ x :: post ∧ (∀ y ∈ pre, tableGet c.OPS.C y ≠ none) ∧ tableGet c.OPS.C x = none ∧
      s.config.OUTPUT_CAP = some k ∧ (k = 1 → WithinCap s.config (codedLength c.OPS.C pre)) ∧
      (k = 0 → k < codedLength c.OPS.C pre) :=
  ⟨presenting { OUTPUT_CAP := some k } .entEncode { noOperands with IN := [120, 65], C := codesX }, _, [], [120], [], 65,
    rfl, atMost_none _, rfl, by simp [codesX_get],
    by show tableGet codesX 65 = none; rw [codesX, tableGet_tableSet_ne (by decide), tableGet_emptyCodes], rfl,
    fun h => withinCap_some rfl (by subst h; simp [codedLength, codesX_get]),
    fun h => by subst h; simp [codedLength, codesX_get]⟩

theorem witness_CodedLengthIsTheTreeCost :
    ∃ (cfg : Config) (ops : Operands) (xs : List Byte) (T : Node) (C : CodeTable),
      (∀ y, tableGet ops.F y = xs.count y) ∧
      step (presenting cfg .buildTree ops) = .next (answered cfg { STATUS := 0, RES := .tree T }) ∧
      step (presenting cfg .codeTable { ops with T := T }) = .next (answered cfg { STATUS := 0, RES := .codes C }) := by
  refine ⟨{}, { noOperands with F := countsX }, List.replicate 10 120, treeX, codesX, fun y => ?_,
    eq_next_of_nextIs (by decide +kernel), eq_next_of_nextIs (by decide +kernel)⟩
  rw [countsX_get, List.count_replicate]
  by_cases h : y = 120
  · subst h; rfl
  · rw [if_neg h, if_neg (by simpa using Ne.symm h)]

theorem leafAt_treeX : LeafAt treeX [false] 120 := ⟨_, rfl, rfl, rfl, rfl⟩

/-- `b"00"` spells `"xx"`. -/
theorem spells_xx : Spells treeX [120, 120] [false, false] :=
  ⟨[false], [false], rfl, leafAt_treeX, [false], [], rfl, leafAt_treeX, rfl⟩

/-- The two clauses meet at the cap: two bytes with a cap of 2, and with a cap of 1. -/
theorem witness_EntDecodeReadsTheCodes (k : Nat) : ∃ (s : State) (c : Command) (rest : List Command) (xs : List Byte),
    s.commands = c :: rest ∧ AtMost s.config.MAX_INPUT_LEN c.OPS.BITS.length ∧ WellFormedTree c.OPS.T ∧
      Spells c.OPS.T xs c.OPS.BITS ∧ s.config.OUTPUT_CAP = some k ∧ (k = 2 → WithinCap s.config xs.length) ∧
      (k = 1 → k < xs.length) :=
  ⟨presenting { OUTPUT_CAP := some k } .entDecode { noOperands with BITS := [false, false], T := treeX }, _, [],
    [120, 120], rfl, atMost_none _, treeX_wellFormed, spells_xx, rfl,
    fun h => withinCap_some rfl (by subst h; decide), fun h => by subst h; decide⟩

/-- `b"01"`, which ends inside the code of `b` or `c`, and `b"0"`, which ends at the root, in `[4 a:2 [2 b:1 c:1]]`; each
with a cap of 1, which `a` meets, and with a cap of 0, which it passes. -/
theorem witness_BitsThatEndInsideACode (p : List Bit) (hp : p = [true] ∨ p = []) (k : Nat) :
    ∃ (s : State) (c : Command) (rest : List Command) (xs : List Byte) (bits : List Bit) (n : Node),
      s.commands = c :: rest ∧ AtMost s.config.MAX_INPUT_LEN c.OPS.BITS.length ∧ WellFormedTree c.OPS.T ∧
      c.OPS.BITS = bits ++ p ∧ Spells c.OPS.T xs bits ∧ nodeAt c.OPS.T p = some n ∧
      (n.left ≠ none ∨ n.right ≠ none) ∧ s.config.OUTPUT_CAP = some k ∧ (k = 1 → WithinCap s.config xs.length) ∧
      (k = 0 → k < xs.length) := by
  rcases hp with rfl | rfl
  · exact ⟨presenting { OUTPUT_CAP := some k } .entDecode { noOperands with BITS := [false, true], T := treeABC }, _, [],
      [97], [false], _, rfl, atMost_none _, treeABC_wellFormed, rfl, ⟨[false], [], rfl, ⟨_, rfl, rfl, rfl, rfl⟩, rfl⟩,
      rfl, .inl nofun, rfl, fun h => withinCap_some rfl (by subst h; decide), fun h => by subst h; decide⟩
  · exact ⟨presenting { OUTPUT_CAP := some k } .entDecode { noOperands with BITS := [false], T := treeABC }, _, [], [97],
      [false], _, rfl, atMost_none _, treeABC_wellFormed, rfl, ⟨[false], [], rfl, ⟨_, rfl, rfl, rfl, rfl⟩, rfl⟩, rfl,
      .inl nofun, rfl, fun h => withinCap_some rfl (by subst h; decide), fun h => by subst h; decide⟩

/-- `b"01"` with the single-symbol tree (95 2.10), with a cap of 1, which `x` meets, and with a cap of 0, which it
passes. -/
theorem witness_BitsThatSelectAnAbsentChild (k : Nat) :
    ∃ (s : State) (c : Command) (rest : List Command) (xs : List Byte) (bits p more : List Bit) (b : Bit) (n : Node),
      s.commands = c :: rest ∧ AtMost s.config.MAX_INPUT_LEN c.OPS.BITS.length ∧ WellFormedTree c.OPS.T ∧
      c.OPS.BITS = bits ++ p ++ b :: more ∧ Spells c.OPS.T xs bits ∧ nodeAt c.OPS.T p = some n ∧
      (n.left ≠ none ∨ n.right ≠ none) ∧ (if b then n.right else n.left) = none ∧ s.config.OUTPUT_CAP = some k ∧
      (k = 1 → WithinCap s.config xs.length) ∧ (k = 0 → k < xs.length) :=
  ⟨presenting { OUTPUT_CAP := some k } .entDecode { noOperands with BITS := [false, true], T := treeX }, _, [], [120],
    [false], [], [], true, _, rfl, atMost_none _, treeX_wellFormed, rfl, ⟨[false], [], rfl, leafAt_treeX, rfl⟩, rfl,
    .inl nofun, rfl, rfl, fun h => withinCap_some rfl (by subst h; decide), fun h => by subst h; decide⟩

theorem witness_EmptyBitsAndEmptyInput : ∃ (s : State) (c : Command) (rest : List Command), s.commands = c :: rest ∧
    c.OPS.BITS = [] ∧ WellFormedTree c.OPS.T ∧ c.OPS.IN = [] :=
  ⟨presenting {} .entDecode { noOperands with T := treeX }, _, [], rfl, rfl, treeX_wellFormed, rfl⟩

theorem witness_EntropyRoundTripForAnyTree : ({} : Config).OUTPUT_CAP = none ∧ ({} : Config).MAX_INPUT_LEN = none ∧
    WellFormedTree treeX ∧ ∀ x ∈ ([120, 120] : List Byte), ∃ p, LeafAt treeX p x :=
  ⟨rfl, rfl, treeX_wellFormed, fun x hx => by
    obtain rfl : x = 120 := by simpa using hx
    exact ⟨_, leafAt_treeX⟩⟩

theorem witness_EntropyRoundTrip : ({} : Config).OUTPUT_CAP = none ∧ ({} : Config).MAX_INPUT_LEN = none ∧
    ({} : Config).COUNT_BITS = none ∧ ababText ≠ [] := ⟨rfl, rfl, rfl, nofun⟩

/-! ## Step machines, the caller, several instances -/

/-- Of the five statements about step machines: one for each command. -/
theorem witness_StepMachineDoes (i : Instr) : ∃ (s : State) (c : Command) (rest : List Command), s.work = none ∧
    s.commands = c :: rest ∧ decode c.CMD = .ok i :=
  ⟨presenting {} i { noOperands with IN := ababText, T := treeX }, _, [], rfl, rfl, by cases i <;> rfl⟩

/-- Two commands for an idle instance; the second clause also for one that has a command waiting. -/
theorem witness_SessionsAnswerInIssueOrder : (∃ (s : State) (cs : List Command), s.work = none ∧ s.commands = [] ∧
    cs.length = 2) ∧ ∃ s : State, s.work = none ∧ s.commands.length = 1 :=
  ⟨⟨State.reset, [{ CMD := encode .freqCount, OPS := noOperands }, { CMD := 0, OPS := noOperands }], rfl, rfl, rfl⟩,
    presenting {} .lzEncode noOperands, rfl, rfl⟩

theorem witness_InstancesDoNotInterfere : ∃ (sys : System) (j k : Nat), j ≠ k ∧ (∀ s ∈ sys, s.work = none) ∧
    j < sys.length ∧ k < sys.length :=
  ⟨[presenting {} .lzEncode noOperands, presenting {} .freqCount noOperands], 0, 1, by decide,
    fun s hs => by simp at hs; rcases hs with rfl | rfl <;> rfl, by decide, by decide⟩

/-! ## Which tree BUILD_TREE answers with -/

theorem witness_BuildTreeAnswersTheTreeOfTheMerges : ∃ (s : State) (c : Command) (rest : List Command),
    s.commands = c :: rest ∧ (∃ x, 0 < tableGet c.OPS.F x) ∧ CountsFit s.config c.OPS.F :=
  witness_BuildTreeAnswersAWellFormedTree

/-- The leaves of `a:2 b:1 c:1`, in the order made. -/
def entryA : Entry := { node := .leaf (some 97) 2, seq := 0 }
def entryB : Entry := { node := .leaf (some 98) 1, seq := 1 }
def entryC : Entry := { node := .leaf (some 99) 1, seq := 2 }

theorem countsABC_get : tableGet countsABC 97 = 2 ∧ tableGet countsABC 98 = 1 ∧ tableGet countsABC 99 = 1 := by
  decide +kernel

theorem seeding_ABC : IsSeeding countsABC [entryA, entryB, entryC] where
  leaf_of j e h := by
    obtain ⟨ha, hb, hc⟩ := countsABC_get
    rcases j with _ | _ | _ | j <;> cases h
    · exact ⟨rfl, 97, by rw [ha]; rfl, by rw [ha]; decide⟩
    · exact ⟨rfl, 98, by rw [hb]; rfl, by rw [hb]; decide⟩
    · exact ⟨rfl, 99, by rw [hc]; rfl, by rw [hc]; decide⟩
  complete x h := by
    rcases countsABC_pos h with rfl | rfl | rfl
    · exact ⟨entryA, by simp, rfl⟩
    · exact ⟨entryB, by simp, rfl⟩
    · exact ⟨entryC, by simp, rfl⟩
  ascending := by
    simp only [List.pairwise_cons, List.mem_cons, List.not_mem_nil, or_false, forall_eq_or_imp, forall_eq]
    refine ⟨⟨?_, ?_⟩, ?_, fun _ h => h.elim, .nil⟩ <;> intro x y hx hy <;> cases hx <;> cases hy <;> decide

/-- The tree of 95 2.8 is the tree of its counts: `b` and `c` merge first, and `a`, made before their node, is taken
before it. -/
theorem tree_ABC : IsTreeOf countsABC treeABC := by
  refine ⟨_, seeding_ABC, .inr ⟨by decide, ?_⟩⟩
  refine .merge 3 _ [entryA] entryB entryC _ ?_ ?_ ?_ ?_
  · decide
  · intro e he; simp at he; rcases he with rfl | rfl <;> simp [KeyBefore, entryA, entryB, entryC, Node.frequency]
  · intro e he; simp at he; subst he; simp [KeyBefore, entryA, entryC, Node.frequency]
  refine .merge 4 _ [] entryA { node := .branch none 2 entryB.node entryC.node, seq := 3 } _ ?_ ?_ ?_ ?_
  · exact .swap _ _ _
  · intro e he; simp at he; subst he; simp [KeyBefore, entryA, Node.frequency]
  · intro e he; simp at he
  · exact .root 5 { node := treeABC, seq := 4 }

end Sys2Proof.Tests
end

/-!
PROOFS of the statements of 00_scope.md: a command never stops the model, and reset leaves the block idle.

The idea of the first is a rule of reasoning about `Run`, `Run.Ensures`: a run that does not stop, and whose value, when
it returns one, meets a property. There is one rule for each operation of Machine/Ops.lean; then one lemma for each
operation of the pseudocode says what it ensures, with the loop invariant where it has a loop.
-/

namespace Sys2Proof.Machine

/-- The run does not stop the model, and if it returns, its value meets `Q`. It may raise an error. -/
def Run.Ensures {α : Type} (x : Run α) (Q : α → Prop) : Prop :=
  match x with
  | .ret v => Q v
  | .raise _ _ => True
  | .stop _ => False

/-! ## The rules of `Ensures` -/

section Rules

variable {α β ρ ι : Type} {P Q : α → Prop}

@[simp] theorem Run.ensures_ret {v : α} : (Run.ret v).Ensures Q ↔ Q v := .rfl
@[simp] theorem Run.ensures_raise {e : Err} {n : Nat} : (Run.raise e n).Ensures Q := trivial
@[simp] theorem Run.not_ensures_stop {f : Fault} : ¬ (Run.stop f).Ensures Q := id

/-- What `Ensures` says, in the terms of the model. -/
theorem Run.ensures_iff {x : Run α} : x.Ensures Q ↔ (∀ f, x ≠ .stop f) ∧ ∀ v, x = .ret v → Q v := by
  cases x <;> simp

theorem Run.Ensures.mono {x : Run α} (hx : x.Ensures P) (h : ∀ v, P v → Q v) : x.Ensures Q := by
  rw [ensures_iff] at hx ⊢
  exact ⟨hx.1, fun v hv => h v (hx.2 v hv)⟩

theorem Run.Ensures.bind {x : Run α} {k : α → Run β} {R : β → Prop} (hx : x.Ensures P)
    (hk : ∀ v, P v → (k v).Ensures R) : (x.bind k).Ensures R := by
  cases x with
  | ret v => exact hk v hx
  | raise e n => exact trivial
  | stop f => exact hx.elim

theorem Run.Ensures.map {x : Run α} {f : α → β} {R : β → Prop} (hx : x.Ensures fun v => R (f v)) :
    (x.map f).Ensures R :=
  hx.bind fun _ h => h

theorem memRead_ensures {B : List α} {k : Nat} (h : k < B.length) : (memRead B k).Ensures fun _ => True := by
  rw [memRead_of_lt h]; trivial

theorem append_ensures (cfg : Config) (OUT : List α) (v : α) :
    (append cfg OUT v).Ensures fun OUT' => OUT' = OUT ++ [v] := by
  rcases append_cases cfg OUT v with ⟨-, h⟩ | ⟨-, h⟩ <;> rw [h]
  · rfl
  · trivial

/-- The rule of `for`: an invariant that every iteration keeps. -/
theorem forEach_ensures {I : ρ → Prop} {xs : List ι} {body : ρ → ι → Run ρ} {r : ρ} (hr : I r)
    (hbody : ∀ r x, I r → x ∈ xs → (body r x).Ensures I) : (forEach xs r body).Ensures I := by
  induction xs generalizing r with
  | nil => exact hr
  | cons x xs ih =>
    exact (hbody r x hr List.mem_cons_self).bind fun r' hr' =>
      ih hr' fun r y hI hy => hbody r y hI (List.mem_cons_of_mem x hy)

/-- The rule of `while`: an invariant that every iteration keeps, and a measure, covered by the bound, that every
iteration decreases. -/
theorem whileLoop_ensures {I : ρ → Prop} {measure : ρ → Nat} {bound : Nat} {cond : ρ → Bool} {body : ρ → Run ρ}
    {r : ρ} (hr : I r) (hbound : measure r ≤ bound)
    (hbody : ∀ r, I r → cond r = true → (body r).Ensures fun r' => I r' ∧ measure r' < measure r)
    (hpos : ∀ r, I r → cond r = true → 0 < measure r) :
    (whileLoop bound cond body r).Ensures fun r' => I r' ∧ cond r' = false := by
  simp only [Run.ensures_iff] at hbody ⊢
  exact ⟨whileLoop_stops (fun r r' hI hc => (hbody r hI hc).2 r') hpos (fun r f hI hc => (hbody r hI hc).1 f) hr hbound,
    fun r' => whileLoop_keeps (fun r r' hI hc h => ((hbody r hI hc).2 r' h).1) hr⟩

theorem appendAll_ensures (cfg : Config) (OUT vs : List α) : (appendAll cfg OUT vs).Ensures fun _ => True :=
  forEach_ensures trivial fun OUT v _ _ => (append_ensures cfg OUT v).mono fun _ _ => trivial

end Rules

/-! ## U1 -/

theorem runGoesOn_ensures {IN : List Byte} {i pos limit : Nat} (run : Nat) (hi : i ≤ pos) (hl : limit ≤ IN.length) :
    (runGoesOn IN i pos limit run).Ensures fun _ => True := by
  unfold runGoesOn
  split
  · exact (memRead_ensures (by omega)).bind fun _ _ => (memRead_ensures (by omega)).bind fun _ _ => trivial
  · trivial

theorem runLenFrom_ensures {IN : List Byte} {i pos limit : Nat} (bound run : Nat) (hi : i ≤ pos)
    (hl : limit ≤ IN.length) : (runLenFrom IN i pos limit bound run).Ensures fun _ => True := by
  induction bound generalizing run with
  | zero => trivial
  | succ bound ih =>
    refine (runGoesOn_ensures run hi hl).bind fun more _ => ?_
    split
    · exact ih (run + 1)
    · trivial

/-- A match stands for at least one byte of the input: it has a literal or a run (40_window_matcher.md R104). -/
def Match.Advances (m : Match) : Prop := m.literal = none → 0 < m.length

theorem tokenSpan_pos_of_advances {m : Match} (h : Match.Advances m) : 0 < tokenSpan (Match.toToken m) := by
  unfold tokenSpan
  split
  next hl => exact Nat.add_pos_left (h hl) _
  · exact Nat.succ_pos _

theorem betterMatch_ensures (IN : List Byte) (pos i run : Nat) {best : Match} (h : Match.Advances best) :
    (betterMatch IN pos i run best).Ensures Match.Advances := by
  unfold betterMatch
  split
  next hrun =>
    split
    next hin => exact (memRead_ensures hin).bind fun _ _ hl => nomatch hl
    · exact fun _ => Nat.zero_lt_of_lt hrun
  · exact h

theorem matchCore_ensures {IN : List Byte} {pos : Nat} (w : Nat) (h : pos < IN.length) :
    (matchCore IN pos w).Ensures Match.Advances := by
  have hstart : (pureLiteral IN pos).Ensures Match.Advances := (memRead_ensures h).bind fun _ _ hl => nomatch hl
  refine hstart.bind fun start hs => forEach_ensures hs fun best i hbest hi => ?_
  have hi : i ≤ pos := (mem_range.mp hi).2.le
  exact (runLenFrom_ensures _ 0 hi (Nat.min_le_right _ _)).bind fun run _ => betterMatch_ensures IN pos i run hbest

/-! ## U2, the codec -/

theorem lzEncodeToken_ensures (cfg : Config) {IN : List Byte} (w : Nat) {r : LzEncodeRegs} (h : r.pos < IN.length) :
    (lzEncodeToken cfg IN w r).Ensures fun r' => r.pos < r'.pos :=
  (matchCore_ensures w h).bind fun _ hm =>
    (append_ensures ..).bind fun _ _ => Nat.lt_add_of_pos_right (tokenSpan_pos_of_advances hm)

/-- The cursor advances with every token, so the input's length bounds the loop (41_dictionary_codec.md R123, R124). -/
theorem lzEncode_ensures (cfg : Config) (IN : List Byte) (w : Nat) : (lzEncode cfg IN w).Ensures fun _ => True := by
  have hcond : ∀ r, lzEncodeGoesOn IN r = true → r.pos < IN.length := fun r h => of_decide_eq_true h
  have hloop : (whileLoop IN.length (lzEncodeGoesOn IN) (lzEncodeToken cfg IN w) lzEncodeStart).Ensures fun r =>
      True ∧ lzEncodeGoesOn IN r = false := by
    refine whileLoop_ensures (measure := fun r => IN.length - r.pos) trivial (Nat.sub_le _ _) (fun r _ hc => ?_)
      fun r _ hc => Nat.sub_pos_of_lt (hcond r hc)
    have hlt := hcond r hc
    exact (lzEncodeToken_ensures cfg w hlt).mono fun r' hr' => ⟨trivial, by omega⟩
  exact hloop.bind fun _ _ => trivial

theorem acceptToken_ensures (count t outLen : Nat) (tok : Token) :
    (acceptToken count t outLen tok).Ensures fun _ => tok.offset ≤ outLen := by
  unfold acceptToken
  repeat' split
  case isFalse.isFalse.isFalse.isFalse hoff => exact Nat.le_of_not_gt hoff
  all_goals trivial

/-- A copy reads `offset` behind the end of an output at least that long, which only grows (41_dictionary_codec.md
R129). -/
theorem copyRun_ensures (cfg : Config) {offset : Nat} (length : Nat) {OUT : List Byte} (hpos : 0 < offset)
    (hle : offset ≤ OUT.length) : (copyRun cfg offset length OUT).Ensures fun _ => True := by
  refine (forEach_ensures (I := fun OUT => offset ≤ OUT.length) hle fun OUT _ hle _ => ?_).mono fun _ _ => trivial
  refine (memRead_ensures (by omega)).bind fun b _ => (append_ensures cfg OUT b).mono fun OUT' h => ?_
  rw [h, List.length_append]
  exact Nat.le_add_right_of_le hle

theorem appendLiteral_ensures (cfg : Config) (literal : Option Byte) (OUT : List Byte) :
    (appendLiteral cfg literal OUT).Ensures fun _ => True := by
  cases literal with
  | none => trivial
  | some b => exact (append_ensures cfg OUT b).mono fun _ _ => trivial

theorem lzDecode_ensures (cfg : Config) (TOK : List Token) : (lzDecode cfg TOK).Ensures fun _ => True := by
  refine forEach_ensures trivial fun OUT t _ ht => ?_
  refine (memRead_ensures (mem_range.mp ht).2).bind fun tok _ => (acceptToken_ensures ..).bind fun _ hle => ?_
  refine Run.Ensures.bind (P := fun _ => True) ?_ fun OUT' _ => appendLiteral_ensures cfg tok.literal OUT'
  split
  next hpos => exact copyRun_ensures cfg tok.length hpos hle
  · trivial

/-! ## U2, the token text

Every part of the parser moves its index forward, and never past the end of the text. -/

theorem expectByte_ensures {TEXT : List Byte} {p : Nat} (c : Byte) (h : p ≤ TEXT.length) :
    (expectByte TEXT c p).Ensures fun q => p < q ∧ q ≤ TEXT.length := by
  unfold expectByte
  split
  · trivial
  · refine (memRead_ensures (by omega)).bind fun x _ => ?_
    split
    · trivial
    · exact ⟨by omega, by omega⟩

theorem lt_of_digitAt {TEXT : List Byte} {p : Nat} (h : digitAt TEXT p = true) : p < TEXT.length := by
  by_contra hp
  simp [digitAt, List.getElem?_eq_none (Nat.le_of_not_lt hp)] at h

theorem parseDigit_ensures {TEXT : List Byte} (max : Option Nat) {vp : Nat × Nat} (h : vp.2 < TEXT.length) :
    (parseDigit TEXT max vp).Ensures fun vp' => vp'.2 = vp.2 + 1 := by
  refine (memRead_ensures h).bind fun c _ => ?_
  split
  · trivial
  · rfl

theorem parseNum_ensures {TEXT : List Byte} (max : Option Nat) {p : Nat} (h : p ≤ TEXT.length) :
    (parseNum TEXT max p).Ensures fun vp => p < vp.2 ∧ vp.2 ≤ TEXT.length := by
  unfold parseNum
  split
  · trivial
  have hp : p < TEXT.length := by omega
  refine (memRead_ensures hp).bind fun first _ => ?_
  split_ifs
  · trivial
  · trivial
  · exact ⟨Nat.lt_succ_self p, hp⟩
  · refine Run.Ensures.mono (whileLoop_ensures (I := fun vp => p < vp.2 ∧ vp.2 ≤ TEXT.length)
      (measure := fun vp => TEXT.length - vp.2) ⟨Nat.lt_succ_self p, hp⟩ le_rfl (fun vp hI hc => ?_)
      fun vp _ hc => Nat.sub_pos_of_lt (lt_of_digitAt hc)) fun _ hI => hI.1
    have hlt := lt_of_digitAt hc
    exact (parseDigit_ensures max hlt).mono fun vp' h' => ⟨⟨by omega, by omega⟩, by omega⟩

theorem parseLit_ensures {TEXT : List Byte} {p : Nat} (h : p ≤ TEXT.length) :
    (parseLit TEXT p).Ensures fun lp => p < lp.2 ∧ lp.2 ≤ TEXT.length := by
  unfold parseLit
  split
  next hdash => exact ⟨Nat.lt_succ_self p, (List.getElem?_eq_some_iff.mp hdash).1⟩
  · exact (parseNum_ensures (some 255) h).map

/-- A token takes more than one byte of the text. -/
theorem parseToken_ensures (cfg : Config) {TEXT : List Byte} {p : Nat} (h : p ≤ TEXT.length) :
    (parseToken cfg TEXT p).Ensures fun tp => p + 2 ≤ tp.2 ∧ tp.2 ≤ TEXT.length := by
  refine (expectByte_ensures chOpen h).bind fun p₁ ⟨hp₁, h₁⟩ => ?_
  refine (parseNum_ensures (numMax cfg) h₁).bind fun off ⟨hp₂, h₂⟩ => ?_
  refine (expectByte_ensures chComma h₂).bind fun p₃ ⟨hp₃, h₃⟩ => ?_
  refine (parseNum_ensures (numMax cfg) h₃).bind fun len ⟨hp₄, h₄⟩ => ?_
  refine (expectByte_ensures chComma h₄).bind fun p₅ ⟨hp₅, h₅⟩ => ?_
  refine (parseLit_ensures h₅).bind fun lit ⟨hp₆, h₆⟩ => ?_
  exact (expectByte_ensures chClose h₆).bind fun p₇ ⟨hp₇, h₇⟩ => ⟨by omega, h₇⟩

theorem parseStep_ensures (cfg : Config) {TEXT : List Byte} {r : ParseRegs} (h : r.p ≤ TEXT.length) :
    (parseStep cfg TEXT r).Ensures fun r' => r.p + 2 ≤ r'.p ∧ r'.p ≤ TEXT.length := by
  refine (parseToken_ensures cfg h).bind fun tp ⟨hge, hle⟩ => ?_
  split
  · exact ⟨hge, hle⟩
  · exact (expectByte_ensures chSpace hle).bind fun q ⟨hlt, hq⟩ => ⟨(hge.trans_lt hlt).le, hq⟩

/-- One iteration per byte is enough: after a space the index may stand at the end of the text with the parse going on,
but the token before that space took more than one byte, which is why the measure is one behind the index. -/
theorem parse_ensures (cfg : Config) (TEXT : List Byte) : (parse cfg TEXT).Ensures fun _ => True := by
  cases TEXT with
  | nil => exact trivial
  | cons c cs =>
    refine (whileLoop_ensures (I := fun r => r.p ≤ (c :: cs).length) (measure := fun r => (c :: cs).length - (r.p - 1))
      (Nat.zero_le _) (Nat.sub_le _ _) (fun r hI _ => ?_) fun r hI _ => ?_).bind fun _ _ => trivial
    · exact (parseStep_ensures cfg hI).mono fun r' ⟨hge, hle⟩ => ⟨hle, by omega⟩
    · rw [List.length_cons] at hI ⊢
      omega

/-! ## U3 -/

theorem freqCount_ensures (IN : List Byte) : (freqCount IN).Ensures fun _ => True :=
  forEach_ensures trivial fun _ _ _ hj => (memRead_ensures (mem_range.mp hj).2).bind fun _ _ => trivial

theorem popMin_ensures {Q : List Entry} (h : 0 < Q.length) :
    (popMin Q).Ensures fun eQ => eQ.2.length + 1 = Q.length := by
  cases Q with
  | nil => cases h
  | cons e Q => rfl

theorem mergeStep_ensures {r : BuildTreeRegs} (h : 1 < r.Q.length) :
    (mergeStep r).Ensures fun r' => r'.Q.length + 1 = r.Q.length := by
  refine (popMin_ensures (by omega)).bind fun aQ ha => (popMin_ensures (by omega)).bind fun bQ hb => ?_
  rw [Run.ensures_ret, length_enqueue]
  omega

/-- Each merge takes one entry from the queue, and the last entry stays (42_tree_builder.md R155, R159). -/
theorem buildFrom_ensures (r : BuildTreeRegs) : (buildFrom r).Ensures fun _ => True := by
  unfold buildFrom
  split
  · trivial
  · trivial
  next hQ =>
    have hstart : 0 < r.Q.length := by rw [hQ]; exact Nat.succ_pos _
    have hmerges : (whileLoop r.Q.length mergeGoesOn mergeStep r).Ensures fun r' =>
        0 < r'.Q.length ∧ mergeGoesOn r' = false := by
      refine whileLoop_ensures (measure := fun r => r.Q.length) hstart le_rfl (fun r _ hc => ?_) fun r hI _ => hI
      have hlt : 1 < r.Q.length := of_decide_eq_true hc
      exact (mergeStep_ensures hlt).mono fun r' h => ⟨by omega, by omega⟩
    exact hmerges.bind fun r' ⟨hpos, _⟩ => (popMin_ensures hpos).bind fun _ _ => trivial

/-! ## U4 -/

theorem checkTree_ensures (T : Node) : (checkTree T).Ensures fun _ => allLeavesHaveSymbol T = true := by
  rcases checkTree_eq T with ⟨hwf, h⟩ | ⟨-, h⟩ <;> rw [h]
  · simp only [treeWF, Bool.and_eq_true] at hwf
    exact hwf.1.2
  · trivial

@[simp] theorem allLeavesHaveSymbol_branch (x : Option Byte) (f : Nat) (l r : Node) :
    allLeavesHaveSymbol (.branch x f l r) = (allLeavesHaveSymbol l && allLeavesHaveSymbol r) := by
  simp [allLeavesHaveSymbol, leaves]

theorem symbolOf_ensures {n : Node} (hleaf : isLeaf n = true) (h : allLeavesHaveSymbol n = true) :
    (symbolOf n).Ensures fun _ => True := by
  cases n with
  | leaf x f =>
    cases x with
    | none => cases h
    | some x => trivial
  | onlyLeft | onlyRight | branch => cases hleaf

theorem allLeavesHaveSymbol_childOf {n child : Node} {b : Bit} (h : allLeavesHaveSymbol n = true)
    (hc : childOf n b = some child) : allLeavesHaveSymbol child = true := by
  cases n with
  | leaf => cases b <;> cases hc
  | onlyLeft => cases b <;> cases hc; exact h
  | onlyRight => cases b <;> cases hc; exact h
  | branch x f l r =>
    rw [allLeavesHaveSymbol_branch, Bool.and_eq_true] at h
    cases b <;> cases hc
    · exact h.1
    · exact h.2

theorem walk_ensures {n : Node} (path : List Bit) (C : CodeTable) (h : allLeavesHaveSymbol n = true) :
    (walk n path C).Ensures fun _ => True := by
  induction n generalizing path C with
  | leaf x f => exact (symbolOf_ensures rfl h).bind fun _ _ => trivial
  | onlyLeft x f l ih => exact ih _ _ h
  | onlyRight x f r ih => exact ih _ _ h
  | branch x f l r ihl ihr =>
    rw [allLeavesHaveSymbol_branch, Bool.and_eq_true] at h
    exact (ihl _ _ h.1).bind fun C' _ => ihr _ C' h.2

theorem codeTable_ensures (T : Node) : (codeTable T).Ensures fun _ => True :=
  (checkTree_ensures T).bind fun _ hT => walk_ensures [] emptyCodes hT

theorem lookUp_ensures {IN : List Byte} (C : CodeTable) {j : Nat} (h : j < IN.length) :
    (lookUp IN C j).Ensures fun _ => True := by
  refine (memRead_ensures h).bind fun c _ => ?_
  split <;> trivial

theorem entEncode_ensures (cfg : Config) (IN : List Byte) (C : CodeTable) : (entEncode cfg IN C).Ensures fun _ => True :=
  forEach_ensures trivial fun OUT _ _ hj =>
    (lookUp_ensures C (mem_range.mp hj).2).bind fun code _ => appendAll_ensures cfg OUT code

/-- The walker stands in the tree: below it every leaf carries a symbol (43_entropy_codec.md R191). -/
theorem entDecodeBit_ensures (cfg : Config) {BITS : List Bit} {T : Node} {r : EntDecodeRegs} {j : Nat}
    (hj : j < BITS.length) (hT : allLeavesHaveSymbol T = true) (hcur : allLeavesHaveSymbol r.cur = true) :
    (entDecodeBit cfg BITS T r j).Ensures fun r' => allLeavesHaveSymbol r'.cur = true := by
  refine (memRead_ensures hj).bind fun b _ => ?_
  split
  · trivial
  next n hn =>
    have hsym := allLeavesHaveSymbol_childOf hcur hn
    split
    next hleaf => exact (symbolOf_ensures hleaf hsym).bind fun x _ => (append_ensures cfg r.OUT x).bind fun _ _ => hT
    · exact hsym

theorem entDecodeEnd_ensures (BITS : List Bit) (r : EntDecodeRegs) : (entDecodeEnd BITS r).Ensures fun _ => True := by
  unfold entDecodeEnd
  split <;> trivial

theorem entDecode_ensures (cfg : Config) (BITS : List Bit) (T : Node) : (entDecode cfg BITS T).Ensures fun _ => True := by
  refine (checkTree_ensures T).bind fun _ hT => ?_
  have hloop : (forEach (range 0 BITS.length) (entDecodeStart T) (entDecodeBit cfg BITS T)).Ensures
      fun r => allLeavesHaveSymbol r.cur = true :=
    forEach_ensures hT fun _ _ hcur hj => entDecodeBit_ensures cfg (mem_range.mp hj).2 hT hcur
  exact hloop.bind fun r _ => entDecodeEnd_ensures BITS r

/-! ## Commands -/

theorem finish_answers (s : State) {x : Run ResultBundle} (h : x.Ensures fun _ => True) :
    ∃ r, finish s x = .next (s.answer r) := by
  cases x with
  | ret v => exact ⟨_, rfl⟩
  | raise e n => exact ⟨_, rfl⟩
  | stop f => exact h.elim

theorem runCommand_answers {i : Instr} {body : Config → Operands → Run ResultBundle} {s : State} {c : Command}
    {rest : List Command} (hc : s.commands = c :: rest)
    (hbody : operandsRejected s.config i c.OPS = false → (body s.config c.OPS).Ensures fun _ => True) :
    ∃ r, runCommand i body s = .next (s.answer r) := by
  rw [runCommand_cons hc]
  split
  · exact ⟨_, rfl⟩
  next hrej => exact finish_answers s (hbody (Bool.eq_false_of_not_eq_true hrej))

/-- FIND_MATCH runs only with its cursor inside the input (30_encoding.md R78). -/
theorem cursor_lt_of_not_rejected {cfg : Config} {ops : Operands} (h : operandsRejected cfg .findMatch ops = false) :
    ops.pos < ops.IN.length := by
  obtain ⟨-, -, -, hpos⟩ := operandsRejected_eq_false.mp h
  exact Nat.lt_of_not_ge (of_decide_eq_false hpos)

/-- Every command issued is answered: one answer delivered, and no stop. -/
theorem exec_answers (i : Instr) {s : State} {c : Command} {rest : List Command} (hc : s.commands = c :: rest) :
    ∃ r, exec i s = .next (s.answer r) := by
  cases i with
  | findMatch =>
    exact runCommand_answers hc fun h => (matchCore_ensures _ (cursor_lt_of_not_rejected h)).bind fun _ _ => trivial
  | lzEncode => exact runCommand_answers hc fun _ => (lzEncode_ensures ..).map
  | lzDecode => exact runCommand_answers hc fun _ => (lzDecode_ensures ..).map
  | tokenFormat => exact runCommand_answers hc fun _ => (appendAll_ensures ..).map
  | tokenParse => exact runCommand_answers hc fun _ => ((parse_ensures ..).bind fun _ _ => appendAll_ensures ..).map
  | freqCount => exact runCommand_answers hc fun _ => (freqCount_ensures _).map
  | buildTree => exact runCommand_answers hc fun _ => (buildFrom_ensures _).map
  | codeTable => exact runCommand_answers hc fun _ => (codeTable_ensures _).map
  | entEncode => exact runCommand_answers hc fun _ => (entEncode_ensures ..).map
  | entDecode => exact runCommand_answers hc fun _ => (entDecode_ensures ..).map

/-- Every command word is answered, one of the ten or not (30_encoding.md R76, R77). -/
theorem runWord_answers {s : State} {c : Command} {rest : List Command} (hc : s.commands = c :: rest) :
    ∃ r, runWord s c = .next (s.answer r) := by
  unfold runWord
  split
  next i _ => exact exec_answers i hc
  · exact ⟨_, rfl⟩

theorem step_idle_nil {s : State} (hw : s.work = none) (hc : s.commands = []) : step s = .next s := by
  simp [step, hw, hc]

theorem resetInstance_idle {s : State} (hw : s.work = none) : resetInstance s = .next (State.build s.config) := by
  simp [resetInstance, hw]

/-! ## The statements -/

/-- Settles O7, from what reset does where no command is in progress. -/
theorem resetLeavesAnIdleInstance : Obligations.ResetLeavesAnIdleInstance :=
  ⟨rfl, fun _ hw => resetInstance_idle hw⟩

/-- Settles O11: an idle block waits where no command is issued, and otherwise delivers one answer. -/
theorem idleInstanceNeverStops : Obligations.IdleInstanceNeverStops := by
  intro s hw
  cases hc : s.commands with
  | nil => exact ⟨s, step_idle_nil hw hc, hw⟩
  | cons c rest =>
    obtain ⟨r, hr⟩ := runWord_answers hc
    exact ⟨s.answer r, (step_idle hw hc).trans hr, State.answer_work s r⟩

end Sys2Proof.Machine

/-!
PROOFS of the statements of 10_state.md: what a step leaves of the state, why the answer to a command depends on the
command and the configuration alone, and the invariant of the block.

The idea of the first two is one equation: a command, whatever its word, is `finish` applied to a run that reads the
configuration and the command only (`commandRun`). The invariant then asks, for each command, what its run returns.
-/

namespace Sys2Proof.Machine

/-! ## One step as one run -/

/-- The pseudocode of each command (30_encoding.md R75). -/
def commandBody : Instr → Config → Operands → Run ResultBundle
  | .findMatch => findMatchBody
  | .lzEncode => lzEncodeBody
  | .lzDecode => lzDecodeBody
  | .tokenFormat => tokenFormatBody
  | .tokenParse => tokenParseBody
  | .freqCount => freqCountBody
  | .buildTree => buildTreeBody
  | .codeTable => codeTableBody
  | .entEncode => entEncodeBody
  | .entDecode => entDecodeBody

/-- A command from its word to the end of its pseudocode: decode, operand checks, body (60_exceptions.md R215). -/
def commandRun (cfg : Config) (c : Command) : Run ResultBundle :=
  match decode c.CMD with
  | .ok i => if operandsRejected cfg i c.OPS then .raise .invalidArgument 0 else commandBody i cfg c.OPS
  | .error _ => .raise .illegalCommand 0

theorem exec_eq_runCommand (i : Instr) (s : State) : exec i s = runCommand i (commandBody i) s := by
  cases i <;> rfl

theorem runWord_eq_finish {s : State} {c : Command} {rest : List Command} (hc : s.commands = c :: rest) :
    runWord s c = finish s (commandRun s.config c) := by
  unfold runWord commandRun
  cases decode c.CMD with
  | error e => rfl
  | ok i =>
    simp only [exec_eq_runCommand, runCommand_cons hc]
    split <;> rfl

theorem step_eq_finish {s : State} {c : Command} {rest : List Command} (hw : s.work = none)
    (hc : s.commands = c :: rest) : step s = finish s (commandRun s.config c) :=
  (step_idle hw hc).trans (runWord_eq_finish hc)

theorem step_of_work {s : State} {w : Work} (hw : s.work = some w) : step s = tick s := by
  simp [step, hw]

/-- Every next state of `tick` inside a command: other working registers, or one answer. -/
theorem tick_next_of_work {s t : State} {w : Work} (hw : s.work = some w) (h : tick s = .next t) :
    (∃ w', t = { s with work := some w' }) ∨ ∃ r, t = s.answer r := by
  rcases hc : s.commands with _ | ⟨c, rest⟩
  · simp [tick, hw, hc] at h
  · have hsettle : settle s (microStep s.config c.OPS w) = .next t := by simpa [tick, hw, hc] using h
    exact (settle_next hsettle).imp_left fun ⟨w', _, ht⟩ => ⟨w', hc ▸ ht⟩

/-- Every next state of a step: the same state where the block waits, other working registers inside a command, or
one answer. -/
theorem step_next {s t : State} (h : step s = .next t) :
    t = s ∨ (∃ w, t = { s with work := some w }) ∨ ∃ r, t = s.answer r := by
  cases hw : s.work with
  | some w => exact .inr (tick_next_of_work hw (step_of_work hw ▸ h))
  | none =>
    cases hc : s.commands with
    | nil =>
      rw [step_idle_nil hw hc] at h
      cases h
      exact .inl rfl
    | cons c rest => exact .inr (.inr (finish_next (step_eq_finish hw hc ▸ h)))

/-! ## The answer a command gets alone -/

/-- `r` is the answer to `c` on a newly built block of configuration `cfg` (10_state.md R20). -/
def AnswersAlone (cfg : Config) (c : Command) (r : Response) : Prop :=
  step (issue c (State.build cfg)) = .next (answered cfg r)

theorem answersAlone_iff_finish {cfg : Config} {c : Command} {r : Response} :
    AnswersAlone cfg c r ↔
      finish (issue c (State.build cfg)) (commandRun cfg c) = .next ((issue c (State.build cfg)).answer r) := by
  unfold AnswersAlone
  rw [step_eq_finish (rest := []) rfl rfl]
  rfl

theorem exists_answersAlone (cfg : Config) (c : Command) : ∃ r, AnswersAlone cfg c r := by
  have hc : (issue c (State.build cfg)).commands = c :: [] := rfl
  obtain ⟨r, hr⟩ := runWord_answers hc
  exact ⟨r, answersAlone_iff_finish.mpr (runWord_eq_finish hc ▸ hr)⟩

theorem State.answer_inj {s : State} {r r' : Response} : s.answer r = s.answer r' ↔ r = r' := by
  simp [State.answer]

/-- The answer a run gives is read off the run, so every state it ends in carries the same one. -/
theorem finish_answer_congr {s : State} {x : Run ResultBundle} {r : Response} (h : finish s x = .next (s.answer r))
    (s' : State) : finish s' x = .next (s'.answer r) := by
  cases x with
  | ret v => cases State.answer_inj.mp (Host.Outcome.next.inj h); rfl
  | raise e n => cases State.answer_inj.mp (Host.Outcome.next.inj h); rfl
  | stop f => cases h

/-- Whatever ran before and whatever waits, a command gets the answer it gets alone (10_state.md R20). -/
theorem step_answer_of_answersAlone {s : State} {c : Command} {rest : List Command} {r : Response}
    (h : AnswersAlone s.config c r) (hw : s.work = none) (hc : s.commands = c :: rest) :
    step s = .next (s.answer r) :=
  (step_eq_finish hw hc).trans (finish_answer_congr (answersAlone_iff_finish.mp h) s)

/-! ## Sessions -/

/-- The idle block that has nothing left to run and has delivered the answers `rs` after those of `s`. -/
def State.drained (s : State) (rs : List Response) : State :=
  { config := s.config, commands := [], work := none, results := s.results ++ rs }

theorem State.drained_nil {s : State} (hw : s.work = none) (hc : s.commands = []) : s.drained [] = s := by
  cases s
  simp_all [State.drained]

theorem State.drained_answer (s : State) (r : Response) (rs : List Response) :
    (s.answer r).drained rs = s.drained (r :: rs) := by
  simp [State.drained]

/-- As many steps as commands wait answer them all, in issue order (20_memory.md R61). -/
theorem steps_answer_waiting (cs : List Command) {s : State} (hw : s.work = none) (hc : s.commands = cs) :
    ∃ rs, steps cs.length s = .next (s.drained rs) ∧ List.Forall₂ (AnswersAlone s.config) cs rs := by
  induction cs generalizing s with
  | nil => exact ⟨[], by rw [State.drained_nil hw hc]; rfl, .nil⟩
  | cons c cs ih =>
    obtain ⟨r, hr⟩ := exists_answersAlone s.config c
    obtain ⟨rs, hsteps, hrs⟩ := ih (s := s.answer r) rfl (congrArg List.tail hc)
    refine ⟨r :: rs, ?_, .cons hr hrs⟩
    rw [List.length_cons, steps_succ_next (step_answer_of_answersAlone hr hw hc), hsteps, State.drained_answer]

theorem session_cons_next {s s' : State} {c : Command} {cs : List Command} (h : step (issue c s) = .next s') :
    session s (c :: cs) = session s' cs := by
  simp [session, h]

/-- Commands issued one by one are answered one by one (20_memory.md R61). -/
theorem session_answers (cs : List Command) {s : State} (hw : s.work = none) (hc : s.commands = []) :
    ∃ rs, session s cs = .next (s.drained rs) ∧ List.Forall₂ (AnswersAlone s.config) cs rs := by
  induction cs generalizing s with
  | nil => exact ⟨[], by rw [State.drained_nil hw hc]; rfl, .nil⟩
  | cons c cs ih =>
    have hissued : (issue c s).commands = c :: [] := by rw [issue_commands, hc]; rfl
    obtain ⟨r, hr⟩ := exists_answersAlone s.config c
    obtain ⟨rs, hsession, hrs⟩ := ih (s := (issue c s).answer r) rfl (congrArg List.tail hissued)
    refine ⟨r :: rs, ?_, .cons hr hrs⟩
    rw [session_cons_next (step_answer_of_answersAlone hr hw hissued), hsession, State.drained_answer]
    rfl

/-- Two lists related element by element, read by index. -/
theorem AnswersAlone.of_getElem? {cfg : Config} {cs : List Command} {rs : List Response}
    (h : List.Forall₂ (AnswersAlone cfg) cs rs) {k : Nat} {c : Command} {r : Response} (hc : cs[k]? = some c)
    (hr : rs[k]? = some r) : AnswersAlone cfg c r := by
  obtain ⟨hk, rfl⟩ := List.getElem?_eq_some_iff.mp hc
  obtain ⟨hk', rfl⟩ := List.getElem?_eq_some_iff.mp hr
  exact h.get hk hk'

/-! ## Outputs within the cap (20_memory.md R60) -/

section Cap

variable {α : Type} {cfg : Config} {OUT OUT' : List α}

theorem withinCap_zero (cfg : Config) : WithinCap cfg 0 := fun _ _ => Nat.zero_le _

theorem append_withinCap {v : α} (h : append cfg OUT v = .ret OUT') : WithinCap cfg OUT'.length := by
  obtain ⟨hcap, rfl⟩ := append_eq_ret.mp h
  intro m hm
  rw [List.length_append, List.length_singleton]
  by_contra hlt
  have hreached := capReached_iff.mpr ⟨m, hm, show m ≤ OUT.length by omega⟩
  rw [hcap] at hreached
  cases hreached

theorem appendAll_withinCap {vs : List α} (hOUT : WithinCap cfg OUT.length) (h : appendAll cfg OUT vs = .ret OUT') :
    WithinCap cfg OUT'.length :=
  forEach_keeps (P := fun OUT => WithinCap cfg OUT.length) (fun _ _ _ _ _ h => append_withinCap h) hOUT h

end Cap

theorem lzEncode_withinCap {cfg : Config} {IN : List Byte} {w : Nat} {OUT : List Token}
    (h : lzEncode cfg IN w = .ret OUT) : WithinCap cfg OUT.length := by
  obtain ⟨r, hloop, rfl⟩ := Run.map_eq_ret.mp h
  refine (whileLoop_keeps (P := fun r => WithinCap cfg r.OUT.length) (fun r r' _ _ hbody => ?_) (withinCap_zero cfg)
    hloop).1
  obtain ⟨m, -, hbody⟩ := Run.bind_eq_ret.mp hbody
  obtain ⟨OUT, happend, hbody⟩ := Run.bind_eq_ret.mp hbody
  cases hbody
  exact append_withinCap happend

theorem copyRun_withinCap {cfg : Config} {offset length : Nat} {OUT OUT' : List Byte}
    (hOUT : WithinCap cfg OUT.length) (h : copyRun cfg offset length OUT = .ret OUT') : WithinCap cfg OUT'.length := by
  refine forEach_keeps (P := fun OUT => WithinCap cfg OUT.length) (fun _ _ _ _ _ hbody => ?_) hOUT h
  obtain ⟨b, -, happend⟩ := Run.bind_eq_ret.mp hbody
  exact append_withinCap happend

theorem appendLiteral_withinCap {cfg : Config} {literal : Option Byte} {OUT OUT' : List Byte}
    (hOUT : WithinCap cfg OUT.length) (h : appendLiteral cfg literal OUT = .ret OUT') : WithinCap cfg OUT'.length := by
  cases literal with
  | none => cases h; exact hOUT
  | some b => exact append_withinCap h

theorem lzDecodeToken_withinCap {cfg : Config} {TOK : List Token} {OUT OUT' : List Byte} {t : Nat}
    (hOUT : WithinCap cfg OUT.length) (h : lzDecodeToken cfg TOK OUT t = .ret OUT') : WithinCap cfg OUT'.length := by
  obtain ⟨tok, -, h⟩ := Run.bind_eq_ret.mp h
  obtain ⟨_, -, h⟩ := Run.bind_eq_ret.mp h
  obtain ⟨mid, hcopy, hliteral⟩ := Run.bind_eq_ret.mp h
  refine appendLiteral_withinCap ?_ hliteral
  split at hcopy
  · exact copyRun_withinCap hOUT hcopy
  · cases hcopy; exact hOUT

theorem lzDecode_withinCap {cfg : Config} {TOK : List Token} {OUT : List Byte} (h : lzDecode cfg TOK = .ret OUT) :
    WithinCap cfg OUT.length :=
  forEach_keeps (P := fun OUT => WithinCap cfg OUT.length) (fun _ _ _ hOUT _ h => lzDecodeToken_withinCap hOUT h)
    (withinCap_zero cfg) h

theorem tokenParse_withinCap {cfg : Config} {TEXT : List Byte} {OUT : List Token}
    (h : tokenParse cfg TEXT = .ret OUT) : WithinCap cfg OUT.length := by
  obtain ⟨S, -, happend⟩ := Run.bind_eq_ret.mp h
  exact appendAll_withinCap (OUT := []) (withinCap_zero cfg) happend

theorem entEncode_withinCap {cfg : Config} {IN : List Byte} {C : CodeTable} {OUT : List Bit}
    (h : entEncode cfg IN C = .ret OUT) : WithinCap cfg OUT.length := by
  refine forEach_keeps (P := fun OUT => WithinCap cfg OUT.length) (fun _ _ _ hOUT _ hbody => ?_) (withinCap_zero cfg) h
  obtain ⟨code, -, happend⟩ := Run.bind_eq_ret.mp hbody
  exact appendAll_withinCap hOUT happend

theorem entDecodeBit_withinCap {cfg : Config} {BITS : List Bit} {T : Node} {r r' : EntDecodeRegs} {j : Nat}
    (hOUT : WithinCap cfg r.OUT.length) (h : entDecodeBit cfg BITS T r j = .ret r') :
    WithinCap cfg r'.OUT.length := by
  obtain ⟨b, -, h⟩ := Run.bind_eq_ret.mp h
  split at h
  · cases h
  next n _ =>
    split at h
    · obtain ⟨x, -, h⟩ := Run.bind_eq_ret.mp h
      obtain ⟨OUT, happend, h⟩ := Run.bind_eq_ret.mp h
      cases h
      exact append_withinCap happend
    · cases h
      exact hOUT

theorem entDecodeEnd_eq_ret {BITS : List Bit} {r : EntDecodeRegs} {OUT : List Byte} :
    entDecodeEnd BITS r = .ret OUT ↔ r.depth = 0 ∧ OUT = r.OUT := by
  unfold entDecodeEnd
  split
  next hdepth => simp [Nat.ne_of_gt hdepth]
  next hdepth => simp [Nat.eq_zero_of_not_pos hdepth, eq_comm]

theorem entDecode_withinCap {cfg : Config} {BITS : List Bit} {T : Node} {OUT : List Byte}
    (h : entDecode cfg BITS T = .ret OUT) : WithinCap cfg OUT.length := by
  obtain ⟨_, -, h⟩ := Run.bind_eq_ret.mp h
  obtain ⟨r, hloop, hend⟩ := Run.bind_eq_ret.mp h
  obtain ⟨-, rfl⟩ := entDecodeEnd_eq_ret.mp hend
  exact forEach_keeps (P := fun r => WithinCap cfg r.OUT.length) (fun _ _ _ hOUT _ h => entDecodeBit_withinCap hOUT h)
    (withinCap_zero cfg) hloop

/-! ## The shape of a match (40_window_matcher.md R104) -/

/-- A candidate lies before the cursor, so a match that replaces another has a length and an offset. -/
theorem betterMatch_matchShape {IN : List Byte} {pos i run : Nat} {best m : Match} (hi : i < pos)
    (hbest : MatchShape best) (h : betterMatch IN pos i run best = .ret m) : MatchShape m := by
  unfold betterMatch at h
  split at h
  next hrun =>
    have hshape : ∀ lit, MatchShape { offset := pos - i, length := run, literal := lit } :=
      fun _ => ⟨by dsimp only; omega, fun _ => by dsimp only; omega⟩
    split at h
    · obtain ⟨b, -, h⟩ := Run.bind_eq_ret.mp h
      cases h
      exact hshape _
    · cases h
      exact hshape _
  · cases h
    exact hbest

theorem pureLiteral_matchShape {IN : List Byte} {pos : Nat} {m : Match} (h : pureLiteral IN pos = .ret m) :
    MatchShape m := by
  obtain ⟨b, -, h⟩ := Run.bind_eq_ret.mp h
  cases h
  exact ⟨.rfl, fun hlit => nomatch hlit⟩

theorem matchCore_matchShape {IN : List Byte} {pos w : Nat} {m : Match} (h : matchCore IN pos w = .ret m) :
    MatchShape m := by
  obtain ⟨start, hstart, hloop⟩ := Run.bind_eq_ret.mp h
  refine forEach_keeps (fun best i m hbest hi hbody => ?_) (pureLiteral_matchShape hstart) hloop
  obtain ⟨run, -, hbetter⟩ := Run.bind_eq_ret.mp hbody
  exact betterMatch_matchShape (mem_range.mp hi).2 hbest hbetter

/-! ## Paths and leaves (10_state.md R32) -/

@[simp] theorem nodeAt_nil (n : Node) : nodeAt n [] = some n := rfl

theorem nodeAt_cons (n : Node) (b : Bit) (bs : List Bit) :
    nodeAt n (b :: bs) = (childOf n b).bind fun c => nodeAt c bs := by
  simp only [nodeAt, childOf]
  cases (if b = true then n.right else n.left) <;> rfl

theorem nodeAt_append (n : Node) (p q : List Bit) : nodeAt n (p ++ q) = (nodeAt n p).bind fun m => nodeAt m q := by
  induction p generalizing n with
  | nil => rfl
  | cons b p ih =>
    rw [List.cons_append, nodeAt_cons, nodeAt_cons]
    cases childOf n b with
    | none => rfl
    | some c => exact ih c

/-- The node one step below the end of a path. -/
theorem nodeAt_snoc {T n c : Node} {path : List Bit} {b : Bit} (hn : nodeAt T path = some n)
    (hc : childOf n b = some c) : nodeAt T (path ++ [b]) = some c := by
  simp [nodeAt_append, hn, nodeAt_cons, hc]

theorem childOf_of_isLeaf {n : Node} (h : isLeaf n = true) (b : Bit) : childOf n b = none := by
  obtain ⟨hl, hr⟩ := isLeaf_iff.mp h
  cases b <;> assumption

/-- No path goes on below a leaf. -/
theorem nodeAt_of_isLeaf {n m : Node} {p : List Bit} (h : isLeaf n = true) (hp : nodeAt n p = some m) :
    p = [] ∧ m = n := by
  cases p with
  | nil => cases hp; exact ⟨rfl, rfl⟩
  | cons b p =>
    rw [nodeAt_cons, childOf_of_isLeaf h] at hp
    cases hp

theorem leafAt_iff {T : Node} {p : List Bit} {x : Byte} :
    LeafAt T p x ↔ ∃ n, nodeAt T p = some n ∧ isLeaf n = true ∧ n.symbol = some x := by
  simp only [LeafAt, isLeaf_iff, and_assoc]

/-- A leaf stands at the end of its path: no path to a leaf goes on to another. -/
theorem symbol_eq_of_isPrefix {T : Node} {p q : List Bit} {x y : Byte} (hp : LeafAt T p x) (hq : LeafAt T q y)
    (hpq : p <+: q) : x = y := by
  obtain ⟨n, hn, hleaf, hx⟩ := leafAt_iff.mp hp
  obtain ⟨m, hm, -, hy⟩ := leafAt_iff.mp hq
  obtain ⟨rest, rfl⟩ := hpq
  rw [nodeAt_append, hn] at hm
  obtain ⟨-, rfl⟩ := nodeAt_of_isLeaf hleaf hm
  exact Option.some.inj (hx.symm.trans hy)

/-- The leaves of a tree with their paths, left before right (43_entropy_codec.md R183). -/
def leafPaths : Node → List (List Bit × Node)
  | .leaf s f => [([], .leaf s f)]
  | .onlyLeft _ _ l => (leafPaths l).map (Prod.map (List.cons false) id)
  | .onlyRight _ _ r => (leafPaths r).map (Prod.map (List.cons true) id)
  | .branch _ _ l r =>
    (leafPaths l).map (Prod.map (List.cons false) id) ++ (leafPaths r).map (Prod.map (List.cons true) id)

theorem leaves_eq_map_leafPaths (n : Node) : leaves n = (leafPaths n).map Prod.snd := by
  induction n with
  | leaf s f => rfl
  | onlyLeft s f l ih => simp [leaves, leafPaths, ih]
  | onlyRight s f r ih => simp [leaves, leafPaths, ih]
  | branch s f l r ihl ihr =>
    simp only [leaves, leafPaths, ihl, ihr, List.map_append, List.map_map]
    rfl

theorem mem_map_cons {b : Bit} {L : List (List Bit × Node)} {p : List Bit} {m : Node} :
    (p, m) ∈ L.map (Prod.map (List.cons b) id) ↔ ∃ bs, p = b :: bs ∧ (bs, m) ∈ L := by
  simp only [List.mem_map, Prod.exists, Prod.map_apply, id_eq, Prod.mk.injEq]
  exact ⟨fun ⟨bs, _, hmem, hp, hm⟩ => ⟨bs, hp.symm, hm ▸ hmem⟩, fun ⟨bs, hp, hmem⟩ => ⟨bs, m, hmem, hp.symm, rfl⟩⟩

/-- A path from an internal node to a leaf takes a step to a child first. -/
theorem nodeAt_leaf_iff_of_not_isLeaf {n m : Node} {p : List Bit} (h : isLeaf n = false) :
    (nodeAt n p = some m ∧ isLeaf m = true) ↔
      ∃ b bs c, p = b :: bs ∧ childOf n b = some c ∧ nodeAt c bs = some m ∧ isLeaf m = true := by
  constructor
  · rintro ⟨hp, hm⟩
    cases p with
    | nil => cases hp; rw [h] at hm; cases hm
    | cons b bs =>
      rw [nodeAt_cons, Option.bind_eq_some_iff] at hp
      obtain ⟨c, hc, hbs⟩ := hp
      exact ⟨b, bs, c, rfl, hc, hbs, hm⟩
  · rintro ⟨b, bs, c, rfl, hc, hbs, hm⟩
    exact ⟨by rw [nodeAt_cons, hc]; exact hbs, hm⟩

/-- The paths listed are exactly those that lead to a leaf. -/
theorem mem_leafPaths {n m : Node} {p : List Bit} :
    (p, m) ∈ leafPaths n ↔ nodeAt n p = some m ∧ isLeaf m = true := by
  induction n generalizing p with
  | leaf s f =>
    constructor
    · intro h
      cases List.mem_singleton.mp h
      exact ⟨rfl, rfl⟩
    · rintro ⟨h, -⟩
      obtain ⟨rfl, rfl⟩ := nodeAt_of_isLeaf rfl h
      exact List.mem_singleton.mpr rfl
  | onlyLeft s f l ih =>
    rw [nodeAt_leaf_iff_of_not_isLeaf rfl, leafPaths, mem_map_cons]
    simp [childOf, Node.left, Node.right, ih]
  | onlyRight s f r ih =>
    rw [nodeAt_leaf_iff_of_not_isLeaf rfl, leafPaths, mem_map_cons]
    simp [childOf, Node.left, Node.right, ih]
  | branch s f l r ihl ihr =>
    rw [nodeAt_leaf_iff_of_not_isLeaf rfl, leafPaths, List.mem_append, mem_map_cons, mem_map_cons]
    simp [childOf, Node.left, Node.right, ihl, ihr]

theorem leafAt_iff_mem_leafPaths {T : Node} {p : List Bit} {x : Byte} :
    LeafAt T p x ↔ ∃ n, (p, n) ∈ leafPaths T ∧ n.symbol = some x := by
  simp only [leafAt_iff, mem_leafPaths, and_assoc]

theorem nodup_leafPaths (n : Node) : (leafPaths n).Nodup := by
  have hcons : ∀ b, Function.Injective (Prod.map (List.cons b) id : List Bit × Node → List Bit × Node) := fun b =>
    (List.cons_injective).prodMap Function.injective_id
  induction n with
  | leaf s f => exact List.nodup_singleton _
  | onlyLeft s f l ih => exact ih.map (hcons false)
  | onlyRight s f r ih => exact ih.map (hcons true)
  | branch s f l r ihl ihr =>
    refine (ihl.map (hcons false)).append (ihr.map (hcons true)) ?_
    rintro ⟨p, m⟩ hl hr
    obtain ⟨_, rfl, -⟩ := mem_map_cons.mp hl
    obtain ⟨_, hp, -⟩ := mem_map_cons.mp hr
    cases hp

/-! ## The tree check -/

/-- The symbols of the leaves, left before right; `none` for a leaf that carries none. -/
def leafSymbols (n : Node) : List (Option Byte) := (leaves n).map Node.symbol

theorem leafSymbols_eq_map_leafPaths (n : Node) : leafSymbols n = (leafPaths n).map fun pm => pm.2.symbol := by
  rw [leafSymbols, leaves_eq_map_leafPaths, List.map_map]
  rfl

theorem treeWF_iff {T : Node} :
    treeWF T = true ↔ isInternal T = true ∧ none ∉ leafSymbols T ∧ (leafSymbols T).Nodup := by
  simp [treeWF, allLeavesHaveSymbol, distinctLeafSymbols, leafSymbols, and_assoc, Option.isSome_iff_ne_none]

theorem isInternal_iff {T : Node} : isInternal T = true ↔ T.left ≠ none ∨ T.right ≠ none := by
  cases T <;> simp [isInternal, isLeaf, Node.left, Node.right]

/-- WF1 on paths. -/
theorem none_notMem_leafSymbols_iff {T : Node} :
    none ∉ leafSymbols T ↔ ∀ p n, nodeAt T p = some n → n.left = none → n.right = none → ∃ x, n.symbol = some x := by
  simp only [leafSymbols_eq_map_leafPaths, List.mem_map, Prod.exists, mem_leafPaths, isLeaf_iff, not_exists, not_and,
    ← Option.ne_none_iff_exists']
  exact ⟨fun h p n hn hl hr => h p n ⟨hn, hl, hr⟩, fun h p n ⟨hn, hl, hr⟩ => h p n hn hl hr⟩

/-- WF3 on paths, for a tree that meets WF1. -/
theorem nodup_leafSymbols_iff {T : Node} (hcarry : none ∉ leafSymbols T) :
    (leafSymbols T).Nodup ↔ ∀ p q x, LeafAt T p x → LeafAt T q x → p = q := by
  simp only [leafAt_iff_mem_leafPaths]
  rw [leafSymbols_eq_map_leafPaths] at hcarry ⊢
  rw [List.nodup_map_iff_inj_on (nodup_leafPaths T)]
  constructor
  · rintro hinj p q x ⟨n, hn, hnx⟩ ⟨m, hm, hmx⟩
    exact congrArg Prod.fst (hinj (p, n) hn (q, m) hm (hnx.trans hmx.symm))
  · rintro hpaths ⟨p, n⟩ hn ⟨q, m⟩ hm hsame
    obtain ⟨x, hx⟩ : ∃ x, n.symbol = some x :=
      Option.ne_none_iff_exists'.mp fun hnone => hcarry (List.mem_map.mpr ⟨(p, n), hn, hnone⟩)
    obtain rfl := hpaths p q x ⟨n, hn, hx⟩ ⟨m, hm, hsame.symm.trans hx⟩
    have hnm : n = m := Option.some.inj ((mem_leafPaths.mp hn).1.symm.trans (mem_leafPaths.mp hm).1)
    rw [hnm]

theorem treeWF_iff_wellFormedTree {T : Node} : treeWF T = true ↔ WellFormedTree T := by
  rw [treeWF_iff, isInternal_iff]
  constructor
  · rintro ⟨hroot, hcarry, hdistinct⟩
    exact ⟨none_notMem_leafSymbols_iff.mp hcarry, hroot, (nodup_leafSymbols_iff hcarry).mp hdistinct⟩
  · rintro ⟨hcarry, hroot, hdistinct⟩
    have hcarry := none_notMem_leafSymbols_iff.mpr hcarry
    exact ⟨hroot, hcarry, (nodup_leafSymbols_iff hcarry).mpr hdistinct⟩

/-! ## The codes of a tree do not begin one another (43_entropy_codec.md R184) -/

/-- Every code of `C` is a path to a leaf of `T` that carries the code's symbol (43_entropy_codec.md R183). -/
def CodesArePaths (T : Node) (C : CodeTable) : Prop := ∀ x p, tableGet C x = some p → LeafAt T p x

theorem codesArePaths_emptyCodes (T : Node) : CodesArePaths T emptyCodes := by
  intro x p h
  rw [tableGet_emptyCodes] at h
  cases h

theorem recordCode_codesArePaths {T n : Node} {path : List Bit} {C C' : CodeTable} (hn : nodeAt T path = some n)
    (hleaf : isLeaf n = true) (hC : CodesArePaths T C) (h : recordCode n path C = .ret C') : CodesArePaths T C' := by
  obtain ⟨y, hy, h⟩ := Run.bind_eq_ret.mp h
  cases h
  intro x p hp
  by_cases hxy : y = x
  · subst hxy
    rw [tableGet_tableSet_self] at hp
    cases hp
    exact leafAt_iff.mpr ⟨n, hn, hleaf, symbolOf_eq_ret.mp hy⟩
  · rw [tableGet_tableSet_ne hxy] at hp
    exact hC x p hp

/-- The walk from a node records the paths through that node. -/
theorem walk_codesArePaths {T n : Node} {path : List Bit} {C C' : CodeTable} (hn : nodeAt T path = some n)
    (hC : CodesArePaths T C) (h : walk n path C = .ret C') : CodesArePaths T C' := by
  induction n generalizing path C C' with
  | leaf s f => exact recordCode_codesArePaths hn rfl hC h
  | onlyLeft s f l ih => exact ih (nodeAt_snoc hn rfl) hC h
  | onlyRight s f r ih => exact ih (nodeAt_snoc hn rfl) hC h
  | branch s f l r ihl ihr =>
    obtain ⟨mid, hl, hr⟩ := Run.bind_eq_ret.mp h
    exact ihr (nodeAt_snoc hn rfl) (ihl (nodeAt_snoc hn rfl) hC hl) hr

theorem checkTree_eq_ret {T : Node} {u : Unit} (h : checkTree T = .ret u) : treeWF T = true := by
  rcases checkTree_eq T with ⟨hwf, -⟩ | ⟨-, hraise⟩
  · exact hwf
  · rw [hraise] at h
    cases h

theorem codeTable_codesArePaths {T : Node} {C : CodeTable} (h : codeTable T = .ret C) :
    treeWF T = true ∧ CodesArePaths T C := by
  obtain ⟨_, hcheck, hwalk⟩ := Run.bind_eq_ret.mp h
  exact ⟨checkTree_eq_ret hcheck, walk_codesArePaths (nodeAt_nil T) (codesArePaths_emptyCodes T) hwalk⟩

theorem CodesArePaths.prefixFree {T : Node} {C : CodeTable} (hroot : isInternal T = true) (hC : CodesArePaths T C) :
    PrefixFree C := by
  refine ⟨fun x hx => ?_, fun x y p q hxy hp hq hpq => hxy (symbol_eq_of_isPrefix (hC x p hp) (hC y q hq) hpq)⟩
  obtain ⟨n, hn, hleaf, -⟩ := leafAt_iff.mp (hC x [] hx)
  cases hn
  rw [isInternal, hleaf] at hroot
  cases hroot

theorem codeTable_prefixFree {T : Node} {C : CodeTable} (h : codeTable T = .ret C) : PrefixFree C := by
  obtain ⟨hwf, hC⟩ := codeTable_codesArePaths h
  exact hC.prefixFree (treeWF_iff.mp hwf).1

/-! ## The tree of the merges is well formed (42_tree_builder.md R159) -/

/-- The symbols of the leaves of all the trees in a queue. -/
def queueSymbols (Q : List Entry) : List (Option Byte) := Q.flatMap fun e => leafSymbols e.node

/-- The trees in the queue meet WF1 and WF3 of 10_state.md R32, taken together as one forest. -/
def ForestWF (Q : List Entry) : Prop := none ∉ queueSymbols Q ∧ (queueSymbols Q).Nodup

theorem forestWF_congr {Q Q' : List Entry} (h : (queueSymbols Q).Perm (queueSymbols Q')) :
    ForestWF Q ↔ ForestWF Q' := by
  rw [ForestWF, ForestWF, h.mem_iff, h.nodup_iff]

theorem queueSymbols_perm {Q Q' : List Entry} (h : Q.Perm Q') : (queueSymbols Q).Perm (queueSymbols Q') :=
  h.flatMap_right _

theorem leafSymbols_mergeNode (a b : Entry) :
    leafSymbols (mergeNode a b) = leafSymbols a.node ++ leafSymbols b.node := by
  simp [leafSymbols, mergeNode, leaves]

/-- A merge moves the leaves of two trees under one root and keeps them all (42_tree_builder.md R154). -/
theorem queueSymbols_merge (a b : Entry) (Q : List Entry) (n : Nat) :
    (queueSymbols (enqueue { node := mergeNode a b, seq := n } Q)).Perm (queueSymbols (a :: b :: Q)) := by
  refine (queueSymbols_perm (enqueue_perm _ Q)).trans (.of_eq ?_)
  simp [queueSymbols, leafSymbols_mergeNode]

theorem foldl_enqueue_perm (L Q : List Entry) : (L.foldl (fun Q e => enqueue e Q) Q).Perm (L ++ Q) := by
  induction L generalizing Q with
  | nil => exact .refl _
  | cons e L ih => exact (ih (enqueue e Q)).trans (((enqueue_perm e Q).append_left L).trans List.perm_middle)

/-- Seeding makes at most one leaf for each byte value, which carries it (42_tree_builder.md R152). -/
theorem queueSymbols_leafEntries_sublist (seq : Nat) (xfs : List (Byte × Nat)) :
    (queueSymbols (leafEntries seq xfs)).Sublist (xfs.map fun xf => some xf.1) := by
  induction xfs generalizing seq with
  | nil => exact .refl _
  | cons xf xfs ih =>
    unfold leafEntries
    split
    · exact (ih (seq + 1)).cons_cons _
    · exact (ih seq).cons _

theorem forestWF_seededEntries (F : FreqTable) : ForestWF (seededEntries F) := by
  have hfst : (symbols.zip F.toList).map (fun xf => some xf.1) = symbols.map some :=
    calc (symbols.zip F.toList).map (fun xf => some xf.1)
      _ = ((symbols.zip F.toList).map Prod.fst).map some := List.map_map.symm
      _ = symbols.map some := by rw [List.map_fst_zip (by simp [symbols])]
  have hsub := queueSymbols_leafEntries_sublist 0 (symbols.zip F.toList)
  rw [hfst] at hsub
  refine ⟨fun hnone => ?_, (nodup_symbols.map (Option.some_injective _)).sublist hsub⟩
  obtain ⟨x, -, hx⟩ := List.mem_map.mp (hsub.subset hnone)
  cases hx

theorem forestWF_seeded (F : FreqTable) : ForestWF (seeded F).Q := by
  have hperm : (seeded F).Q.Perm (seededEntries F) :=
    (foldl_enqueue_perm (seededEntries F) []).trans (.of_eq (List.append_nil _))
  exact (forestWF_congr (queueSymbols_perm hperm)).mpr (forestWF_seededEntries F)

/-- What every merge keeps: the forest is well formed, and once one tree is left, its root is internal. -/
def MergeInv (r : BuildTreeRegs) : Prop :=
  ForestWF r.Q ∧ (1 < r.Q.length ∨ ∀ e ∈ r.Q, isInternal e.node = true)

theorem mergeStep_keeps {r r' : BuildTreeRegs} (hr : MergeInv r) (h : mergeStep r = .ret r') : MergeInv r' := by
  obtain ⟨a, b, Q, hQ, rfl⟩ := mergeStep_eq_ret h
  refine ⟨(forestWF_congr (queueSymbols_merge a b Q r.nextSeq)).mpr (hQ ▸ hr.1), ?_⟩
  cases Q with
  | nil => exact .inr fun e he => by cases List.mem_singleton.mp he; rfl
  | cons c Q => exact .inl (by rw [length_enqueue]; exact Nat.succ_lt_succ (Nat.succ_pos _))

theorem treeWF_of_forestWF {e : Entry} (hroot : isInternal e.node = true) (h : ForestWF [e]) :
    treeWF e.node = true := by
  rw [ForestWF, queueSymbols, List.flatMap_singleton] at h
  exact treeWF_iff.mpr ⟨hroot, h⟩

theorem buildFrom_treeWF {r : BuildTreeRegs} {T : Node} (hr : ForestWF r.Q) (h : buildFrom r = .ret T) :
    treeWF T = true := by
  unfold buildFrom at h
  split at h
  · cases h
  next e hQ =>
    cases h
    rw [hQ] at hr
    exact treeWF_of_forestWF (e := { node := singleSymbolTree e, seq := 0 }) rfl hr
  next hQ =>
    obtain ⟨r', hloop, hpop⟩ := Run.bind_eq_ret.mp h
    have hstart : MergeInv r := ⟨hr, .inl (by rw [hQ]; exact Nat.succ_lt_succ (Nat.succ_pos _))⟩
    obtain ⟨⟨hforest, hroots⟩, hdone⟩ := whileLoop_keeps (fun r r' hr _ h => mergeStep_keeps hr h) hstart hloop
    have hlen : ¬ 1 < r'.Q.length := of_decide_eq_false hdone
    obtain ⟨⟨e, Q⟩, hmin, hT⟩ := Run.bind_eq_ret.mp hpop
    cases hT
    rw [popMin_eq_ret] at hmin
    obtain rfl : Q = [] := List.length_eq_zero_iff.mp (by rw [hmin, List.length_cons] at hlen; omega)
    rw [hmin] at hforest
    exact treeWF_of_forestWF (hroots.resolve_left hlen e (by rw [hmin]; exact List.mem_singleton_self e)) hforest

/-! ## The invariant -/

/-- The result of every command is one the rules allow (30_encoding.md R73). -/
theorem commandBody_bundleOk {i : Instr} {cfg : Config} {ops : Operands} {v : ResultBundle}
    (h : commandBody i cfg ops = .ret v) : BundleOk cfg v := by
  cases i <;> obtain ⟨out, hout, rfl⟩ := Run.map_eq_ret.mp h
  case findMatch => exact matchCore_matchShape hout
  case lzEncode => exact lzEncode_withinCap hout
  case lzDecode => exact lzDecode_withinCap hout
  case tokenFormat => exact appendAll_withinCap (OUT := []) (withinCap_zero cfg) hout
  case tokenParse => exact tokenParse_withinCap hout
  case freqCount => exact trivial
  case buildTree => exact buildFrom_treeWF (forestWF_seeded ops.F) hout
  case codeTable => exact codeTable_prefixFree hout
  case entEncode => exact entEncode_withinCap hout
  case entDecode => exact entDecode_withinCap hout

theorem commandRun_bundleOk {cfg : Config} {c : Command} {v : ResultBundle} (h : commandRun cfg c = .ret v) :
    BundleOk cfg v := by
  unfold commandRun at h
  split at h
  · split at h
    · cases h
    · exact commandBody_bundleOk h
  · cases h

theorem Err.code_range (e : Err) : 1 ≤ e.code.toNat ∧ e.code.toNat ≤ 9 := by
  cases e <;> decide

/-- The end of a command delivers an answer the rules allow, if its result is one. -/
theorem finish_next_responseOk {s t : State} {x : Run ResultBundle} (hx : ∀ v, x = .ret v → BundleOk s.config v)
    (h : finish s x = .next t) : ∃ r, t = s.answer r ∧ ResponseOk s.config r := by
  cases x with
  | ret v => cases h; exact ⟨_, rfl, .inl ⟨rfl, hx v rfl⟩⟩
  | raise e n =>
    cases h
    obtain ⟨hlow, hhigh⟩ := Err.code_range e
    exact ⟨_, rfl, .inr ⟨hlow, hhigh, n, rfl⟩⟩
  | stop f => cases h

theorem Inv.answer {s : State} {r : Response} (hs : Inv s) (hr : ResponseOk s.config r) : Inv (s.answer r) := by
  refine ⟨rfl, fun r' hr' => ?_⟩
  rcases List.mem_append.mp hr' with hold | hnew
  · exact hs.2 r' hold
  · cases List.mem_singleton.mp hnew
    exact hr

/-! ## The statements -/

/-- Settles O10: an idle block waits, or delivers one answer the rules allow. -/
theorem everyStepKeepsTheInvariant : Obligations.EveryStepKeepsTheInvariant := by
  intro s t hs hstep
  have hidle : s.work = none := hs.1
  cases hc : s.commands with
  | nil =>
    rw [step_idle_nil hidle hc] at hstep
    cases hstep
    exact hs
  | cons c rest =>
    rw [step_eq_finish hidle hc] at hstep
    obtain ⟨r, rfl, hr⟩ := finish_next_responseOk (fun _ => commandRun_bundleOk) hstep
    exact hs.answer hr

/-- Settles O12, from everything a step can leave of the state. -/
theorem noStepWritesTheConfiguration : Obligations.NoStepWritesTheConfiguration := by
  intro s t h
  obtain rfl | ⟨w, rfl⟩ | ⟨r, rfl⟩ := step_next h
  · rfl
  · rfl
  · exact State.answer_config s r

/-- Settles O13: both states give the answer the command gets alone. -/
theorem answersDoNotDependOnHistory : Obligations.AnswersDoNotDependOnHistory := by
  intro s₁ s₂ c rest₁ rest₂ hw₁ hw₂ hcfg hc₁ hc₂
  obtain ⟨r, hr⟩ := exists_answersAlone s₁.config c
  exact ⟨r, step_answer_of_answersAlone hr hw₁ hc₁, step_answer_of_answersAlone (hcfg ▸ hr) hw₂ hc₂⟩

/-- Settles O39, with the leaves listed together with their paths. -/
theorem treeCheckIsWellFormedness : Obligations.TreeCheckIsWellFormedness := fun _ => treeWF_iff_wellFormedTree

/-- Settles O58, by induction on the commands, issued one by one or all before the first step. -/
theorem sessionsAnswerInIssueOrder : Obligations.SessionsAnswerInIssueOrder := by
  constructor
  · intro s cs hw hc
    obtain ⟨rs, hsession, hrs⟩ := session_answers cs hw hc
    exact ⟨rs, hsession, hrs.length_eq.symm, fun k c r => AnswersAlone.of_getElem? hrs⟩
  · intro s cs hw
    obtain ⟨rs, hsteps, hrs⟩ :=
      steps_answer_waiting (s.commands ++ cs) (s := { s with commands := s.commands ++ cs }) hw rfl
    refine ⟨rs, ?_, by rw [← hrs.length_eq, List.length_append], fun k c r => AnswersAlone.of_getElem? hrs⟩
    rw [issueAll_eq, ← List.length_append]
    exact hsteps

end Sys2Proof.Machine

/-!
PROOFS of the statements of 20_memory.md: a command seen from outside is one transition, and its step machine does the
same within its bound; the blocks of a system do not interfere.

The idea is one simulation relation, `WorkYields`: from the working registers of a command, so many ticks at most give
the result of a run of its pseudocode. It has one rule for each way the pseudocode is put together: what one tick does,
a `for`, a `while`. One lemma for each loop of the pseudocode then says which registers stand for which point of the run.
-/

namespace Sys2Proof.Machine

/-! ## The simulation relation and its rules -/

/-- From the working registers `w`, at most `m` ticks that go on, and one that ends the command, give the result `x` of
a run of pseudocode. Nothing is asked where that run stops the model, which no command does (`exec_answers`). -/
inductive WorkYields (cfg : Config) (ops : Operands) : Nat → Work → Run ResultBundle → Prop where
  | ends {m : Nat} {w : Work} {x : Run ResultBundle} (h : microStep cfg ops w = x.map .done) : WorkYields cfg ops m w x
  | goes {m : Nat} {w w' : Work} {x : Run ResultBundle} (h : microStep cfg ops w = .ret (.more w'))
      (h' : WorkYields cfg ops m w' x) : WorkYields cfg ops (m + 1) w x
  | stops {m : Nat} {w : Work} {f : Fault} : WorkYields cfg ops m w (.stop f)

namespace WorkYields

variable {cfg : Config} {ops : Operands} {α ρ : Type} {m n : Nat} {w : Work} {x : Run ResultBundle}

theorem mono (h : WorkYields cfg ops m w x) (hmn : m ≤ n) : WorkYields cfg ops n w x := by
  induction h generalizing n with
  | ends h => exact .ends h
  | goes h _ ih =>
    obtain ⟨n, rfl⟩ : ∃ n', n = n' + 1 := ⟨n - 1, by omega⟩
    exact .goes h (ih (Nat.le_of_succ_le_succ hmn))
  | stops => exact .stops

/-- What a tick does first, and the pseudocode too: where it returns nothing, both are at their end. -/
theorem bind_of_tick {y : Run α} {g : α → Run Micro} {k : α → Run ResultBundle} (h : microStep cfg ops w = y.bind g)
    (hk : ∀ v, y = .ret v → microStep cfg ops w = g v → WorkYields cfg ops m w (k v)) :
    WorkYields cfg ops m w (y.bind k) := by
  cases y with
  | ret v => exact hk v rfl h
  | raise e n => exact .ends h
  | stop f => exact .stops

/-- A tick that runs `y` and goes on does the part `y` of the pseudocode. -/
theorem bind_of_goes {y : Run α} {g : α → Work} {k : α → Run ResultBundle}
    (h : microStep cfg ops w = y.bind fun v => .ret (.more (g v)))
    (hk : ∀ v, y = .ret v → WorkYields cfg ops m (g v) (k v)) : WorkYields cfg ops (m + 1) w (y.bind k) :=
  bind_of_tick h fun v hv hmore => .goes hmore (hk v hv)

/-- A row of ticks that do nothing the pseudocode shows. -/
theorem goes_until {b e : Nat} {ws : Nat → Work} (hgo : ∀ j < b, microStep cfg ops (ws j) = .ret (.more (ws (j + 1))))
    (hend : WorkYields cfg ops e (ws b) x) {j : Nat} (hj : j ≤ b) : WorkYields cfg ops (e + (b - j)) (ws j) x := by
  induction hj using Nat.decreasingInduction with
  | self => exact hend.mono (Nat.le_add_right _ _)
  | of_succ j hj ih => exact (goes (hgo j hj) ih).mono (by omega)

/-- The rule of `for`: registers `w` with `W j r w` stand for the loop at index `j` with registers `r`, and the
iteration at `j` takes at most `cost j` ticks. -/
theorem forEach_range {b e : Nat} {body : ρ → Nat → Run ρ} {W : Nat → ρ → Work → Prop} {cost : Nat → Nat}
    {k : ρ → Run ResultBundle}
    (hbody : ∀ j r w m k', j < b → W j r w → (∀ r' w', W (j + 1) r' w' → WorkYields cfg ops m w' (k' r')) →
      WorkYields cfg ops (m + cost j) w ((body r j).bind k'))
    (hend : ∀ r w, W b r w → WorkYields cfg ops e w (k r)) {j : Nat} (hj : j ≤ b) {r : ρ} (hw : W j r w) :
    WorkYields cfg ops (e + ((range j b).map cost).sum) w ((forEach (range j b) r body).bind k) := by
  induction hj using Nat.decreasingInduction generalizing r w with
  | self => rw [range_of_le le_rfl]; exact hend r w hw
  | of_succ j hj ih =>
    rw [range_succ hj, forEach_cons, Run.bind_assoc, List.map_cons, List.sum_cons, Nat.add_comm (cost j), ← Nat.add_assoc]
    exact hbody j r w _ _ hj hw fun r' w' hw' => ih hw'

/-- The rule of `for` where an iteration takes one tick. -/
theorem forEach_range_one {b e : Nat} {body : ρ → Nat → Run ρ} {W : Nat → ρ → Work → Prop} {k : ρ → Run ResultBundle}
    (hbody : ∀ j r w m k', j < b → W j r w → (∀ r' w', W (j + 1) r' w' → WorkYields cfg ops m w' (k' r')) →
      WorkYields cfg ops (m + 1) w ((body r j).bind k'))
    (hend : ∀ r w, W b r w → WorkYields cfg ops e w (k r)) {j : Nat} (hj : j ≤ b) {r : ρ} (hw : W j r w) :
    WorkYields cfg ops (e + (b - j)) w ((forEach (range j b) r body).bind k) := by
  simpa using forEach_range (cost := fun _ => 1) hbody hend hj hw

/-- The rule of a row of appends, one a tick: the registers `ws j OUT'` stand for `j` of the elements appended. -/
theorem appendAll {e : Nat} {OUT vs : List α} {ws : Nat → List α → Work} {k : List α → Run ResultBundle}
    (hgo : ∀ j OUT' v, OUT'.length = OUT.length + j → vs[j]? = some v →
      microStep cfg ops (ws j OUT') = (append cfg OUT' v).bind fun OUT' => .ret (.more (ws (j + 1) OUT')))
    (hend : ∀ OUT', OUT'.length = OUT.length + vs.length → WorkYields cfg ops e (ws vs.length OUT') (k OUT')) :
    WorkYields cfg ops (e + vs.length) (ws 0 OUT) ((Machine.appendAll cfg OUT vs).bind k) := by
  rw [Machine.appendAll, ← forEach_range_memRead]
  refine forEach_range_one (W := fun j OUT' w => w = ws j OUT' ∧ OUT'.length = OUT.length + j) ?_ ?_ (Nat.zero_le _)
    ⟨rfl, rfl⟩
  · rintro j OUT' _ m k' hj ⟨rfl, hlen⟩ hk
    rw [memRead_of_lt hj, Run.ret_bind]
    refine bind_of_goes (hgo j OUT' _ hlen (List.getElem?_eq_getElem hj)) fun OUT'' happend => hk OUT'' _ ⟨rfl, ?_⟩
    obtain ⟨-, rfl⟩ := append_eq_ret.mp happend
    rw [List.length_append, hlen, Nat.add_assoc]
    rfl
  · rintro OUT' _ ⟨rfl, hlen⟩
    exact hend OUT' hlen

/-- The rule of `while` where an iteration takes one tick and the end of the loop is the end of the command. -/
theorem whileLoop {cond : ρ → Bool} {body : ρ → Run ρ} {W : ρ → Work → Prop} {k : ρ → Run ResultBundle}
    (hbody : ∀ r w m k', W r w → cond r = true → (∀ r' w', W r' w' → WorkYields cfg ops m w' (k' r')) →
      WorkYields cfg ops (m + 1) w ((body r).bind k'))
    (hend : ∀ r w, W r w → cond r = false → WorkYields cfg ops 0 w (k r)) (bound : Nat) {r : ρ} (hw : W r w) :
    WorkYields cfg ops bound w ((Machine.whileLoop bound cond body r).bind k) := by
  cases hc : cond r with
  | false => rw [whileLoop_done hc]; exact (hend r w hw hc).mono (Nat.zero_le _)
  | true =>
    induction bound generalizing r w with
    | zero => simpa [Machine.whileLoop, hc] using stops
    | succ bound ih =>
      rw [whileLoop_goes hc, Run.bind_assoc]
      refine hbody r w _ _ hw hc fun r' w' hw' => ?_
      cases hc' : cond r' with
      | false => rw [whileLoop_done hc']; exact (hend r' w' hw' hc').mono (Nat.zero_le _)
      | true => exact ih hw' hc'

end WorkYields

/-! ## From ticks inside a command to ticks of the block -/

/-- The state with the command issued first in progress, its working registers `w`. -/
def State.working (s : State) (w : Work) : State := { s with work := some w }

theorem ticks_succ_next {n : Nat} {s s' : State} (h : tick s = .next s') : ticks (n + 1) s = ticks n s' := by
  simp [ticks, h]

theorem ticks_one (s : State) : ticks 1 s = tick s := by
  unfold ticks
  cases tick s <;> rfl

theorem settle_done (s : State) (w : Work) (x : Run ResultBundle) : settle (s.working w) (x.map .done) = finish s x := by
  cases x <;> rfl

section Ticks

variable {s : State} {c : Command} {rest : List Command}

theorem tick_working (hc : s.commands = c :: rest) (w : Work) :
    tick (s.working w) = settle (s.working w) (microStep s.config c.OPS w) := by
  simp [tick, State.working, hc]

theorem tick_idle (hw : s.work = none) (hc : s.commands = c :: rest) : tick s = beginCommand s c := by
  simp [tick, hw, hc]

/-- The ticks of a command in progress: at its end they do what the end of its pseudocode does, and before it only the
working registers change. -/
theorem ticks_of_workYields {m : Nat} {w : Work} {x : Run ResultBundle} (hc : s.commands = c :: rest)
    (hx : ∀ f, x ≠ .stop f) (h : WorkYields s.config c.OPS m w x) :
    ∃ n ≤ m + 1, ticks n (s.working w) = finish s x ∧ ∀ j < n, ∃ w', ticks j (s.working w) = .next (s.working w') := by
  induction h with
  | @ends m w x h =>
    refine ⟨1, Nat.le_add_left 1 m, ?_, fun j hj => ⟨w, ?_⟩⟩
    · rw [ticks_one, tick_working hc, h, settle_done]
    · rw [Nat.lt_one_iff.mp hj]; rfl
  | @goes m w w' x h _ ih =>
    obtain ⟨n, hn, hend, hbefore⟩ := ih hx
    have htick : tick (s.working w) = .next (s.working w') := by rw [tick_working hc, h]; rfl
    refine ⟨n + 1, Nat.succ_le_succ hn, by rw [ticks_succ_next htick, hend], fun j hj => ?_⟩
    cases j with
    | zero => exact ⟨w, rfl⟩
    | succ j => rw [ticks_succ_next htick]; exact hbefore j (Nat.lt_of_succ_lt_succ hj)
  | stops => exact (hx _ rfl).elim

/-- Where the tick that starts a command also ends it, one tick does what the step does. -/
theorem one_tick_does (h : tick s = step s) (m : Nat) :
    ∃ n, n ≤ m + 2 ∧ ticks n s = step s ∧
      ∀ j < n, ∃ t, ticks j s = .next t ∧ t.results = s.results ∧ t.commands = s.commands ∧ t.config = s.config := by
  refine ⟨1, by omega, (ticks_one s).trans h, fun j hj => ⟨s, ?_, rfl, rfl, rfl⟩⟩
  rw [Nat.lt_one_iff.mp hj]; rfl

end Ticks

/-- A step machine does its command when its start is the first part `y` of the pseudocode, and from the registers it
starts with the ticks give the rest `k` of the pseudocode within the bound. -/
theorem stepMachineDoes_of_workYields {i : Instr} {α : Type} {y : Operands → Run α} {g : Operands → α → Work}
    {k : Config → Operands → α → Run ResultBundle}
    (hstart : ∀ ops, startWork i ops = (y ops).bind fun v => .ret (g ops v))
    (hbody : ∀ cfg ops, commandBody i cfg ops = (y ops).bind (k cfg ops))
    (hwork : ∀ cfg ops v, operandsRejected cfg i ops = false →
      WorkYields cfg ops (stepBound cfg i ops) (g ops v) (k cfg ops v)) : StepMachineDoes i := by
  intro s c rest hw hc hi
  have hstep : step s = finish s (commandRun s.config c) := step_eq_finish hw hc
  have htick : tick s = beginCommand s c := tick_idle hw hc
  obtain ⟨r, hr⟩ := runWord_answers hc
  have hanswers : step s = .next (s.answer r) := (step_idle hw hc).trans hr
  rw [commandRun, hi] at hstep
  rw [beginCommand, hi] at htick
  cases hrej : operandsRejected s.config i c.OPS with
  | true =>
    simp only [hrej, if_true] at hstep htick
    exact one_tick_does (htick.trans hstep.symm) _
  | false =>
    simp only [hrej, Bool.false_eq_true, if_false, hstart, hbody] at hstep htick
    cases hy : y c.OPS with
    | raise e n => rw [hy] at hstep htick; exact one_tick_does (htick.trans hstep.symm) _
    | stop f => rw [hy] at hstep htick; exact one_tick_does (htick.trans hstep.symm) _
    | ret v =>
      rw [hy, Run.ret_bind] at hstep htick
      have hx : ∀ f, k s.config c.OPS v ≠ .stop f := fun f hf => by
        rw [hstep, hf] at hanswers
        cases hanswers
      obtain ⟨n, hn, hend, hbefore⟩ := ticks_of_workYields hc hx (hwork s.config c.OPS v hrej)
      have hnext : tick s = .next (s.working (g c.OPS v)) := htick
      refine ⟨n + 1, Nat.succ_le_succ hn, by rw [ticks_succ_next hnext, hend, hstep], fun j hj => ?_⟩
      cases j with
      | zero => exact ⟨s, rfl, rfl, rfl, rfl⟩
      | succ j =>
        obtain ⟨w', hw'⟩ := hbefore j (Nat.lt_of_succ_lt_succ hj)
        exact ⟨s.working w', by rw [ticks_succ_next hnext, hw'], rfl, rfl, rfl⟩

/-- The same for a command whose start does nothing of the pseudocode. -/
theorem stepMachineDoes_of_start {i : Instr} {w : Operands → Work} (hstart : ∀ ops, startWork i ops = .ret (w ops))
    (hwork : ∀ cfg ops, WorkYields cfg ops (stepBound cfg i ops) (w ops) (commandBody i cfg ops)) :
    StepMachineDoes i :=
  stepMachineDoes_of_workYields (y := fun _ => .ret ()) (g := fun ops _ => w ops) hstart (fun _ _ => rfl)
    fun cfg ops _ _ => hwork cfg ops

/-- Entries read by index, one after another, are the entries. -/
theorem map_range_getElem? {α β : Type} (B : List α) (g : Option α → β) :
    (range 0 B.length).map (fun j => g B[j]?) = B.map fun x => g (some x) := by
  apply List.ext_getElem
  · simp
  · intro j _ hj
    have hj : j < B.length := by simpa using hj
    simp [range, List.getElem?_eq_getElem hj]

/-! ## FIND_MATCH -/

/-- The registers at candidate `i` with run length `run`. -/
def candidateAt (limit i run : Nat) (best : Match) : Work :=
  .findMatch { i := i, run := run, best := best, limit := limit }

/-- One tick a comparison: at most one more than the run length can still grow (40_window_matcher.md R110). -/
theorem runLenFrom_workYields {cfg : Config} {ops : Operands} {limit i m : Nat} {best : Match}
    {k : Match → Run ResultBundle} (hi : i < ops.pos)
    (hnext : ∀ best', WorkYields cfg ops m (candidateAt limit (i + 1) 0 best') (k best')) {bound run : Nat}
    (hbound : limit ≤ ops.pos + run + bound) :
    WorkYields cfg ops (m + bound + 1) (candidateAt limit i run best)
      ((runLenFrom ops.IN i ops.pos limit bound run).bind fun run => (betterMatch ops.IN ops.pos i run best).bind k) := by
  have htick : ∀ run, microStep cfg ops (candidateAt limit i run best) =
      (runGoesOn ops.IN i ops.pos limit run).bind fun more =>
        if more then .ret (.more (candidateAt limit i (run + 1) best))
        else (betterMatch ops.IN ops.pos i run best).bind fun best' => .ret (.more (candidateAt limit (i + 1) 0 best')) :=
    fun run => if_pos hi
  have hlast : ∀ run, microStep cfg ops (candidateAt limit i run best) =
      ((betterMatch ops.IN ops.pos i run best).bind fun best' => .ret (.more (candidateAt limit (i + 1) 0 best'))) →
      WorkYields cfg ops (m + 1) (candidateAt limit i run best) ((betterMatch ops.IN ops.pos i run best).bind k) :=
    fun run h => .bind_of_goes h fun best' _ => hnext best'
  induction bound generalizing run with
  | zero =>
    have hmore : runGoesOn ops.IN i ops.pos limit run = .ret false := if_neg (by omega)
    exact hlast run (by rw [htick, hmore]; rfl)
  | succ bound ih =>
    rw [runLenFrom, Run.bind_assoc]
    refine .bind_of_tick (htick run) fun more _ hgo => ?_
    cases more with
    | true => exact .goes hgo (ih (by omega))
    | false => exact (hlast run hgo).mono (by omega)

theorem matchCore_workYields (cfg : Config) (ops : Operands) (best : Match) (hpos : ops.pos < ops.IN.length) :
    WorkYields cfg ops (stepBound cfg .findMatch ops)
      (candidateAt (runLimit ops.pos ops.windowSize ops.IN.length) (lo ops.pos ops.windowSize) 0 best)
      ((forEach (range (lo ops.pos ops.windowSize) ops.pos) best fun best i =>
        (runLen ops.IN i ops.pos (runLimit ops.pos ops.windowSize ops.IN.length)).bind fun run =>
          betterMatch ops.IN ops.pos i run best).bind fun best => .ret (.found best)) := by
  generalize hlimit : runLimit ops.pos ops.windowSize ops.IN.length = limit
  have hlen : limit - ops.pos = min ops.windowSize (ops.IN.length - ops.pos) := by rw [← hlimit, runLimit]; omega
  have hlo : ops.pos - lo ops.pos ops.windowSize = min ops.pos ops.windowSize := by rw [lo]; split <;> omega
  have hbound : stepBound cfg .findMatch ops =
      0 + ((range (lo ops.pos ops.windowSize) ops.pos).map fun _ => limit - ops.pos + 1).sum := by
    simp [stepBound, hlen, hlo]
  rw [hbound]
  refine WorkYields.forEach_range (W := fun i best w => w = candidateAt limit i 0 best) ?_ ?_ ?_ rfl
  · rintro i best _ m k hi rfl hk
    rw [Run.bind_assoc]
    exact runLenFrom_workYields hi (fun best' => hk best' _ rfl) (by omega)
  · rintro best _ rfl
    exact .ends (if_neg (Nat.lt_irrefl _))
  · rw [lo]; split <;> omega

/-- Settles O53: the start reads the pure literal, and the ticks go through the candidates. -/
theorem findMatchStepMachine : Obligations.FindMatchStepMachine :=
  stepMachineDoes_of_workYields (fun _ => rfl) (fun _ _ => Run.bind_assoc ..) fun cfg ops best h =>
    matchCore_workYields cfg ops best (cursor_lt_of_not_rejected h)

/-! ## LZ_ENCODE -/

theorem lzEncode_workYields (cfg : Config) (ops : Operands) :
    WorkYields cfg ops (stepBound cfg .lzEncode ops) (.lzEncode lzEncodeStart) (lzEncodeBody cfg ops) := by
  rw [lzEncodeBody, lzEncode, Run.map, Run.map, Run.bind_assoc]
  refine WorkYields.whileLoop (W := fun r w => w = .lzEncode r) ?_ ?_ _ rfl
  · rintro r _ m k rfl hc hk
    exact .bind_of_goes (if_pos hc) fun r' _ => hk r' _ rfl
  · rintro r _ rfl hc
    exact .ends (if_neg (by rw [hc]; exact Bool.false_ne_true))

/-! ## LZ_DECODE -/

/-- The registers before token `t`, or at the end, with the output `OUT`. What the copies before left in `src` and `k`
does not matter. -/
def BeforeToken (t : Nat) (OUT : List Byte) (w : Work) : Prop :=
  ∃ src k, w = .lzDecode { t := t, OUT := OUT, src := src, k := k, phase := .check }

section LzDecode

variable {cfg : Config} {ops : Operands} {m t : Nat} {tok : Token} {k : List Byte → Run ResultBundle}

/-- At most one tick for the literal (41_dictionary_codec.md R134). -/
theorem appendLiteral_workYields (htok : memRead ops.TOK t = .ret tok)
    (hnext : ∀ OUT w, BeforeToken (t + 1) OUT w → WorkYields cfg ops m w (k OUT)) (OUT : List Byte) (src : Option Nat)
    (j : Nat) (phase : LzPhase) :
    WorkYields cfg ops (m + 1) (.lzDecode (lzLiteralOrNext tok { t := t, OUT := OUT, src := src, k := j, phase := phase }))
      ((appendLiteral cfg tok.literal OUT).bind k) := by
  unfold lzLiteralOrNext
  cases hlit : tok.literal with
  | none => exact (hnext OUT _ ⟨src, j, rfl⟩).mono (Nat.le_succ m)
  | some b =>
    refine .bind_of_goes (g := fun OUT => .lzDecode { t := t + 1, OUT := OUT, src := src, k := j, phase := .check }) ?_
      fun OUT' _ => hnext OUT' _ ⟨src, j, rfl⟩
    simp [microStep, lzDecodeTick, htok, hlit]

/-- The registers before byte `j` of the copy of token `t`, or after the copy. -/
def BeforeCopy (t : Nat) (tok : Token) (j : Nat) (OUT : List Byte) (w : Work) : Prop :=
  ∃ src, w = .lzDecode (if j < tok.length then { t := t, OUT := OUT, src := src, k := j, phase := .copy }
    else lzLiteralOrNext tok { t := t, OUT := OUT, src := src, k := j, phase := .copy })

/-- One tick a copied byte (41_dictionary_codec.md R134). -/
theorem copyRun_workYields (htok : memRead ops.TOK t = .ret tok)
    (hnext : ∀ OUT w, BeforeToken (t + 1) OUT w → WorkYields cfg ops m w (k OUT)) {OUT : List Byte} {w : Work}
    (hw : BeforeCopy t tok 0 OUT w) :
    WorkYields cfg ops (m + 1 + tok.length) w
      ((copyRun cfg tok.offset tok.length OUT).bind fun OUT => (appendLiteral cfg tok.literal OUT).bind k) := by
  refine WorkYields.forEach_range_one (W := BeforeCopy t tok) ?_ ?_ (Nat.zero_le _) hw
  · rintro j OUT _ m k hj ⟨src, rfl⟩ hk
    rw [if_pos hj]
    refine .bind_of_goes ?_ fun OUT' _ => hk OUT' _ ⟨some (OUT.length - tok.offset), rfl⟩
    simp only [microStep, lzDecodeTick, htok, Run.ret_bind, readRegister, copyByte, Run.bind_assoc]
    congr 1; funext b; congr 1; funext OUT'
    split <;> rfl
  · rintro OUT _ ⟨src, rfl⟩
    rw [if_neg (Nat.lt_irrefl _)]
    exact appendLiteral_workYields htok hnext ..

/-- A token takes its check, a tick for each byte it copies, and one for its literal (41_dictionary_codec.md R134). -/
theorem lzDecodeToken_workYields (hnext : ∀ OUT w, BeforeToken (t + 1) OUT w → WorkYields cfg ops m w (k OUT))
    (ht : t < ops.TOK.length) {OUT : List Byte} {w : Work} (hw : BeforeToken t OUT w) :
    WorkYields cfg ops (m + ops.TOK[t]?.elim 0 fun tok => 2 + tok.length) w
      ((lzDecodeToken cfg ops.TOK OUT t).bind k) := by
  obtain ⟨src, j, rfl⟩ := hw
  have htok := memRead_of_lt ht
  rw [List.getElem?_eq_getElem ht]
  generalize ops.TOK[t] = tok at htok ⊢
  simp only [lzDecodeToken, htok, Run.ret_bind, Run.bind_assoc, Option.elim_some]
  have htick : microStep cfg ops (.lzDecode { t := t, OUT := OUT, src := src, k := j, phase := .check }) =
      (acceptToken ops.TOK.length t OUT.length tok).bind fun _ => .ret (.more (.lzDecode
        (if tok.offset > 0 ∧ tok.length > 0 then { t := t, OUT := OUT, src := src, k := 0, phase := .copy }
        else lzLiteralOrNext tok { t := t, OUT := OUT, src := src, k := j, phase := .check }))) := by
    simp only [microStep, lzDecodeTick, if_pos ht, htok, Run.ret_bind]
    congr 1; funext _
    split <;> rfl
  rw [show m + (2 + tok.length) = m + 1 + tok.length + 1 by omega]
  refine .bind_of_goes htick fun _ _ => ?_
  by_cases hoff : tok.offset > 0
  · by_cases hlen : tok.length > 0
    · rw [if_pos ⟨hoff, hlen⟩, if_pos hoff]
      exact copyRun_workYields htok hnext ⟨src, by rw [if_pos hlen]⟩
    · have hzero : tok.length = 0 := Nat.eq_zero_of_not_pos hlen
      rw [if_neg fun h => hlen h.2, if_pos hoff, copyRun, hzero]
      exact appendLiteral_workYields htok hnext ..
  · rw [if_neg fun h => hoff h.1, if_neg hoff]
    exact (appendLiteral_workYields htok hnext ..).mono (Nat.le_add_right _ _)

end LzDecode

theorem lzDecode_workYields (cfg : Config) (ops : Operands) :
    WorkYields cfg ops (stepBound cfg .lzDecode ops)
      (.lzDecode { t := 0, OUT := [], src := none, k := 0, phase := .check }) (lzDecodeBody cfg ops) := by
  have hbound : stepBound cfg .lzDecode ops =
      0 + ((range 0 ops.TOK.length).map fun t => ops.TOK[t]?.elim 0 fun tok => 2 + tok.length).sum := by
    rw [map_range_getElem? ops.TOK fun tok? => tok?.elim 0 fun tok => 2 + tok.length]
    simp only [Option.elim_some, List.sum_map_add]
    simp [stepBound, Nat.mul_comm]
  rw [hbound]
  refine WorkYields.forEach_range (W := BeforeToken) ?_ ?_ (Nat.zero_le _) ⟨none, 0, rfl⟩
  · intro t OUT w m k ht hw hk
    exact lzDecodeToken_workYields hk ht hw
  · rintro OUT _ ⟨src, j, rfl⟩
    exact .ends (if_neg (Nat.lt_irrefl _))

/-- Settles O54: `while` over tokens to encode, and `for` over tokens to decode. -/
theorem dictionaryStepMachines : Obligations.DictionaryStepMachines :=
  ⟨stepMachineDoes_of_start (fun _ => rfl) lzEncode_workYields,
    stepMachineDoes_of_start (fun _ => rfl) lzDecode_workYields⟩

/-! ## TOKEN_FORMAT -/

/-- One append a tick (41_dictionary_codec.md R135). -/
theorem tokenFormat_workYields (cfg : Config) (ops : Operands) :
    WorkYields cfg ops (stepBound cfg .tokenFormat ops) (.tokenFormat { OUT := [] }) (tokenFormatBody cfg ops) := by
  rw [← Nat.zero_add (stepBound ..)]
  refine WorkYields.appendAll (ws := fun _ OUT => .tokenFormat { OUT := OUT }) (fun j OUT c hlen hc => ?_)
    fun OUT hlen => .ends ?_
  · rw [List.length_nil, Nat.zero_add] at hlen
    simp [microStep, tokenFormatTick, hlen, hc]
  · simp [microStep, tokenFormatTick, hlen]

/-! ## TOKEN_PARSE -/

/-- The appends, one a tick, once the text is parsed (41_dictionary_codec.md R137). -/
theorem parsed_workYields (cfg : Config) (ops : Operands) {r : TokenParseRegs} (hr : r.parsed = true) (ht : r.t = 0)
    (hOUT : r.OUT = []) :
    WorkYields cfg ops r.S.length (.tokenParse r) ((appendAll cfg [] r.S).map .tokens) := by
  have hregs : { r with t := 0, OUT := [] } = r := by rw [← ht, ← hOUT]
  rw [← hregs, ← Nat.zero_add (List.length _)]
  refine WorkYields.appendAll (ws := fun j OUT => .tokenParse { r with t := j, OUT := OUT })
    (fun j OUT tok _ htok => ?_) fun OUT _ => .ends ?_
  · have hj : j < r.S.length := (List.getElem?_eq_some_iff.mp htok).1
    simp [microStep, tokenParseTick, parseGoesOn, hr, hj, memRead_eq_ret.mpr htok]
  · simp [microStep, tokenParseTick, parseGoesOn, hr]

/-- From the parser's registers `r`, the ticks give what is left of the parse, `y`, and the appends that follow it: one
tick at most for each byte left and each token parsed (70_reset_and_hazards.md R251). The tokens that `y` returns are
all the tokens of the text. -/
def ParseYields (cfg : Config) (ops : Operands) (r : TokenParseRegs) (y : Run (List Token)) : Prop :=
  (∀ S, y = .ret S → S.length ≤ tokensParsed cfg ops.TEXT) →
    WorkYields cfg ops (ops.TEXT.length - r.p + tokensParsed cfg ops.TEXT) (.tokenParse r)
      (y.bind fun S => (appendAll cfg [] S).map .tokens)

/-- The registers of the parser inside the number of a field. -/
def inNumber (r : TokenParseRegs) (f : TextField) (v p : Nat) (first : Byte) : TokenParseRegs :=
  { r with p := p, v := some v, first := some first, phase := .digits f }

theorem digitAt_eq_isDigit {TEXT : List Byte} {p : Nat} {c : Byte} (h : TEXT[p]? = some c) :
    digitAt TEXT p = isDigit c := by simp [digitAt, h]

/-- The parser's registers `r'` right behind a token `tok` that began at those of `r`. -/
structure AfterToken (TEXT : List Byte) (r : TokenParseRegs) (tok : Token) (r' : TokenParseRegs) : Prop where
  tokens : r'.S = r.S ++ [tok]
  parsed : r'.parsed = decide (r'.p = TEXT.length)
  phase : r'.phase = .space
  appended : r'.t = r.t
  output : r'.OUT = r.OUT

namespace ParseYields

variable {cfg : Config} {ops : Operands} {r r' : TokenParseRegs} {y : Run (List Token)} {c : Byte}

theorem stops {f : Fault} : ParseYields cfg ops r (.stop f) := fun _ => .stops

/-- The text is parsed: the appends are left. -/
theorem finished (hr : r.parsed = true) (ht : r.t = 0) (hOUT : r.OUT = []) : ParseYields cfg ops r (.ret r.S) := fun hS =>
  (parsed_workYields cfg ops hr ht hOUT).mono ((hS _ rfl).trans (Nat.le_add_left _ _))

/-- The parse fails where the text ends too early. -/
theorem truncated (hr : r.parsed = false) (hp : r.p = ops.TEXT.length) :
    ParseYields cfg ops r (.raise .truncatedInput ops.TEXT.length) := fun _ =>
  .ends (by simp [microStep, tokenParseTick, parseGoesOn, hr, hp])

theorem tick_of_byte (hr : r.parsed = false) (hc : ops.TEXT[r.p]? = some c) :
    microStep cfg ops (.tokenParse r) = (parseByte cfg ops.TEXT r c).map fun r => .more (.tokenParse r) := by
  have hp : r.p ≠ ops.TEXT.length := (List.getElem?_eq_some_iff.mp hc).1.ne
  simp [microStep, tokenParseTick, parseGoesOn, hr, hp, memRead_eq_ret.mpr hc]

/-- The byte at the index is accepted: the parse goes on behind it. -/
theorem accepted (hr : r.parsed = false) (hc : ops.TEXT[r.p]? = some c) (hbyte : parseByte cfg ops.TEXT r c = .ret r')
    (h : ParseYields cfg ops r' y) : ParseYields cfg ops r y := by
  intro hy
  have hlt : r.p < ops.TEXT.length := (List.getElem?_eq_some_iff.mp hc).1
  have hp : r'.p = r.p + 1 := (parseByte_advances hbyte).1
  have hgo : microStep cfg ops (.tokenParse r) = .ret (.more (.tokenParse r')) := by rw [tick_of_byte hr hc, hbyte]; rfl
  exact (WorkYields.goes hgo (h hy)).mono (by omega)

/-- The byte at the index is rejected: the parse fails. -/
theorem rejected {e : Err} {n : Nat} (hr : r.parsed = false) (hc : ops.TEXT[r.p]? = some c)
    (hbyte : parseByte cfg ops.TEXT r c = .raise e n) : ParseYields cfg ops r (.raise e n) := fun _ =>
  .ends (by rw [tick_of_byte hr hc, hbyte]; rfl)

/-- The rule for every part of the parser that reads the next byte. -/
theorem read {α : Type} {g : Byte → Run α} {k : α → Run (List Token)} (hr : r.parsed = false)
    (h : ∀ c, ops.TEXT[r.p]? = some c → ParseYields cfg ops r ((g c).bind k)) :
    ParseYields cfg ops r ((if r.p = ops.TEXT.length then .raise .truncatedInput ops.TEXT.length
      else (memRead ops.TEXT r.p).bind g).bind k) := by
  split
  next hp => exact truncated hr hp
  · unfold memRead
    cases hc : ops.TEXT[r.p]? with
    | none => exact stops
    | some c => exact h c hc

/-- The rule for `expect`. -/
theorem expect {k : Nat → Run (List Token)} (hr : r.parsed = false) (hbyte : parseByte cfg ops.TEXT r c = .ret r')
    (hother : ∀ x, ops.TEXT[r.p]? = some x → x ≠ c → parseByte cfg ops.TEXT r x = .raise .malformedToken r.p)
    (h : ParseYields cfg ops r' (k (r.p + 1))) : ParseYields cfg ops r ((expectByte ops.TEXT c r.p).bind k) := by
  refine read hr fun x hx => ?_
  by_cases hxc : x = c
  · rw [if_neg (not_not.mpr hxc)]
    exact accepted hr hx (hxc ▸ hbyte) h
  · rw [if_pos hxc]
    exact rejected hr hx (hother x hx hxc)

section Number

variable {f : TextField} {k : Nat → Nat → Run (List Token)}

/-- A byte inside a number, after its first digit. -/
theorem parseByte_inNumber (TEXT : List Byte) (r : TokenParseRegs) (f : TextField) (v p : Nat) (first c : Byte) :
    parseByte cfg TEXT (inNumber r f v p first) c =
      if first ≠ 0x30 ∧ isDigit c then
        if exceeds (fieldMax cfg f) (10 * v + digitVal c) then .raise .malformedToken p
        else .ret (inNumber r f (10 * v + digitVal c) (p + 1) first)
      else if c = fieldEnd f then endNumber TEXT f v (inNumber r f v p first)
      else .raise .malformedToken p := rfl

/-- The byte behind a number that is at its end. -/
theorem numberEnd {v p : Nat} {first : Byte} (hr : r.parsed = false)
    (hlast : first = 0x30 ∨ digitAt ops.TEXT p = false)
    (hend : endNumber ops.TEXT f v (inNumber r f v p first) = .ret r') (h : ParseYields cfg ops r' (k v (p + 1))) :
    ParseYields cfg ops (inNumber r f v p first) ((expectByte ops.TEXT (fieldEnd f) p).bind (k v)) := by
  have hdigit : ∀ c, ops.TEXT[p]? = some c → ¬ (first ≠ 0x30 ∧ isDigit c) := by
    rintro c hc ⟨hne, hd⟩
    rw [← digitAt_eq_isDigit hc, hlast.resolve_left hne] at hd
    cases hd
  refine read (r := inNumber r f v p first) hr fun c hc => ?_
  by_cases hcf : c = fieldEnd f
  · rw [if_neg (not_not.mpr hcf)]
    exact accepted hr hc (by rw [parseByte_inNumber, if_neg (hdigit c hc), if_pos hcf, hend]) h
  · rw [if_pos hcf]
    exact rejected hr hc (by rw [parseByte_inNumber, if_neg (hdigit c hc), if_neg hcf])

/-- The digits of a number after its first, which is not `0`. -/
theorem digits (hr : r.parsed = false) {first : Byte} (hfirst : first ≠ 0x30)
    (hnext : ∀ v p, ∃ r', endNumber ops.TEXT f v (inNumber r f v p first) = .ret r' ∧
      ParseYields cfg ops r' (k v (p + 1))) (bound v p : Nat) :
    ParseYields cfg ops (inNumber r f v p first)
      ((whileLoop bound (fun vp => digitAt ops.TEXT vp.2) (parseDigit ops.TEXT (fieldMax cfg f)) (v, p)).bind fun vp =>
        (expectByte ops.TEXT (fieldEnd f) vp.2).bind (k vp.1)) := by
  have hdone : ∀ bound v p, digitAt ops.TEXT p = false → ParseYields cfg ops (inNumber r f v p first)
      ((whileLoop bound (fun vp => digitAt ops.TEXT vp.2) (parseDigit ops.TEXT (fieldMax cfg f)) (v, p)).bind fun vp =>
        (expectByte ops.TEXT (fieldEnd f) vp.2).bind (k vp.1)) := fun bound v p hlast => by
    rw [whileLoop_done (r := (v, p)) hlast]
    obtain ⟨r', hend, h⟩ := hnext v p
    exact numberEnd hr (.inr hlast) hend h
  induction bound generalizing v p with
  | zero =>
    cases hdigit : digitAt ops.TEXT p with
    | false => exact hdone 0 v p hdigit
    | true => simpa [whileLoop, hdigit] using stops
  | succ bound ih =>
    cases hdigit : digitAt ops.TEXT p with
    | false => exact hdone (bound + 1) v p hdigit
    | true =>
      obtain ⟨c, hc⟩ : ∃ c, ops.TEXT[p]? = some c := ⟨_, List.getElem?_eq_getElem (lt_of_digitAt hdigit)⟩
      have hlater : first ≠ 0x30 ∧ isDigit c := ⟨hfirst, digitAt_eq_isDigit hc ▸ hdigit⟩
      rw [whileLoop_goes (r := (v, p)) hdigit, parseDigit, memRead_eq_ret.mpr hc, Run.ret_bind]
      split
      next hmax =>
        exact rejected (r := inNumber r f v p first) hr hc (by rw [parseByte_inNumber, if_pos hlater, if_pos hmax])
      next hmax =>
        exact accepted (r := inNumber r f v p first) hr hc (by rw [parseByte_inNumber, if_pos hlater, if_neg hmax])
          (ih _ _)

/-- The rule for `parseNum` and the byte expected behind the number. -/
theorem number (hr : r.parsed = false) (hphase : r.phase = .first f)
    (hdash : f = .literal → ops.TEXT[r.p]? ≠ some chDash)
    (hnext : ∀ v p first, ∃ r', endNumber ops.TEXT f v (inNumber r f v p first) = .ret r' ∧
      ParseYields cfg ops r' (k v (p + 1))) :
    ParseYields cfg ops r ((parseNum ops.TEXT (fieldMax cfg f) r.p).bind fun vp =>
      (expectByte ops.TEXT (fieldEnd f) vp.2).bind (k vp.1)) := by
  refine read hr fun c hc => ?_
  have hbyte : parseByte cfg ops.TEXT r c =
      if !isDigit c then .raise .malformedToken r.p
      else if exceeds (fieldMax cfg f) (digitVal c) then .raise .malformedToken r.p
      else .ret (inNumber r f (digitVal c) (r.p + 1) c) := by
    have hno : ¬ (f = .literal ∧ c = chDash) := fun ⟨hf, hcd⟩ => hdash hf (hcd ▸ hc)
    simp only [parseByte, hphase, firstByte, if_neg hno]
    rfl
  split
  next hd => exact rejected hr hc (by rw [hbyte, if_pos hd])
  next hd =>
    split
    next hmax => exact rejected hr hc (by rw [hbyte, if_neg hd, if_pos hmax])
    next hmax =>
      refine accepted hr hc (by rw [hbyte, if_neg hd, if_neg hmax]) ?_
      split
      next hzero =>
        obtain ⟨r', hend, h⟩ := hnext (digitVal c) (r.p + 1) c
        have hv : digitVal c = 0 := by rw [hzero]; rfl
        rw [hv] at hend h ⊢
        exact numberEnd hr (.inl hzero) hend h
      next hzero => exact digits hr hzero (fun v p => hnext v p c) _ _ _

end Number

section Token

variable {off len : Nat} {k : Token × Nat → Run (List Token)}

/-- The literal and the byte behind it. -/
theorem literal (hr : r.parsed = false) (hphase : r.phase = .first .literal) (hoff : r.off = some off)
    (hlen : r.len = some len)
    (hnext : ∀ tok r', AfterToken ops.TEXT r tok r' → ParseYields cfg ops r' (k (tok, r'.p))) :
    ParseYields cfg ops r ((parseLit ops.TEXT r.p).bind fun lit => (expectByte ops.TEXT chClose lit.2).bind fun p =>
      k ({ offset := off, length := len, literal := lit.1 }, p)) := by
  unfold parseLit
  split
  next hdash =>
    refine accepted (r' := { r with p := r.p + 1, lit := some none, phase := .closing }) hr hdash ?_ ?_
    · simp [parseByte, hphase, firstByte]
    refine expect (r' := { r with
      p := r.p + 2, S := r.S ++ [{ offset := off, length := len, literal := none }], lit := some none,
      parsed := decide (r.p + 2 = ops.TEXT.length), phase := .space }) hr ?_ ?_ ?_
    · simp [parseByte, endToken, hoff, hlen, readRegister]
    · intro x _ hx
      simp [parseByte, hx]
    · exact hnext { offset := off, length := len, literal := none } _ ⟨rfl, rfl, rfl, rfl, rfl⟩
  next hdash =>
    rw [Run.map, Run.bind_assoc]
    refine number (f := .literal)
      (k := fun v p => k ({ offset := off, length := len, literal := some (BitVec.ofNat 8 v) }, p)) hr hphase
      (fun _ => hdash) fun v p first => ?_
    refine ⟨{ inNumber r .literal v p first with
      p := p + 1, S := r.S ++ [{ offset := off, length := len, literal := some (BitVec.ofNat 8 v) }],
      lit := some (some (BitVec.ofNat 8 v)), parsed := decide (p + 1 = ops.TEXT.length), phase := .space }, ?_, ?_⟩
    · simp [endNumber, endToken, inNumber, hoff, hlen, readRegister]
    · exact hnext { offset := off, length := len, literal := some (BitVec.ofNat 8 v) } _ ⟨rfl, rfl, rfl, rfl, rfl⟩

/-- The length, the literal, and the byte behind each. -/
theorem lengthAndLiteral (hr : r.parsed = false) (hphase : r.phase = .first .length) (hoff : r.off = some off)
    (hnext : ∀ tok r', AfterToken ops.TEXT r tok r' → ParseYields cfg ops r' (k (tok, r'.p))) :
    ParseYields cfg ops r ((parseNum ops.TEXT (numMax cfg) r.p).bind fun len =>
      (expectByte ops.TEXT chComma len.2).bind fun p => (parseLit ops.TEXT p).bind fun lit =>
        (expectByte ops.TEXT chClose lit.2).bind fun p =>
          k ({ offset := off, length := len.1, literal := lit.1 }, p)) :=
  number (f := .length)
    (k := fun len p => (parseLit ops.TEXT p).bind fun lit => (expectByte ops.TEXT chClose lit.2).bind fun p =>
      k ({ offset := off, length := len, literal := lit.1 }, p)) hr hphase nofun
    fun _ _ _ => ⟨_, rfl, literal hr rfl hoff rfl fun tok r' ⟨hS, hparsed, hphase, ht, hOUT⟩ =>
      hnext tok r' ⟨hS, hparsed, hphase, ht, hOUT⟩⟩

/-- The rule for a whole token. -/
theorem token (hr : r.parsed = false) (hphase : r.phase = .opening)
    (hnext : ∀ tok r', AfterToken ops.TEXT r tok r' → ParseYields cfg ops r' (k (tok, r'.p))) :
    ParseYields cfg ops r ((parseToken cfg ops.TEXT r.p).bind k) := by
  simp only [parseToken, Run.bind_assoc, Run.ret_bind]
  refine expect (r' := { r with p := r.p + 1, phase := .first .offset }) hr ?_ ?_ ?_
  · simp [parseByte, hphase]
  · intro x _ hx
    simp [parseByte, hphase, hx]
  exact number (r := { r with p := r.p + 1, phase := .first .offset }) (f := .offset)
    (k := fun off p => (parseNum ops.TEXT (numMax cfg) p).bind fun len =>
      (expectByte ops.TEXT chComma len.2).bind fun p => (parseLit ops.TEXT p).bind fun lit =>
        (expectByte ops.TEXT chClose lit.2).bind fun p =>
          k ({ offset := off, length := len.1, literal := lit.1 }, p)) hr rfl nofun
    fun _ _ _ => ⟨_, rfl, lengthAndLiteral hr rfl rfl fun tok r' ⟨hS, hparsed, hphase, ht, hOUT⟩ =>
      hnext tok r' ⟨hS, hparsed, hphase, ht, hOUT⟩⟩

end Token

/-- The parse from a byte where a token is to begin. -/
theorem loop (bound : Nat) (hr : r.parsed = false) (hphase : r.phase = .opening) (ht : r.t = 0) (hOUT : r.OUT = []) :
    ParseYields cfg ops r
      ((whileLoop bound parseGoesOn (parseStep cfg ops.TEXT) r.toParseRegs).bind fun q => .ret q.S) := by
  have hgoes : parseGoesOn r.toParseRegs = true := by simp [parseGoesOn, hr]
  induction bound generalizing r with
  | zero => simpa [whileLoop, hgoes] using stops
  | succ bound ih =>
    rw [whileLoop_goes hgoes, parseStep, Run.bind_assoc, Run.bind_assoc]
    refine token hr hphase fun tok r' ⟨hS, hparsed, hphase', ht', hOUT'⟩ => ?_
    rw [ht] at ht'
    rw [hOUT] at hOUT'
    split
    next hp =>
      rw [Run.ret_bind, whileLoop_done rfl, Run.ret_bind, ← hS]
      exact finished (hparsed.trans (decide_eq_true hp)) ht' hOUT'
    next hp =>
      have hr' : r'.parsed = false := hparsed.trans (decide_eq_false hp)
      rw [Run.bind_assoc]
      refine expect (r' := { r' with p := r'.p + 1, phase := .opening }) hr' ?_ ?_ ?_
      · simp [parseByte, hphase']
      · intro x _ hx
        simp [parseByte, hphase', hx]
      · rw [Run.ret_bind, hr, ← hr', ← hS]
        exact ih (r := { r' with p := r'.p + 1, phase := .opening }) hr' rfl ht' hOUT' (by simp [parseGoesOn, hr'])

end ParseYields

theorem tokenParse_workYields (cfg : Config) (ops : Operands) :
    WorkYields cfg ops (stepBound cfg .tokenParse ops) (.tokenParse (tokenParseStart ops.TEXT))
      (tokenParseBody cfg ops) := by
  have hparse : ParseYields cfg ops (tokenParseStart ops.TEXT) (parse cfg ops.TEXT) := by
    unfold parse
    cases hnil : ops.TEXT.isEmpty with
    | true =>
      have hstart : (parseStart ops.TEXT).parsed = true := hnil
      rw [whileLoop_done (by rw [parseGoesOn, hstart]; rfl)]
      exact .finished hnil rfl rfl
    | false => exact .loop _ hnil rfl rfl rfl
  rw [tokenParseBody, tokenParse, Run.map, Run.bind_assoc]
  exact hparse fun S hS => by rw [tokensParsed, hS]

/-- Settles O55: the parser byte by byte and the pseudocode token by token reject at the same byte or meet at the end of
the text, and the appends follow. -/
theorem tokenTextStepMachines : Obligations.TokenTextStepMachines :=
  ⟨stepMachineDoes_of_start (fun _ => rfl) tokenFormat_workYields,
    stepMachineDoes_of_start (fun _ => rfl) tokenParse_workYields⟩

/-! ## FREQ_COUNT -/

theorem tableSet_zeroCounts (x : Byte) : tableSet zeroCounts x 0 = zeroCounts := Vector.set_replicate_self

theorem freqCount_workYields (cfg : Config) (ops : Operands) :
    WorkYields cfg ops (stepBound cfg .freqCount ops) (.freqCount { s := 0, j := 0, F := zeroCounts })
      (freqCountBody cfg ops) := by
  rw [show stepBound cfg .freqCount ops = 0 + (ops.IN.length - 0) + (256 - 0) by simp [stepBound, Nat.add_comm]]
  refine WorkYields.goes_until (ws := fun s => .freqCount { s := s, j := 0, F := zeroCounts }) (fun s hs => ?_) ?_
    (Nat.zero_le _)
  · simp [microStep, freqCountTick, hs, tableSet_zeroCounts]
  · refine WorkYields.forEach_range_one (W := fun j F w => w = .freqCount { s := 256, j := j, F := F }) ?_ ?_
      (Nat.zero_le _) rfl
    · rintro j F _ m k hj rfl hk
      exact .bind_of_goes (if_pos hj) fun F' _ => hk F' _ rfl
    · rintro F _ rfl
      exact .ends (if_neg (Nat.lt_irrefl _))

/-! ## BUILD_TREE -/

/-- The byte values given with their counts. -/
def countsOf (F : FreqTable) (xs : List Byte) : List (Byte × Nat) := xs.map fun x => (x, tableGet F x)

theorem symbols_zip_toList (F : FreqTable) : symbols.zip F.toList = countsOf F symbols := by
  have h := List.zip_map' (f := id) (g := tableGet F) (l := symbols)
  rwa [List.map_id, ← toList_eq_map_symbols] at h

/-- Seeding byte value by byte value puts the leaf entries of all of them in the queue (42_tree_builder.md R152). -/
theorem foldl_seedSymbol (F : FreqTable) (xs : List Byte) (r : BuildTreeRegs) :
    xs.foldl (seedSymbol F) r =
      { r with s := r.s + xs.length,
               Q := (leafEntries r.nextSeq (countsOf F xs)).foldl (fun Q e => enqueue e Q) r.Q,
               nextSeq := r.nextSeq + (leafEntries r.nextSeq (countsOf F xs)).length } := by
  induction xs generalizing r with
  | nil => rfl
  | cons x xs ih =>
    rw [List.foldl_cons, ih, seedSymbol]
    by_cases h : tableGet F x > 0 <;>
      simp [countsOf, leafEntries, h, Nat.add_assoc, Nat.add_comm 1]

theorem foldl_seedSymbol_symbols (F : FreqTable) : symbols.foldl (seedSymbol F) buildStart = seeded F := by
  rw [foldl_seedSymbol, seeded, seededEntries, symbols_zip_toList]
  simp [buildStart, symbols]

theorem length_leafEntries (seq : Nat) (xfs : List (Byte × Nat)) :
    (leafEntries seq xfs).length = (xfs.map Prod.snd).countP fun f => decide (f > 0) := by
  induction xfs generalizing seq with
  | nil => rfl
  | cons xf xfs ih =>
    by_cases h : xf.2 > 0 <;> simp [leafEntries, h, ih]

theorem length_seededEntries (F : FreqTable) : (seededEntries F).length = alphabetSize F := by
  rw [seededEntries, length_leafEntries, List.map_snd_zip (by simp [symbols]), alphabetSize]

theorem length_seeded_Q (F : FreqTable) : (seeded F).Q.length = alphabetSize F :=
  (foldl_enqueue_perm (seededEntries F) []).length_eq.trans (by simp [length_seededEntries])

/-- A greater bound changes nothing for a loop that ends within its bound. -/
theorem whileLoop_bound {ρ : Type} {cond : ρ → Bool} {body : ρ → Run ρ} {b : Nat} {r : ρ}
    (h : whileLoop b cond body r ≠ .stop .stepBoundPassed) (d : Nat) :
    whileLoop (b + d) cond body r = whileLoop b cond body r := by
  cases hc : cond r with
  | false => rw [whileLoop_done hc, whileLoop_done hc]
  | true =>
    induction b generalizing r with
    | zero => simp [whileLoop, hc] at h
    | succ b ih =>
      rw [Nat.add_right_comm, whileLoop_goes hc, whileLoop_goes hc]
      rw [whileLoop_goes hc] at h
      cases hb : body r with
      | raise e n => rfl
      | stop f => rfl
      | ret r' =>
        rw [hb] at h
        cases hc' : cond r' with
        | false => exact (whileLoop_done hc').trans (whileLoop_done hc').symm
        | true => exact ih h hc'

/-- One merge fewer than entries in the queue is enough (42_tree_builder.md R159). -/
theorem merges_bound {r : BuildTreeRegs} (h : 0 < r.Q.length) :
    whileLoop r.Q.length mergeGoesOn mergeStep r = whileLoop (r.Q.length - 1) mergeGoesOn mergeStep r := by
  have hends : (whileLoop (r.Q.length - 1) mergeGoesOn mergeStep r).Ensures fun r' =>
      True ∧ mergeGoesOn r' = false := by
    refine whileLoop_ensures (measure := fun r => r.Q.length - 1) trivial le_rfl (fun r _ hc => ?_) fun r _ hc => ?_
    · have hlt : 1 < r.Q.length := of_decide_eq_true hc
      exact (mergeStep_ensures hlt).mono fun r' h => ⟨trivial, by omega⟩
    · exact Nat.sub_pos_of_lt (of_decide_eq_true hc)
  have := whileLoop_bound ((Run.ensures_iff.mp hends).1 .stepBoundPassed) 1
  rwa [Nat.sub_add_cancel h] at this

/-- After seeding: the merges, one a tick, and the end (42_tree_builder.md R164). -/
theorem buildFrom_workYields (cfg : Config) (ops : Operands) {r : BuildTreeRegs} (hs : r.s = 256)
    (hseq : r.nextSeq = r.Q.length) :
    WorkYields cfg ops (r.Q.length - 1) (.buildTree r) ((buildFrom r).map .tree) := by
  unfold buildFrom
  split
  next hQ => exact .ends (by simp [microStep, buildTreeTick, hs, mergeGoesOn, hQ])
  next e hQ =>
    have hone : r.nextSeq = 1 := by rw [hseq, hQ]; rfl
    exact .ends (by simp [microStep, buildTreeTick, hs, mergeGoesOn, hQ, hone])
  next e e' Q hQ =>
    have htwo : 2 ≤ r.Q.length := by rw [hQ]; exact Nat.le_add_left 2 _
    rw [merges_bound (Nat.zero_lt_of_lt htwo), Run.map, Run.bind_assoc]
    refine WorkYields.whileLoop (W := fun r w => w = .buildTree r ∧ r.s = 256 ∧ 2 ≤ r.nextSeq) ?_ ?_ _
      ⟨rfl, hs, hseq ▸ htwo⟩
    · rintro r _ m k ⟨rfl, hs, hseq⟩ hc hk
      refine .bind_of_goes (by simp [microStep, buildTreeTick, hs, hc, Run.map]) fun r' hr' => hk r' _ ⟨rfl, ?_⟩
      obtain ⟨a, b, Q, -, rfl⟩ := mergeStep_eq_ret hr'
      exact ⟨hs, Nat.le_succ_of_le hseq⟩
    · rintro r _ ⟨rfl, hs, hseq⟩ hc
      have hone : r.nextSeq ≠ 1 := by omega
      cases hQ : r.Q with
      | nil => exact .stops
      | cons e Q => exact .ends (by simp [microStep, buildTreeTick, hs, hc, hQ, hone, popMin])

theorem buildTree_workYields (cfg : Config) (ops : Operands) :
    WorkYields cfg ops (stepBound cfg .buildTree ops) (.buildTree buildStart) (buildTreeBody cfg ops) := by
  have hmerges := buildFrom_workYields cfg ops (r := seeded ops.F) rfl
    ((length_seededEntries ops.F).trans (length_seeded_Q ops.F).symm)
  rw [length_seeded_Q] at hmerges
  have hseed := WorkYields.goes_until (b := 256) (j := 0) (e := alphabetSize ops.F - 1) (cfg := cfg) (ops := ops)
    (x := buildTreeBody cfg ops)
    (ws := fun s => .buildTree (((List.range s).map (BitVec.ofNat 8)).foldl (seedSymbol ops.F) buildStart)) ?_ ?_
    (Nat.zero_le _)
  · exact hseed.mono (by simp only [stepBound]; omega)
  · intro s hs
    have hindex : (((List.range s).map (BitVec.ofNat 8)).foldl (seedSymbol ops.F) buildStart).s = s := by
      rw [foldl_seedSymbol]; simp [buildStart]
    rw [List.range_succ, List.map_append, List.foldl_append]
    simp only [microStep, buildTreeTick, hindex, hs, if_true]
    rfl
  · show WorkYields _ _ _ (.buildTree (symbols.foldl (seedSymbol ops.F) buildStart)) _
    rw [foldl_seedSymbol_symbols]
    exact hmerges

/-- Settles O56: clearing and seeding are rows of 256 ticks, then come the bytes counted and the merges. -/
theorem treeBuilderStepMachines : Obligations.TreeBuilderStepMachines :=
  ⟨stepMachineDoes_of_start (fun _ => rfl) freqCount_workYields,
    stepMachineDoes_of_start (fun _ => rfl) buildTree_workYields⟩

/-! ## CODE_TABLE -/

/-- One tick a node of the subtree on top of the stack (43_entropy_codec.md R199). -/
theorem walk_workYields {cfg : Config} {ops : Operands} {n : Node} {path : List Bit} {stack : List (Node × List Bit)}
    {C : CodeTable} {m : Nat} {k : CodeTable → Run ResultBundle}
    (hnext : ∀ C', WorkYields cfg ops m (.codeTable { C := C', stack := stack }) (k C')) :
    WorkYields cfg ops (m + nodeCount n) (.codeTable { C := C, stack := (n, path) :: stack }) ((walk n path C).bind k) := by
  induction n generalizing path stack C m k with
  | leaf x f => exact .bind_of_goes rfl fun C' _ => hnext C'
  | onlyLeft x f l ih => exact (WorkYields.goes rfl (ih hnext)).mono (by rw [nodeCount]; omega)
  | onlyRight x f r ih => exact (WorkYields.goes rfl (ih hnext)).mono (by rw [nodeCount]; omega)
  | branch x f l r ihl ihr =>
    rw [walk, Run.bind_assoc]
    exact (WorkYields.goes rfl (ihl fun C' => ihr hnext)).mono (by rw [nodeCount]; omega)

theorem codeTable_workYields (cfg : Config) (ops : Operands) :
    WorkYields cfg ops (stepBound cfg .codeTable ops) (.codeTable { C := emptyCodes, stack := [(ops.T, [])] })
      ((walk ops.T [] emptyCodes).map .codes) := by
  rw [← Nat.zero_add (stepBound ..)]
  exact walk_workYields fun C' => .ends rfl

/-! ## ENT_ENCODE -/

/-- The registers before byte `j` of the input, or at its end, with the output `OUT`. -/
def beforeByte (j : Nat) (OUT : List Bit) : Work := .entEncode { j := j, OUT := OUT, code := none, k := 0 }

section EntEncode

variable {cfg : Config} {ops : Operands} {m : Nat} {k : List Bit → Run ResultBundle}

/-- One tick a bit of the code (43_entropy_codec.md R199). -/
theorem appendCode_workYields {j : Nat} (hnext : ∀ OUT, WorkYields cfg ops m (beforeByte (j + 1) OUT) (k OUT))
    (OUT : List Bit) (code : List Bit) :
    WorkYields cfg ops (m + code.length)
      (.entEncode (entEncodeNext { j := j, OUT := OUT, code := none, k := 0 } code 0))
      ((appendAll cfg OUT code).bind k) := by
  refine WorkYields.appendAll
    (ws := fun i OUT => .entEncode (entEncodeNext { j := j, OUT := OUT, code := none, k := 0 } code i))
    (fun i OUT b _ hb => ?_) fun OUT _ => ?_
  · have hi : i < code.length := (List.getElem?_eq_some_iff.mp hb).1
    simp [microStep, entEncodeTick, entEncodeNext, hi, memRead_eq_ret.mpr hb]
  · rw [entEncodeNext, if_neg (Nat.lt_irrefl _)]
    exact hnext OUT

/-- A byte takes its lookup and one tick a bit of its code. -/
theorem entEncodeByte_workYields {j : Nat} (hj : j < ops.IN.length)
    (hnext : ∀ OUT, WorkYields cfg ops m (beforeByte (j + 1) OUT) (k OUT)) (OUT : List Bit) :
    WorkYields cfg ops (m + ops.IN[j]?.elim 0 fun c => 1 + ((tableGet ops.C c).getD []).length) (beforeByte j OUT)
      (((lookUp ops.IN ops.C j).bind fun code => appendAll cfg OUT code).bind k) := by
  have htick : microStep cfg ops (beforeByte j OUT) = (lookUp ops.IN ops.C j).bind fun code =>
      .ret (.more (.entEncode (entEncodeNext { j := j, OUT := OUT, code := none, k := 0 } code 0))) := if_pos hj
  rw [Run.bind_assoc, List.getElem?_eq_getElem hj, Option.elim_some, Nat.add_comm 1, ← Nat.add_assoc]
  refine .bind_of_goes htick fun code hcode => ?_
  have hentry : tableGet ops.C ops.IN[j] = some code := by
    rw [lookUp, memRead_of_lt hj, Run.ret_bind] at hcode
    split at hcode <;> cases hcode
    assumption
  rw [hentry, Option.getD_some]
  exact appendCode_workYields hnext OUT code

end EntEncode

theorem entEncode_workYields (cfg : Config) (ops : Operands) :
    WorkYields cfg ops (stepBound cfg .entEncode ops) (beforeByte 0 []) (entEncodeBody cfg ops) := by
  have hbound : stepBound cfg .entEncode ops = 0 +
      ((range 0 ops.IN.length).map fun j => ops.IN[j]?.elim 0 fun c => 1 + ((tableGet ops.C c).getD []).length).sum := by
    rw [map_range_getElem? ops.IN fun c? => c?.elim 0 fun c => 1 + ((tableGet ops.C c).getD []).length]
    simp only [Option.elim_some, List.sum_map_add]
    simp [stepBound]
  rw [hbound]
  refine WorkYields.forEach_range (W := fun j OUT w => w = beforeByte j OUT) ?_ ?_ (Nat.zero_le _) rfl
  · rintro j OUT _ m k hj rfl hk
    exact entEncodeByte_workYields hj (fun OUT' => hk OUT' _ rfl) OUT
  · rintro OUT _ rfl
    exact .ends (if_neg (Nat.lt_irrefl _))

/-! ## ENT_DECODE -/

theorem entDecodeBit_index {cfg : Config} {BITS : List Bit} {T : Node} {r r' : EntDecodeRegs} {j : Nat}
    (h : entDecodeBit cfg BITS T r j = .ret r') : r'.j = j + 1 := by
  obtain ⟨b, -, h⟩ := Run.bind_eq_ret.mp h
  split at h
  · cases h
  · split at h
    · obtain ⟨x, -, h⟩ := Run.bind_eq_ret.mp h
      obtain ⟨OUT, -, h⟩ := Run.bind_eq_ret.mp h
      cases h; rfl
    · cases h; rfl

/-- One tick a bit (43_entropy_codec.md R199). -/
theorem entDecode_workYields (cfg : Config) (ops : Operands) :
    WorkYields cfg ops (stepBound cfg .entDecode ops) (.entDecode (entDecodeStart ops.T))
      (((forEach (range 0 ops.BITS.length) (entDecodeStart ops.T) (entDecodeBit cfg ops.BITS ops.T)).bind
        (entDecodeEnd ops.BITS)).map .bytes) := by
  rw [Run.map, Run.bind_assoc, ← Nat.zero_add (stepBound ..)]
  refine WorkYields.forEach_range_one (W := fun j r w => w = .entDecode r ∧ r.j = j) ?_ ?_ (Nat.zero_le _) ⟨rfl, rfl⟩
  · rintro j r _ m k hj ⟨rfl, rfl⟩ hk
    exact .bind_of_goes (if_pos hj) fun r' hr' => hk r' _ ⟨rfl, entDecodeBit_index hr'⟩
  · rintro r _ ⟨rfl, hj⟩
    exact .bind_of_tick (if_neg (by omega)) fun OUT _ hdone => .ends hdone

/-- Settles O57: the start is the tree check where there is one, and the ticks go through the nodes, the codes, the
bits. -/
theorem entropyStepMachines : Obligations.EntropyStepMachines :=
  ⟨stepMachineDoes_of_workYields (fun _ => rfl) (fun _ _ => Run.bind_assoc ..) fun cfg ops _ _ =>
      codeTable_workYields cfg ops,
    stepMachineDoes_of_start (fun _ => rfl) entEncode_workYields,
    stepMachineDoes_of_workYields (fun _ => rfl) (fun _ _ => Run.bind_assoc ..) fun cfg ops _ _ =>
      entDecode_workYields cfg ops⟩

/-! ## Blocks side by side, and the two small statements -/

/-- A step of one idle block among others writes its own place, with a state that its own place alone fixes. Where
no agent stands, the write changes nothing (log 17). -/
theorem stepAgent_writes_own {k : Nat} {o : Option State} (ho : ∀ s, o = some s → s.work = none) :
    ∃ u, ∀ sys : System, sys[k]? = o → stepAgent k sys = .next (sys.set k u) := by
  cases o with
  | none =>
    refine ⟨State.reset, fun sys hk => ?_⟩
    rw [List.set_eq_of_length_le (List.getElem?_eq_none_iff.mp hk)]
    simp [stepAgent, hk]
  | some s =>
    obtain ⟨u, hu, -⟩ := idleInstanceNeverStops s (ho s rfl)
    exact ⟨u, fun sys hk => by simp [stepAgent, hk, hu]⟩

/-- Settles O59: the two steps write different places. -/
theorem instancesDoNotInterfere : Obligations.InstancesDoNotInterfere := by
  intro sys j k hjk hidle
  obtain ⟨u, hu⟩ := stepAgent_writes_own (k := j) (o := sys[j]?) fun s hs => hidle s (List.mem_of_getElem? hs)
  obtain ⟨v, hv⟩ := stepAgent_writes_own (k := k) (o := sys[k]?) fun s hs => hidle s (List.mem_of_getElem? hs)
  have hk : (sys.set j u)[k]? = sys[k]? := List.getElem?_set_ne hjk
  have hj : (sys.set k v)[j]? = sys[j]? := List.getElem?_set_ne hjk.symm
  exact ⟨sys.set j u, sys.set k v, (sys.set j u).set k v, hu sys rfl, hv _ hk, hv sys rfl,
    List.set_comm u v hjk ▸ hu _ hj, hk, hj⟩

/-- Settles O4: `step` on an idle block is `runWord`, which decodes. -/
theorem stepRunsTheDecodedCommand : Obligations.StepRunsTheDecodedCommand := by
  intro s c rest i hw hc hi
  rw [step_idle hw hc, runWord, hi]

/-- Settles O16, from the two cases of an append. -/
theorem appendGrowsWithinTheCap : Obligations.AppendGrowsWithinTheCap := by
  intro α cfg OUT v
  rcases append_cases cfg OUT v with ⟨hfree, h⟩ | ⟨hfull, h⟩
  · refine ⟨fun _ => h, fun k hk hlt => ?_⟩
    rw [capReached_iff.mpr ⟨k, hk, Nat.le_of_lt_succ hlt⟩] at hfree
    cases hfree
  · obtain ⟨k, hk, hle⟩ := capReached_iff.mp hfull
    exact ⟨fun hcap => absurd (hcap k hk) (Nat.not_le_of_gt (Nat.lt_succ_of_le hle)), fun _ _ _ => h⟩

end Sys2Proof.Machine

/-!
PROOFS of the statements of 30_encoding.md: the command word, the operand checks and the errors of each command, and the
token text.

The token text rests on one idea. The step machine of TOKEN_PARSE reads one byte a tick, so after any row of bytes its
registers say what has been read: they spell it out again (`readText`), and it can be continued to a valid text. In the
other direction every text that `fmt` writes is read to its end (`forEach_fmt`). What the parser reads is then exactly
what begins a valid text, which is R83, and two token sequences with one text are one, which is R82.
-/

namespace Sys2Proof.Machine

/-! ## The command word (30_encoding.md R75, R76) -/

/-- The opcode map, read backwards. -/
theorem opcodeInstr_eq_some {b : BitVec 8} {i : Instr} : opcodeInstr b = some i ↔ b = opcodeOf i := by
  constructor
  · intro h
    unfold opcodeInstr at h
    split at h <;> cases h
    all_goals exact BitVec.eq_of_toNat_eq ‹_›
  · rintro rfl
    cases i <;> rfl

/-- A word is its two fields. -/
theorem eq_encode_iff {w : CmdWord} {i : Instr} : w = encode i ↔ rsvField w = 0 ∧ opcodeField w = opcodeOf i := by
  have hw := w.isLt
  have hop := (opcodeOf i).isLt
  simp only [encode, rsvField, opcodeField, ← BitVec.toNat_inj, BitVec.toNat_setWidth, BitVec.extractLsb'_toNat,
    Nat.shiftRight_eq_div_pow, BitVec.ofNat_eq_ofNat, BitVec.toNat_ofNat]
  omega

theorem decode_eq_ok_iff {w : CmdWord} {i : Instr} : decode w = .ok i ↔ w = encode i := by
  rw [eq_encode_iff, ← opcodeInstr_eq_some]
  unfold decode
  split
  next hrsv => exact iff_of_false nofun fun h => hrsv h.1
  next hrsv => cases opcodeInstr (opcodeField w) <;> simp [not_not.mp hrsv]

/-- A word that is no command's word is rejected (30_encoding.md R77). -/
theorem decode_eq_error {w : CmdWord} (h : ∀ i, w ≠ encode i) : ∃ e, decode w = .error e := by
  cases hw : decode w with
  | error e => exact ⟨e, rfl⟩
  | ok i => exact absurd (decode_eq_ok_iff.mp hw) (h i)

theorem mem_assignedOpcodes_iff {n : Nat} : n ∈ assignedOpcodes ↔ ∃ i, n = (opcodeOf i).toNat := by
  constructor
  · rw [show assignedOpcodes = [.findMatch, .lzEncode, .lzDecode, .tokenFormat, .tokenParse, .freqCount, .buildTree,
      .codeTable, .entEncode, .entDecode].map fun i => (opcodeOf i).toNat from rfl]
    exact fun h => (List.mem_map.mp h).imp fun _ ⟨_, hi⟩ => hi.symm
  · rintro ⟨i, rfl⟩
    cases i <;> decide

/-- The well-formed words are the ten words. -/
theorem wellFormed_iff_eq_encode {w : CmdWord} : CmdWord.wellFormed w = true ↔ ∃ i, w = encode i := by
  have hrsv : CmdWord.reservedZero w = true ↔ rsvField w = 0 := by
    have hw := w.isLt
    simp only [CmdWord.reservedZero, beq_iff_eq, rsvField, ← BitVec.toNat_inj, BitVec.extractLsb'_toNat,
      Nat.shiftRight_eq_div_pow, BitVec.ofNat_eq_ofNat, BitVec.toNat_ofNat]
    omega
  have hopcode : ∀ i, w.toNat % 256 = (opcodeOf i).toNat ↔ opcodeField w = opcodeOf i := fun i => by
    simp [opcodeField, ← BitVec.toNat_inj, BitVec.extractLsb'_toNat]
  simp only [CmdWord.wellFormed, Bool.and_eq_true, hrsv, CmdWord.opcodeAssigned, List.contains_iff_mem,
    mem_assignedOpcodes_iff, hopcode, eq_encode_iff, exists_and_left]

/-- Settles O1. -/
theorem encodedCommandsDecode : Obligations.EncodedCommandsDecode := fun _ => decode_eq_ok_iff.mpr rfl

/-- Settles O2: the decoder reads the two fields, and the words are fixed by them. -/
theorem onlyTheTenWordsDecode : Obligations.OnlyTheTenWordsDecode := by
  refine fun w => ⟨fun _ => decode_eq_ok_iff, ?_, decode_eq_error⟩
  rw [wellFormed_iff_eq_encode]
  exact exists_congr fun _ => decode_eq_ok_iff

/-- Settles O3: the ten words are the encoder's; the four others are evaluated. -/
theorem wordsOfTheOpcodeMapDecode : Obligations.WordsOfTheOpcodeMapDecode :=
  have hdecode := encodedCommandsDecode
  ⟨hdecode .findMatch, hdecode .lzEncode, hdecode .lzDecode, hdecode .tokenFormat, hdecode .tokenParse,
    hdecode .freqCount, hdecode .buildTree, hdecode .codeTable, hdecode .entEncode, hdecode .entDecode,
    rfl, rfl, rfl, rfl⟩

/-- Settles O5: no word but the ten decodes. -/
theorem illegalWordsAreAnswered : Obligations.IllegalWordsAreAnswered := by
  intro s c rest hw hc hillegal
  obtain ⟨e, he⟩ := decode_eq_error hillegal
  rw [step_idle hw hc, runWord, he]
  rfl

/-- Settles O8: every command runs in `runCommand`, which asks for a command issued. -/
theorem whereTheModelOffersNoStep : Obligations.WhereTheModelOffersNoStep := by
  refine ⟨fun i s hc => ?_, fun s w hw => by simp [resetInstance, hw]⟩
  rw [exec_eq_runCommand, runCommand_nil hc]

/-! ## The operand checks (30_encoding.md R78) -/

theorem exceeds_eq_true_iff_not_atMost {b : Option Nat} {v : Nat} : exceeds b v = true ↔ ¬ AtMost b v := by
  rw [← Bool.not_eq_false, not_iff_not]
  exact exceeds_eq_false

@[simp] theorem atMost_zero (b : Option Nat) : AtMost b 0 := fun _ _ => Nat.zero_le _

theorem countsTooLarge_buildTree {cfg : Config} {ops : Operands} :
    countsTooLarge cfg .buildTree ops = true ↔
      ∃ bits, cfg.COUNT_BITS = some bits ∧ 2 ^ bits - 1 < (symbols.map (tableGet ops.F)).sum := by
  simp only [countsTooLarge, exceeds_eq_true, numMax, toList_eq_map_symbols, Option.map_eq_some_iff]
  exact ⟨fun ⟨_, ⟨bits, hbits, rfl⟩, hlt⟩ => ⟨bits, hbits, hlt⟩, fun ⟨bits, hbits, hlt⟩ => ⟨_, ⟨bits, hbits, rfl⟩, hlt⟩⟩

theorem operandsRejected_iff {cfg : Config} {i : Instr} {ops : Operands} :
    operandsRejected cfg i ops = true ↔ OperandCheckFails cfg i ops := by
  simp only [operandsRejected, Bool.or_eq_true, OperandCheckFails]
  cases i
  case buildTree =>
    simp [inputTooLong, windowTooLarge, countsTooLarge_buildTree, cursorPastEnd, inputLength,
      exceeds_eq_true_iff_not_atMost]
  all_goals
    simp [inputTooLong, windowTooLarge, countsTooLarge, cursorPastEnd, inputLength, exceeds_eq_true_iff_not_atMost,
      or_assoc]

/-- A command whose operands pass the checks of R78 runs its pseudocode. -/
theorem exec_of_passes {i : Instr} {s : State} {c : Command} {rest : List Command} (hc : s.commands = c :: rest)
    (h : ¬ OperandCheckFails s.config i c.OPS) : exec i s = finish s (commandBody i s.config c.OPS) := by
  rw [exec_eq_runCommand, runCommand_cons hc, if_neg (mt operandsRejected_iff.mp h)]

/-- Settles O15: check by check, and the checks come before the pseudocode. -/
theorem rejectedOperandsAreAnswered : Obligations.RejectedOperandsAreAnswered := by
  refine ⟨fun _ _ _ => operandsRejected_iff, fun i s c rest hc h => ?_⟩
  rw [exec_eq_runCommand, runCommand_cons hc, if_pos (operandsRejected_iff.mpr h)]
  rfl

/-! ## Output within the cap or past it (20_memory.md R60) -/

theorem finish_ret_eq_afterAnswer (s : State) (v : ResultBundle) :
    finish s (.ret v) = .next (afterAnswer s { STATUS := 0, RES := v }) := rfl

theorem finish_raise_eq_afterAnswer (s : State) (e : Err) (n : Nat) :
    finish s (.raise e n) = .next (afterAnswer s { STATUS := e.code, RES := .info n }) := rfl

/-- A command that ends by appending its output answers with it, or with `CapacityExceeded` at the cap. -/
theorem finish_appendAll {α : Type} (s : State) (vs : List α) (f : List α → ResultBundle) :
    (WithinCap s.config vs.length →
      finish s ((appendAll s.config [] vs).map f) = .next (afterAnswer s { STATUS := 0, RES := f vs })) ∧
    (∀ k, s.config.OUTPUT_CAP = some k → k < vs.length →
      finish s ((appendAll s.config [] vs).map f) = .next (afterAnswer s { STATUS := 5, RES := .info k })) := by
  refine ⟨fun hcap => ?_, fun k hk hlt => ?_⟩
  · rw [appendAll_within _ _ _ (by simpa [WithinCap, AtMost] using hcap)]
    rfl
  · rw [appendAll_past hk vs [] (Nat.zero_le k) (by simpa using hlt)]
    rfl

/-- Settles O28: the body of TOKEN_FORMAT appends the text. -/
theorem tokenFormatWritesTheText : Obligations.TokenFormatWritesTheText := by
  intro s c rest hc hlen
  rw [exec_of_passes hc (by simp [OperandCheckFails, hlen])]
  exact finish_appendAll s (fmt c.OPS.TOK) .bytes

/-! ## Numerals (30_encoding.md R81) -/

theorem fmtNumFrom_eq {b b' v : Nat} (h : v < b) (h' : v < b') : fmtNumFrom b v = fmtNumFrom b' v := by
  induction b generalizing b' v with
  | zero => omega
  | succ b ih =>
    obtain ⟨b', rfl⟩ : ∃ b'', b' = b'' + 1 := ⟨b' - 1, by omega⟩
    simp only [fmtNumFrom]
    split
    · rfl
    · rw [ih (b' := b') (by omega) (by omega)]

theorem fmtNum_of_lt {d : Nat} (h : d < 10) : fmtNum d = [digitChar d] := by
  rw [fmtNum, fmtNumFrom, if_pos h]

/-- A digit behind a numeral. -/
theorem fmtNum_snoc {v d : Nat} (hv : 0 < v) (hd : d < 10) : fmtNum (10 * v + d) = fmtNum v ++ [digitChar d] := by
  have hdiv : (10 * v + d) / 10 = v := by omega
  have hmod : (10 * v + d) % 10 = d := by omega
  rw [fmtNum, fmtNumFrom, if_neg (by omega), hdiv, hmod, fmtNum, fmtNumFrom_eq (b' := v + 1) (by omega) (by omega)]

/-- Induction on the numeral of a number: one digit, or a digit behind the numeral of a number that is not 0. -/
theorem decimal_induction {P : Nat → Prop} (digit : ∀ d < 10, P d)
    (snoc : ∀ v d, 0 < v → d < 10 → P v → P (10 * v + d)) (v : Nat) : P v := by
  induction v using Nat.strongRecOn with
  | ind v ih =>
    rcases Nat.lt_or_ge v 10 with h | h
    · exact digit v h
    · rw [← Nat.div_add_mod v 10]
      exact snoc (v / 10) (v % 10) (by omega) (by omega) (ih (v / 10) (by omega))

theorem toNat_digitChar {d : Nat} (h : d < 10) : (digitChar d).toNat = 0x30 + d := by
  rw [digitChar, BitVec.toNat_ofNat, Nat.mod_eq_of_lt (by omega)]

/-- `ds` is a numeral of `v`, the shortest, in the terms of 30_encoding.md R80 and R81. -/
structure IsShortestDecimal (v : Nat) (ds : List Byte) : Prop where
  digits : ∀ ch ∈ ds, 0x30 ≤ ch.toNat ∧ ch.toNat ≤ 0x39
  nonempty : ds ≠ []
  value : ds.foldl (fun n ch => 10 * n + (ch.toNat - 0x30)) 0 = v
  noLeadingZero : v ≠ 0 → ds.head? ≠ some 0x30

theorem fmtNum_isShortestDecimal (v : Nat) : IsShortestDecimal v (fmtNum v) := by
  induction v using decimal_induction with
  | digit d hd =>
    have hval := toNat_digitChar hd
    rw [fmtNum_of_lt hd]
    refine ⟨?_, nofun, ?_, fun hne hzero => hne ?_⟩
    · simp only [List.mem_singleton, forall_eq]
      omega
    · simp only [List.foldl_cons, List.foldl_nil]
      omega
    · rw [Option.some.inj hzero] at hval
      simpa using hval
  | snoc v d hv hd ih =>
    have hval := toNat_digitChar hd
    rw [fmtNum_snoc hv hd]
    refine ⟨?_, by simp, ?_, fun _ => ?_⟩
    · simp only [List.mem_append, List.mem_singleton]
      rintro ch (hch | rfl)
      · exact ih.digits ch hch
      · omega
    · simp only [List.foldl_append, List.foldl_cons, List.foldl_nil, ih.value]
      omega
    · rw [List.head?_append_of_ne_nil _ ih.nonempty]
      exact ih.noLeadingZero hv.ne'

/-- Settles O26. -/
theorem numeralsAreShortestDecimal : Obligations.NumeralsAreShortestDecimal :=
  ⟨rfl, fun v => have h := fmtNum_isShortestDecimal v; ⟨h.digits, h.nonempty, h.value, h.noLeadingZero⟩⟩

/-! ## The parser reads every text (30_encoding.md R80, R82) -/

theorem isDigit_digitChar {d : Nat} (h : d < 10) : isDigit (digitChar d) = true := by
  have hval := toNat_digitChar h
  exact decide_eq_true (by omega)

theorem digitVal_digitChar {d : Nat} (h : d < 10) : digitVal (digitChar d) = d := by
  rw [digitVal, toNat_digitChar h]
  omega

/-- A digit is the digit of its value. -/
theorem eq_digitChar_of_isDigit {ch : Byte} (h : isDigit ch = true) :
    digitVal ch < 10 ∧ ch = digitChar (digitVal ch) := by
  have hrange := of_decide_eq_true h
  have hlt : digitVal ch < 10 := by simp only [digitVal]; omega
  refine ⟨hlt, BitVec.eq_of_toNat_eq ?_⟩
  rw [toNat_digitChar hlt, digitVal]
  omega

theorem isDigit_fieldEnd (f : TextField) : isDigit (fieldEnd f) = false := by
  cases f <;> decide

theorem AtMost.mono {b : Option Nat} {m n : Nat} (h : AtMost b n) (hmn : m ≤ n) : AtMost b m :=
  fun k hk => hmn.trans (h k hk)

theorem tokenFits_iff {cfg : Config} {t : Token} :
    TokenFits cfg t ↔ AtMost (numMax cfg) t.offset ∧ AtMost (numMax cfg) t.length := by
  simp only [TokenFits, AtMost, numMax, Option.map_eq_some_iff, forall_exists_index, and_imp, forall_apply_eq_imp_iff₂,
    ← forall_and]

section Reads

variable {cfg : Config} {TEXT : List Byte} {r : TokenParseRegs}

/-- The parser reads a numeral that fits its field. -/
theorem forEach_fmtNum {f : TextField} {n : Nat} (hphase : r.phase = .first f) (hfits : AtMost (fieldMax cfg f) n) :
    ∃ p first, forEach (fmtNum n) r (parseByte cfg TEXT) = .ret (inNumber r f n p first) ∧ (first = 0x30 → n = 0) := by
  induction n using decimal_induction with
  | digit d hd =>
    have hdash : ¬ (f = .literal ∧ digitChar d = chDash) := fun ⟨_, h⟩ => by
      have hdigit := isDigit_digitChar hd
      rw [h] at hdigit
      exact absurd hdigit (by decide)
    refine ⟨r.p + 1, digitChar d, ?_, fun h => ?_⟩
    · rw [fmtNum_of_lt hd, forEach_cons, parseByte, hphase]
      simp only [firstByte]
      rw [if_neg hdash, isDigit_digitChar hd, digitVal_digitChar hd, exceeds_eq_false.mpr hfits]
      rfl
    · rw [← digitVal_digitChar hd, h]
      rfl
  | snoc v d hv hd ih =>
    obtain ⟨p, first, hrun, hfirst⟩ := ih (hfits.mono (by omega))
    have hlater : first ≠ 0x30 ∧ isDigit (digitChar d) = true := ⟨fun h => hv.ne' (hfirst h), isDigit_digitChar hd⟩
    refine ⟨p + 1, first, ?_, fun h => absurd h hlater.1⟩
    rw [fmtNum_snoc hv hd, forEach_append, hrun, Run.ret_bind, forEach_cons, ParseYields.parseByte_inNumber,
      if_pos hlater, digitVal_digitChar hd, exceeds_eq_false.mpr hfits]
    rfl

/-- The parser reads the numeral of a field and the byte that ends it. -/
theorem forEach_fmtNum_fieldEnd {f : TextField} {n : Nat} (hphase : r.phase = .first f)
    (hfits : AtMost (fieldMax cfg f) n) : ∃ p first,
      forEach (fmtNum n ++ [fieldEnd f]) r (parseByte cfg TEXT) = endNumber TEXT f n (inNumber r f n p first) := by
  obtain ⟨p, first, hrun, -⟩ := forEach_fmtNum (TEXT := TEXT) hphase hfits
  refine ⟨p, first, ?_⟩
  rw [forEach_append, hrun, Run.ret_bind, forEach_cons, ParseYields.parseByte_inNumber, isDigit_fieldEnd]
  simp

/-- The parser reads a literal and the byte that ends the token. -/
theorem forEach_fmtLit_chClose {off len : Nat} (lit : Option Byte) (hphase : r.phase = .first .literal)
    (hoff : r.off = some off) (hlen : r.len = some len) :
    ∃ r', forEach (fmtLit lit ++ [chClose]) r (parseByte cfg TEXT) = .ret r' ∧
      r'.S = r.S ++ [{ offset := off, length := len, literal := lit }] ∧ r'.phase = .space := by
  cases lit with
  | none => simp [fmtLit, parseByte, hphase, firstByte, endToken, hoff, hlen, readRegister]
  | some b =>
    have hfits : AtMost (fieldMax cfg .literal) b.toNat := by
      rintro m ⟨⟩
      exact Nat.le_of_lt_succ b.isLt
    obtain ⟨p, first, hrun⟩ := forEach_fmtNum_fieldEnd (TEXT := TEXT) hphase hfits
    refine ⟨_, hrun.trans (by simp [endNumber, endToken, inNumber, hoff, hlen, readRegister]; rfl), ?_⟩
    simp

/-- The parser reads the text of a token that fits. -/
theorem forEach_fmtTok {t : Token} (hphase : r.phase = .opening) (hfits : TokenFits cfg t) :
    ∃ r', forEach (fmtTok t) r (parseByte cfg TEXT) = .ret r' ∧ r'.S = r.S ++ [t] ∧ r'.phase = .space := by
  obtain ⟨hoff, hlen⟩ := tokenFits_iff.mp hfits
  have hopen : parseByte cfg TEXT r chOpen = .ret { r with p := r.p + 1, phase := .first .offset } := by
    simp [parseByte, hphase]
  obtain ⟨p₁, first₁, hrun₁⟩ := forEach_fmtNum_fieldEnd (cfg := cfg) (TEXT := TEXT)
    (r := { r with p := r.p + 1, phase := .first .offset }) (f := .offset) rfl hoff
  obtain ⟨p₂, first₂, hrun₂⟩ := forEach_fmtNum_fieldEnd (cfg := cfg) (TEXT := TEXT)
    (r := { r with
      p := p₁ + 1, v := some t.offset, first := some first₁, off := some t.offset, phase := .first .length })
    (f := .length) rfl hlen
  have hsplit : fmtTok t = [chOpen] ++ ((fmtNum t.offset ++ [fieldEnd .offset]) ++
      ((fmtNum t.length ++ [fieldEnd .length]) ++ (fmtLit t.literal ++ [chClose]))) := by
    simp [fmtTok, fieldEnd]
  rw [hsplit, forEach_append, forEach_cons, hopen, Run.ret_bind, forEach_nil, Run.ret_bind, forEach_append, hrun₁]
  simp only [endNumber, inNumber, Run.ret_bind]
  rw [forEach_append, hrun₂]
  exact forEach_fmtLit_chClose t.literal rfl rfl rfl

/-- The parser reads the text of every token sequence that fits, and its registers hold the tokens. -/
theorem forEach_fmt {toks : List Token} (hne : toks ≠ []) (hphase : r.phase = .opening)
    (hfits : ∀ t ∈ toks, TokenFits cfg t) :
    ∃ r', forEach (fmt toks) r (parseByte cfg TEXT) = .ret r' ∧ r'.S = r.S ++ toks ∧ r'.phase = .space := by
  induction toks generalizing r with
  | nil => exact absurd rfl hne
  | cons t ts ih =>
    obtain ⟨r₁, hrun, hS, hspace⟩ := forEach_fmtTok (TEXT := TEXT) hphase (hfits t List.mem_cons_self)
    cases ts with
    | nil => exact ⟨r₁, hrun, hS, hspace⟩
    | cons u ts =>
      obtain ⟨r₂, hrun₂, hS₂, hspace₂⟩ := ih (r := { r₁ with p := r₁.p + 1, phase := .opening }) (by simp) rfl
        fun t ht => hfits t (List.mem_cons_of_mem _ ht)
      have hstep : parseByte cfg TEXT r₁ chSpace = .ret { r₁ with p := r₁.p + 1, phase := .opening } := by
        simp [parseByte, hspace]
      refine ⟨r₂, ?_, by simp [hS₂, hS], hspace₂⟩
      rw [fmt, forEach_append, forEach_append, hrun, Run.ret_bind, forEach_cons, hstep]
      exact hrun₂

end Reads

theorem fmt_eq_nil_iff {toks : List Token} : fmt toks = [] ↔ toks = [] := by
  rcases toks with _ | ⟨t, _ | ⟨u, ts⟩⟩ <;> simp [fmt, fmtTok]

/-- Settles O27: the parser reads a text in one way only, and where nothing bounds its numbers it reads every text. -/
theorem tokenTextIsOneToOne : Obligations.TokenTextIsOneToOne := by
  intro toks toks' h
  by_cases hnil : toks = []
  · rw [hnil] at h ⊢
    exact (fmt_eq_nil_iff.mp h.symm).symm
  have hnil' : toks' ≠ [] := fun h' => hnil (fmt_eq_nil_iff.mp (h.trans (fmt_eq_nil_iff.mpr h')))
  have reads {toks : List Token} (hne : toks ≠ []) :=
    forEach_fmt (cfg := {}) (TEXT := []) (r := tokenParseStart []) hne rfl fun _ _ _ hbits => nomatch hbits
  obtain ⟨r, hrun, hS, -⟩ := reads hnil
  obtain ⟨r', hrun', hS', -⟩ := reads hnil'
  obtain rfl : r = r' := Run.ret.inj (hrun.symm.trans (h ▸ hrun'))
  exact hS.symm.trans hS'

/-! ## What the parser has read begins a valid text (30_encoding.md R83) -/

/-- The texts of tokens, each with a space behind it. -/
def spacedText (toks : List Token) : List Byte := toks.flatMap fun t => fmtTok t ++ [chSpace]

theorem fmt_snoc (toks : List Token) (t : Token) : fmt (toks ++ [t]) = spacedText toks ++ fmtTok t := by
  induction toks with
  | nil => rfl
  | cons u us ih =>
    obtain ⟨v, vs, hvs⟩ : ∃ v vs, us ++ [t] = v :: vs := List.exists_cons_of_ne_nil (by simp)
    rw [List.cons_append, hvs, fmt, ← hvs, ih]
    simp [spacedText]

/-- A space behind the text of some tokens. -/
theorem fmt_append_chSpace {toks : List Token} (h : toks ≠ []) : fmt toks ++ [chSpace] = spacedText toks := by
  obtain ⟨us, t, rfl⟩ : ∃ us t, toks = us ++ [t] := ⟨_, _, (List.dropLast_append_getLast h).symm⟩
  rw [fmt_snoc]
  simp [spacedText]

/-- The text of a token before the number or the literal of a field. -/
def fieldHead (off len : Nat) : TextField → List Byte
  | .offset => [chOpen]
  | .length => [chOpen] ++ fmtNum off ++ [chComma]
  | .literal => [chOpen] ++ fmtNum off ++ [chComma] ++ fmtNum len ++ [chComma]

/-- What the parser has read of the token in progress, spelled out from its registers. -/
def tokenSoFar (r : TokenParseRegs) : List Byte :=
  match r.phase with
  | .opening => []
  | .first f => fieldHead (r.off.getD 0) (r.len.getD 0) f
  | .digits f => fieldHead (r.off.getD 0) (r.len.getD 0) f ++ fmtNum (r.v.getD 0)
  | .closing => fieldHead (r.off.getD 0) (r.len.getD 0) .literal ++ [chDash]
  | .space => []

/-- What the parser has read of the text, spelled out from its registers. -/
def readText (r : TokenParseRegs) : List Byte :=
  if r.phase = .space then fmt r.S else spacedText r.S ++ tokenSoFar r

/-- The parser's registers after it has read the bytes of `TEXT` before its index: they spell these bytes, and hold only
numbers and tokens that fit (30_encoding.md R86). -/
structure HasRead (cfg : Config) (TEXT : List Byte) (r : TokenParseRegs) : Prop where
  text : readText r = TEXT.take r.p
  tokens : ∀ t ∈ r.S, TokenFits cfg t
  offset : AtMost (numMax cfg) (r.off.getD 0)
  length : AtMost (numMax cfg) (r.len.getD 0)
  number : ∀ f, r.phase = .digits f → AtMost (fieldMax cfg f) (r.v.getD 0)
  noLeadingZero : ∀ f, r.phase = .digits f → r.first ≠ some 0x30 → 0 < r.v.getD 0
  closing : r.phase = .closing → r.lit = some none
  started : r.phase = .space → r.S ≠ []
  parsed : r.parsed = decide (r.phase = .space ∧ r.p = TEXT.length)

namespace HasRead

variable {cfg : Config} {TEXT : List Byte} {r r' : TokenParseRegs} {c : Byte}

theorem start (h : TEXT ≠ []) : HasRead cfg TEXT (tokenParseStart TEXT) where
  text := by simp [readText, tokenSoFar, tokenParseStart, parseStart, spacedText]
  tokens := nofun
  offset := atMost_zero _
  length := atMost_zero _
  number := nofun
  noLeadingZero := nofun
  closing := nofun
  started := nofun
  parsed := by simpa [tokenParseStart, parseStart] using h

theorem not_parsed (h : HasRead cfg TEXT r) (hc : TEXT[r.p]? = some c) : r.parsed = false := by
  have hlt : r.p < TEXT.length := (List.getElem?_eq_some_iff.mp hc).1
  rw [h.parsed]
  exact decide_eq_false fun ⟨_, hp⟩ => hlt.ne hp

/-- The end of a token. -/
theorem of_endToken {lit : Option Byte} (h : endToken TEXT r = .ret r') (hlit : r.lit = some lit)
    (htext : TEXT.take (r.p + 1) = spacedText r.S ++ fieldHead (r.off.getD 0) (r.len.getD 0) .literal ++ fmtLit lit ++
      [chClose])
    (htokens : ∀ t ∈ r.S, TokenFits cfg t) (hoffset : AtMost (numMax cfg) (r.off.getD 0))
    (hlength : AtMost (numMax cfg) (r.len.getD 0)) : HasRead cfg TEXT r' := by
  obtain ⟨off, len, lit', hoff, hlen, hlit', rfl⟩ := endToken_eq_ret h
  obtain rfl : lit = lit' := Option.some.inj (hlit.symm.trans hlit')
  refine ⟨?_, ?_, hoffset, hlength, nofun, nofun, nofun, by simp, by simp⟩
  · rw [htext, hoff, hlen, readText, if_pos rfl, fmt_snoc]
    simp [fieldHead, fmtTok]
  · rw [hoff] at hoffset
    rw [hlen] at hlength
    simp only [List.mem_append, List.mem_singleton]
    rintro t (ht | rfl)
    · exact htokens t ht
    · exact tokenFits_iff.mpr ⟨hoffset, hlength⟩

theorem take_succ (h : HasRead cfg TEXT r) (hc : TEXT[r.p]? = some c) : TEXT.take (r.p + 1) = readText r ++ [c] := by
  rw [List.take_add_one, hc, h.text, Option.toList_some]

theorem of_firstByte {f : TextField} (h : HasRead cfg TEXT r) (hc : TEXT[r.p]? = some c) (hphase : r.phase = .first f)
    (hbyte : firstByte cfg f r c = .ret r') : HasRead cfg TEXT r' := by
  have htake := h.take_succ hc
  have hparsed := h.not_parsed hc
  unfold firstByte at hbyte
  split_ifs at hbyte with hdash hdigit hmax <;> cases hbyte
  · obtain ⟨rfl, rfl⟩ := hdash
    refine ⟨?_, h.tokens, h.offset, h.length, nofun, nofun, fun _ => rfl, nofun, hparsed.trans (by simp)⟩
    simp [htake, readText, tokenSoFar, hphase]
  · obtain ⟨hlt, hdigit⟩ := eq_digitChar_of_isDigit (by simpa using hdigit)
    refine ⟨?_, h.tokens, h.offset, h.length, ?_, ?_, nofun, nofun, hparsed.trans (by simp)⟩
    · simp [htake, readText, tokenSoFar, hphase, fmtNum_of_lt hlt, ← hdigit]
    · rintro _ ⟨⟩
      exact exceeds_eq_false.mp (by simpa using hmax)
    · rintro _ ⟨⟩ hzero
      refine Nat.pos_of_ne_zero fun hv => hzero ?_
      rw [hdigit, show digitVal c = 0 from hv]
      rfl

theorem of_endNumber {f : TextField} {v : Nat} (h : HasRead cfg TEXT r) (hc : TEXT[r.p]? = some (fieldEnd f))
    (hphase : r.phase = .digits f) (hv : r.v = some v) (hend : endNumber TEXT f v r = .ret r') :
    HasRead cfg TEXT r' := by
  have htake := h.take_succ hc
  have hparsed := h.not_parsed hc
  have hnumber : AtMost (fieldMax cfg f) v := by simpa [hv] using h.number f hphase
  cases f with
  | offset =>
    cases hend
    refine ⟨?_, h.tokens, hnumber, h.length, nofun, nofun, nofun, nofun, hparsed.trans (by simp)⟩
    simp [htake, readText, tokenSoFar, hphase, hv, fieldHead, fieldEnd]
  | length =>
    cases hend
    refine ⟨?_, h.tokens, h.offset, hnumber, nofun, nofun, nofun, nofun, hparsed.trans (by simp)⟩
    simp [htake, readText, tokenSoFar, hphase, hv, fieldHead, fieldEnd]
  | literal =>
    have hlt : v < 256 := Nat.lt_succ_of_le (hnumber 255 rfl)
    refine of_endToken (r := { r with lit := some (some (BitVec.ofNat 8 v)) }) hend rfl ?_ h.tokens h.offset h.length
    simp [htake, readText, tokenSoFar, hphase, hv, fieldEnd, fmtLit, Nat.mod_eq_of_lt hlt]

theorem of_laterByte {f : TextField} (h : HasRead cfg TEXT r) (hc : TEXT[r.p]? = some c) (hphase : r.phase = .digits f)
    (hbyte : laterByte cfg TEXT f r c = .ret r') : HasRead cfg TEXT r' := by
  obtain ⟨v, hv, hbyte⟩ := Run.bind_eq_ret.mp hbyte
  obtain ⟨first, hfirst, hbyte⟩ := Run.bind_eq_ret.mp hbyte
  rw [readRegister_eq_ret] at hv hfirst
  split_ifs at hbyte with hlater hmax hend
  · cases hbyte
    obtain ⟨hlt, hdigit⟩ := eq_digitChar_of_isDigit hlater.2
    have hpos : 0 < v := by simpa [hv] using h.noLeadingZero f hphase (by simpa [hfirst] using hlater.1)
    have hother : ∀ ph, ph ≠ .digits f → r.phase ≠ ph := fun _ hne he => hne (he.symm.trans hphase)
    refine ⟨?_, h.tokens, h.offset, h.length, fun g hg => ?_, fun _ _ _ => Nat.add_pos_left (by omega) _,
      fun he => absurd he (hother _ nofun), fun he => absurd he (hother _ nofun), (h.not_parsed hc).trans ?_⟩
    · simp [h.take_succ hc, readText, tokenSoFar, hphase, hv, fmtNum_snoc hpos hlt, ← hdigit]
    · cases hphase.symm.trans (show r.phase = .digits g from hg)
      exact exceeds_eq_false.mp (by simpa using hmax)
    · simp [hother]
  · exact h.of_endNumber (hend ▸ hc) hphase hv hbyte

/-- The byte read joins what is spelled out, and the registers stay within their bounds. -/
theorem of_parseByte (h : HasRead cfg TEXT r) (hc : TEXT[r.p]? = some c)
    (hbyte : parseByte cfg TEXT r c = .ret r') : HasRead cfg TEXT r' := by
  have htake := h.take_succ hc
  have hparsed := h.not_parsed hc
  cases hphase : r.phase <;> simp only [parseByte, hphase] at hbyte
  case opening =>
    split at hbyte <;> cases hbyte
    subst c
    refine ⟨?_, h.tokens, h.offset, h.length, nofun, nofun, nofun, nofun, hparsed.trans (by simp)⟩
    simp [htake, readText, tokenSoFar, hphase, fieldHead]
  case first f => exact h.of_firstByte hc hphase hbyte
  case digits f => exact h.of_laterByte hc hphase hbyte
  case closing =>
    split at hbyte
    next hend =>
      refine of_endToken hbyte (h.closing hphase) ?_ h.tokens h.offset h.length
      simp [htake, readText, tokenSoFar, hphase, fmtLit, hend]
    · cases hbyte
  case space =>
    split at hbyte <;> cases hbyte
    subst c
    refine ⟨?_, h.tokens, h.offset, h.length, nofun, nofun, nofun, nofun, hparsed.trans (by simp)⟩
    simp [htake, readText, tokenSoFar, hphase, fmt_append_chSpace (h.started hphase)]

/-- A token whose text begins with what has been read of the token in progress. -/
theorem exists_token (h : HasRead cfg TEXT r) : ∃ t, TokenFits cfg t ∧ tokenSoFar r <+: fmtTok t := by
  have hzero := atMost_zero (numMax cfg)
  unfold tokenSoFar
  split
  next => exact ⟨⟨0, 0, none⟩, tokenFits_iff.mpr ⟨hzero, hzero⟩, List.nil_prefix⟩
  next f _ =>
    refine ⟨⟨r.off.getD 0, r.len.getD 0, none⟩, tokenFits_iff.mpr ⟨h.offset, h.length⟩, ?_⟩
    cases f <;> simp [fieldHead, fmtTok]
  next f hphase =>
    have hnumber := h.number f hphase
    cases f with
    | offset =>
      refine ⟨⟨r.v.getD 0, 0, none⟩, tokenFits_iff.mpr ⟨hnumber, hzero⟩, ?_⟩
      simp [fieldHead, fmtTok]
    | length =>
      refine ⟨⟨r.off.getD 0, r.v.getD 0, none⟩, tokenFits_iff.mpr ⟨h.offset, hnumber⟩, ?_⟩
      simp [fieldHead, fmtTok]
    | literal =>
      have hlt : r.v.getD 0 < 256 := Nat.lt_succ_of_le (hnumber 255 rfl)
      refine ⟨⟨r.off.getD 0, r.len.getD 0, some (BitVec.ofNat 8 (r.v.getD 0))⟩,
        tokenFits_iff.mpr ⟨h.offset, h.length⟩, ?_⟩
      simp [fieldHead, fmtTok, fmtLit, Nat.mod_eq_of_lt hlt]
  next =>
    refine ⟨⟨r.off.getD 0, r.len.getD 0, none⟩, tokenFits_iff.mpr ⟨h.offset, h.length⟩, ?_⟩
    simp [fieldHead, fmtTok, fmtLit]
  next => exact ⟨⟨0, 0, none⟩, tokenFits_iff.mpr ⟨hzero, hzero⟩, List.nil_prefix⟩

/-- What has been read can be continued to a valid text. -/
theorem validStart (h : HasRead cfg TEXT r) : ValidStart cfg (TEXT.take r.p) := by
  rw [← h.text, readText]
  split
  · exact ⟨[], r.S, h.tokens, (List.append_nil _).symm⟩
  · obtain ⟨t, ht, y, hy⟩ := h.exists_token
    refine ⟨y, r.S ++ [t], ?_, ?_⟩
    · simp only [List.mem_append, List.mem_singleton]
      rintro u (hu | rfl)
      · exact h.tokens u hu
      · exact ht
    · rw [fmt_snoc, List.append_assoc, hy]

/-- A parse that has ended has read a valid text. -/
theorem validText (h : HasRead cfg TEXT r) (hparsed : r.parsed = true) : ValidText cfg TEXT := by
  obtain ⟨hspace, hp⟩ := of_decide_eq_true (h.parsed.symm.trans hparsed)
  refine ⟨r.S, h.tokens, ?_⟩
  have htext := h.text
  rwa [readText, if_pos hspace, hp, List.take_length] at htext

end HasRead

/-! ## The parser's bytes are the ticks of TOKEN_PARSE, and the ticks fix its answer -/

theorem Run.map_done_inj {x y : Run ResultBundle} (h : x.map Micro.done = y.map .done) : x = y := by
  cases x <;> cases y <;> cases h <;> rfl

namespace WorkYields

variable {cfg : Config} {ops : Operands} {m n : Nat} {w w' : Work} {x y : Run ResultBundle}

/-- The result is that of the registers one tick on. -/
theorem after (h : WorkYields cfg ops m w x) (hx : ∀ f, x ≠ .stop f) (hgo : microStep cfg ops w = .ret (.more w')) :
    ∃ m', WorkYields cfg ops m' w' x := by
  cases h with
  | ends h => cases x <;> cases hgo.symm.trans h
  | goes h h' => cases hgo.symm.trans h; exact ⟨_, h'⟩
  | stops => exact absurd rfl (hx _)

/-- The result is that of the tick that ends the command. -/
theorem eq_of_ends (h : WorkYields cfg ops m w x) (hx : ∀ f, x ≠ .stop f) (hend : microStep cfg ops w = y.map .done) :
    x = y := by
  cases h with
  | ends h => exact Run.map_done_inj (h.symm.trans hend)
  | goes h h' => cases y <;> cases h.symm.trans hend
  | stops => exact absurd rfl (hx _)

/-- The ticks fix the result. -/
theorem unique (h : WorkYields cfg ops m w x) (h' : WorkYields cfg ops n w y) (hx : ∀ f, x ≠ .stop f)
    (hy : ∀ f, y ≠ .stop f) : x = y := by
  induction h' generalizing m with
  | ends hend => exact h.eq_of_ends hx hend
  | goes hgo _ ih =>
    obtain ⟨_, h⟩ := h.after hx hgo
    exact ih h hy
  | stops => exact absurd rfl (hy _)

end WorkYields

theorem tokenParseBody_ne_stop (cfg : Config) (ops : Operands) (f : Fault) : tokenParseBody cfg ops ≠ .stop f :=
  have h : (tokenParseBody cfg ops).Ensures fun _ => True :=
    ((parse_ensures cfg ops.TEXT).bind fun _ _ => appendAll_ensures ..).map
  (Run.ensures_iff.mp h).1 f

/-- The parser has read the bytes before index `p` and stands at the registers `r`, from which the ticks give the answer
of the command. -/
structure ReadTo (cfg : Config) (ops : Operands) (p : Nat) (r : TokenParseRegs) : Prop where
  index : r.p = p
  appended : r.t = 0
  output : r.OUT = []
  read : HasRead cfg ops.TEXT r
  yields : ∃ m, WorkYields cfg ops m (.tokenParse r) (tokenParseBody cfg ops)

section Parse

variable {cfg : Config} {ops : Operands} {p : Nat} {r : TokenParseRegs}

theorem readTo_zero (h : ops.TEXT ≠ []) : ReadTo cfg ops 0 (tokenParseStart ops.TEXT) :=
  ⟨rfl, rfl, rfl, .start h, _, tokenParse_workYields cfg ops⟩

theorem ReadTo.succ {r' : TokenParseRegs} {c : Byte} (h : ReadTo cfg ops p r) (hc : ops.TEXT[p]? = some c)
    (hbyte : parseByte cfg ops.TEXT r c = .ret r') : ReadTo cfg ops (p + 1) r' := by
  rw [← h.index] at hc
  obtain ⟨hp, ht, hOUT⟩ := parseByte_advances hbyte
  refine ⟨by rw [hp, h.index], ht.trans h.appended, hOUT.trans h.output, h.read.of_parseByte hc hbyte, ?_⟩
  obtain ⟨m, hm⟩ := h.yields
  exact hm.after (tokenParseBody_ne_stop cfg ops)
    (by rw [ParseYields.tick_of_byte (h.read.not_parsed hc) hc, hbyte, Run.map_ret])

/-- Whatever the parser reads, it reads tick by tick. -/
theorem readTo_of_forEach (hne : ops.TEXT ≠ []) (hp : p ≤ ops.TEXT.length)
    (h : forEach (ops.TEXT.take p) (tokenParseStart ops.TEXT) (parseByte cfg ops.TEXT) = .ret r) :
    ReadTo cfg ops p r := by
  induction p generalizing r with
  | zero => cases h; exact readTo_zero hne
  | succ p ih =>
    have hc : ops.TEXT[p]? = some ops.TEXT[p] := List.getElem?_eq_getElem hp
    rw [List.take_add_one, hc, Option.toList_some, forEach_append] at h
    obtain ⟨q, hq, h⟩ := Run.bind_eq_ret.mp h
    rw [forEach_cons] at h
    obtain ⟨r', hbyte, hr⟩ := Run.bind_eq_ret.mp h
    cases hr
    exact (ih (Nat.le_of_succ_le hp) hq).succ hc hbyte

/-- The parser reads whatever begins a valid text. -/
theorem forEach_of_validStart {x : List Byte} (TEXT : List Byte) (h : ValidStart cfg x) :
    ∃ r, forEach x (tokenParseStart TEXT) (parseByte cfg TEXT) = .ret r := by
  obtain ⟨y, toks, hfits, hfmt⟩ := h
  by_cases hnil : toks = []
  · rw [hnil, fmt] at hfmt
    rw [(List.append_eq_nil_iff.mp hfmt.symm).1]
    exact ⟨_, rfl⟩
  · obtain ⟨r', hrun, -⟩ := forEach_fmt (TEXT := TEXT) (r := tokenParseStart TEXT) hnil rfl hfits
    rw [hfmt, forEach_append] at hrun
    obtain ⟨r, hr, -⟩ := Run.bind_eq_ret.mp hrun
    exact ⟨r, hr⟩

/-- The text is parsed: its tokens are appended. -/
theorem ReadTo.body_of_parsed (h : ReadTo cfg ops p r) (hparsed : r.parsed = true) :
    tokenParseBody cfg ops = (appendAll cfg [] r.S).map .tokens := by
  obtain ⟨m, hm⟩ := h.yields
  have happend : ((appendAll cfg [] r.S).map ResultBundle.tokens).Ensures fun _ => True := (appendAll_ensures ..).map
  exact hm.unique (parsed_workYields cfg ops hparsed h.appended h.output) (tokenParseBody_ne_stop cfg ops)
    (Run.ensures_iff.mp happend).1

/-- The text is at its end and not parsed: it ends inside a token, or behind a space. -/
theorem ReadTo.body_of_end (h : ReadTo cfg ops ops.TEXT.length r) (hparsed : r.parsed = false) :
    tokenParseBody cfg ops = .raise .truncatedInput ops.TEXT.length := by
  obtain ⟨m, hm⟩ := h.yields
  exact hm.eq_of_ends (tokenParseBody_ne_stop cfg ops)
    (by simp [microStep, tokenParseTick, parseGoesOn, hparsed, h.index])

/-- The byte at the index is not accepted. -/
theorem ReadTo.body_of_not_accepted {c : Byte} (h : ReadTo cfg ops p r) (hc : ops.TEXT[p]? = some c)
    (hbyte : ∀ r', parseByte cfg ops.TEXT r c ≠ .ret r') : tokenParseBody cfg ops = .raise .malformedToken p := by
  rw [← h.index] at hc ⊢
  obtain ⟨m, hm⟩ := h.yields
  have hstop := tokenParseBody_ne_stop cfg ops
  have htick := ParseYields.tick_of_byte (cfg := cfg) (h.read.not_parsed hc) hc
  cases hrun : parseByte cfg ops.TEXT r c with
  | ret r' => exact absurd hrun (hbyte r')
  | raise e n =>
    obtain ⟨rfl, rfl⟩ := parseByte_rejects hrun
    exact hm.eq_of_ends hstop (by rw [htick, hrun]; rfl)
  | stop f => exact absurd (hm.eq_of_ends (y := .stop f) hstop (by rw [htick, hrun]; rfl)) (hstop f)

/-! ## The three answers of TOKEN_PARSE (30_encoding.md R83) -/

theorem tokenParseBody_of_fmt {toks : List Token} (hfits : ∀ t ∈ toks, TokenFits cfg t) (hfmt : fmt toks = ops.TEXT) :
    tokenParseBody cfg ops = (appendAll cfg [] toks).map .tokens := by
  by_cases hnil : toks = []
  · rw [hnil, fmt] at hfmt
    simp [tokenParseBody, tokenParse, parse, ← hfmt, parseStart, whileLoop, parseGoesOn, hnil]
  · have hne : ops.TEXT ≠ [] := hfmt ▸ mt fmt_eq_nil_iff.mp hnil
    obtain ⟨r, hrun, hS, hspace⟩ := forEach_fmt (TEXT := ops.TEXT) (r := tokenParseStart ops.TEXT) hnil rfl hfits
    rw [hfmt] at hrun
    have hread : ReadTo cfg ops ops.TEXT.length r := readTo_of_forEach hne le_rfl (by rwa [List.take_length])
    rw [hread.body_of_parsed (hread.read.parsed.trans (decide_eq_true ⟨hspace, hread.index⟩)), hS]
    rfl

theorem tokenParseBody_of_validStart (hstart : ValidStart cfg ops.TEXT) (hvalid : ¬ ValidText cfg ops.TEXT) :
    tokenParseBody cfg ops = .raise .truncatedInput ops.TEXT.length := by
  have hne : ops.TEXT ≠ [] := fun h => hvalid ⟨[], nofun, h.symm⟩
  obtain ⟨r, hrun⟩ := forEach_of_validStart ops.TEXT hstart
  have hread : ReadTo cfg ops ops.TEXT.length r := readTo_of_forEach hne le_rfl (by rwa [List.take_length])
  exact hread.body_of_end (Bool.eq_false_of_not_eq_true fun h => hvalid (hread.read.validText h))

theorem tokenParseBody_of_not_validStart (hp : p < ops.TEXT.length) (hstart : ValidStart cfg (ops.TEXT.take p))
    (hnext : ¬ ValidStart cfg (ops.TEXT.take (p + 1))) : tokenParseBody cfg ops = .raise .malformedToken p := by
  have hne : ops.TEXT ≠ [] := List.ne_nil_of_length_pos (Nat.zero_lt_of_lt hp)
  obtain ⟨r, hrun⟩ := forEach_of_validStart ops.TEXT hstart
  have hread := readTo_of_forEach hne hp.le hrun
  have hc : ops.TEXT[p]? = some ops.TEXT[p] := List.getElem?_eq_getElem hp
  refine hread.body_of_not_accepted hc fun r' hbyte => hnext ?_
  have hread' := hread.succ hc hbyte
  exact hread'.index ▸ hread'.read.validStart

end Parse

/-- Settles O30: what the parser reads is what begins a valid text, so each of its three ends is one of R83's. -/
theorem tokenParseFollowsTheLongestValidStart : Obligations.TokenParseFollowsTheLongestValidStart := by
  intro s c rest hc hlen
  have hexec : exec .tokenParse s = finish s (tokenParseBody s.config c.OPS) :=
    exec_of_passes hc (by simp [OperandCheckFails, hlen])
  refine ⟨fun toks hfits hfmt => ?_, fun hstart hvalid => ?_, fun p hp hstart hnext => ?_⟩
  · rw [hexec, tokenParseBody_of_fmt hfits hfmt]
    exact finish_appendAll s toks .tokens
  · rw [hexec, tokenParseBody_of_validStart hstart hvalid]
    rfl
  · rw [hexec, tokenParseBody_of_not_validStart hp hstart hnext]
    rfl

/-! ## The errors of each command (60_exceptions.md R214) -/

/-- If the run raises an error, its code is among `E`. -/
def Run.RaisesIn {α : Type} (E : List Nat) (x : Run α) : Prop :=
  match x with
  | .ret _ => True
  | .raise e _ => e.code.toNat ∈ E
  | .stop _ => True

section Raises

variable {α β ρ ι : Type} {E : List Nat}

@[simp] theorem Run.raisesIn_ret {v : α} : (Run.ret v).RaisesIn E := trivial
@[simp] theorem Run.raisesIn_stop {f : Fault} : (Run.stop f : Run α).RaisesIn E := trivial
@[simp] theorem Run.raisesIn_raise {e : Err} {n : Nat} : (Run.raise e n : Run α).RaisesIn E ↔ e.code.toNat ∈ E := .rfl

theorem Run.RaisesIn.bind {x : Run α} {k : α → Run β} (hx : x.RaisesIn E) (hk : ∀ v, (k v).RaisesIn E) :
    (x.bind k).RaisesIn E := by
  cases x with
  | ret v => exact hk v
  | raise e n => exact hx
  | stop f => exact trivial

theorem Run.RaisesIn.map {x : Run α} (f : α → β) (hx : x.RaisesIn E) : (x.map f).RaisesIn E :=
  hx.bind fun _ => raisesIn_ret

theorem memRead_raisesIn (B : List α) (k : Nat) : (memRead B k).RaisesIn E := by
  unfold memRead
  cases B[k]? <;> trivial

theorem append_raisesIn (cfg : Config) (OUT : List α) (v : α) (hcap : 5 ∈ E) : (append cfg OUT v).RaisesIn E := by
  rcases append_cases cfg OUT v with ⟨-, h⟩ | ⟨-, h⟩ <;> rw [h]
  · exact Run.raisesIn_ret
  · exact Run.raisesIn_raise.mpr hcap

theorem forEach_raisesIn {body : ρ → ι → Run ρ} (hbody : ∀ r x, (body r x).RaisesIn E) (xs : List ι) (r : ρ) :
    (forEach xs r body).RaisesIn E := by
  induction xs generalizing r with
  | nil => exact Run.raisesIn_ret
  | cons x xs ih => exact (hbody r x).bind ih

theorem whileLoop_raisesIn {cond : ρ → Bool} {body : ρ → Run ρ} (hbody : ∀ r, (body r).RaisesIn E) (bound : Nat)
    (r : ρ) : (whileLoop bound cond body r).RaisesIn E := by
  induction bound generalizing r with
  | zero => unfold whileLoop; split <;> simp
  | succ bound ih =>
    unfold whileLoop
    split
    · exact (hbody r).bind ih
    · simp

theorem appendAll_raisesIn (cfg : Config) (OUT vs : List α) (hcap : 5 ∈ E) : (appendAll cfg OUT vs).RaisesIn E :=
  forEach_raisesIn (fun OUT v => append_raisesIn cfg OUT v hcap) vs OUT

/-! ### U1 and the codec of U2 -/

theorem runLen_raisesIn (IN : List Byte) (i pos limit : Nat) : (runLen IN i pos limit).RaisesIn E := by
  have hmore : ∀ run, (runGoesOn IN i pos limit run).RaisesIn E := fun run => by
    unfold runGoesOn
    split
    · exact (memRead_raisesIn ..).bind fun _ => (memRead_raisesIn ..).bind fun _ => Run.raisesIn_ret
    · exact Run.raisesIn_ret
  suffices h : ∀ bound run, (runLenFrom IN i pos limit bound run).RaisesIn E from h _ _
  intro bound
  induction bound with
  | zero => exact fun _ => Run.raisesIn_ret
  | succ bound ih =>
    refine fun run => (hmore run).bind fun more => ?_
    split
    · exact ih _
    · exact Run.raisesIn_ret

theorem betterMatch_raisesIn (IN : List Byte) (pos i run : Nat) (best : Match) :
    (betterMatch IN pos i run best).RaisesIn E := by
  unfold betterMatch
  split_ifs
  · exact (memRead_raisesIn ..).bind fun _ => Run.raisesIn_ret
  · exact Run.raisesIn_ret
  · exact Run.raisesIn_ret

theorem matchCore_raisesIn (IN : List Byte) (pos w : Nat) : (matchCore IN pos w).RaisesIn E := by
  have hstart : (pureLiteral IN pos).RaisesIn E := (memRead_raisesIn ..).bind fun _ => Run.raisesIn_ret
  refine hstart.bind fun start => forEach_raisesIn (fun best i => ?_) _ _
  exact (runLen_raisesIn ..).bind fun run => betterMatch_raisesIn ..

theorem lzEncode_raisesIn (cfg : Config) (IN : List Byte) (w : Nat) (hcap : 5 ∈ E) :
    (lzEncode cfg IN w).RaisesIn E := by
  refine .map _ (whileLoop_raisesIn (fun r => ?_) _ _)
  exact (matchCore_raisesIn ..).bind fun m => (append_raisesIn _ _ _ hcap).bind fun OUT => Run.raisesIn_ret

theorem lzDecode_raisesIn (cfg : Config) (TOK : List Token) (h : 1 ∈ E ∧ 2 ∈ E ∧ 5 ∈ E) :
    (lzDecode cfg TOK).RaisesIn E := by
  obtain ⟨hmalformed, hrange, hcap⟩ := h
  refine forEach_raisesIn (fun OUT t => (memRead_raisesIn ..).bind fun tok => ?_) _ _
  have haccept : (acceptToken TOK.length t OUT.length tok).RaisesIn E := by
    unfold acceptToken
    split_ifs
    · exact hmalformed
    · exact hmalformed
    · exact hmalformed
    · exact hrange
    · exact Run.raisesIn_ret
  refine haccept.bind fun _ => .bind ?_ fun OUT' => ?_
  · split
    · exact forEach_raisesIn (fun OUT _ => (memRead_raisesIn ..).bind fun b => append_raisesIn _ _ _ hcap) _ _
    · exact Run.raisesIn_ret
  · unfold appendLiteral
    split
    · exact append_raisesIn _ _ _ hcap
    · exact Run.raisesIn_ret

/-! ### U3 -/

theorem freqCount_raisesIn (IN : List Byte) : (freqCount IN).RaisesIn E :=
  forEach_raisesIn (fun _ _ => (memRead_raisesIn ..).bind fun _ => Run.raisesIn_ret) _ _

theorem popMin_raisesIn (Q : List Entry) : (popMin Q).RaisesIn E := by
  cases Q <;> simp [popMin]

theorem buildFrom_raisesIn (r : BuildTreeRegs) (hempty : 6 ∈ E) : (buildFrom r).RaisesIn E := by
  unfold buildFrom
  split
  · exact hempty
  · exact Run.raisesIn_ret
  · refine .bind (whileLoop_raisesIn (fun q => ?_) _ _) fun q => (popMin_raisesIn _).bind fun _ => Run.raisesIn_ret
    exact (popMin_raisesIn _).bind fun a => (popMin_raisesIn _).bind fun b => Run.raisesIn_ret

/-! ### U4 -/

theorem symbolOf_raisesIn (n : Node) : (symbolOf n).RaisesIn E := by
  unfold symbolOf
  split <;> simp

theorem checkTree_raisesIn (T : Node) (hcorrupt : 7 ∈ E) : (checkTree T).RaisesIn E := by
  rcases checkTree_eq T with ⟨-, h⟩ | ⟨-, h⟩ <;> rw [h]
  · exact Run.raisesIn_ret
  · exact Run.raisesIn_raise.mpr hcorrupt

theorem walk_raisesIn (n : Node) (path : List Bit) (C : CodeTable) : (walk n path C).RaisesIn E := by
  induction n generalizing path C with
  | leaf x f => exact (symbolOf_raisesIn _).bind fun _ => Run.raisesIn_ret
  | onlyLeft x f l ih => exact ih _ _
  | onlyRight x f r ih => exact ih _ _
  | branch x f l r ihl ihr => exact (ihl _ _).bind fun C => ihr _ _

theorem codeTable_raisesIn (T : Node) (hcorrupt : 7 ∈ E) : (codeTable T).RaisesIn E :=
  (checkTree_raisesIn T hcorrupt).bind fun _ => walk_raisesIn ..

theorem entEncode_raisesIn (cfg : Config) (IN : List Byte) (C : CodeTable) (h : 4 ∈ E ∧ 5 ∈ E) :
    (entEncode cfg IN C).RaisesIn E := by
  obtain ⟨hunknown, hcap⟩ := h
  refine forEach_raisesIn (fun OUT j => .bind ((memRead_raisesIn ..).bind fun c => ?_) fun code => ?_) _ _
  · split
    · exact Run.raisesIn_ret
    · exact hunknown
  · exact appendAll_raisesIn _ _ _ hcap

theorem entDecode_raisesIn (cfg : Config) (BITS : List Bit) (T : Node) (h : 3 ∈ E ∧ 5 ∈ E ∧ 7 ∈ E) :
    (entDecode cfg BITS T).RaisesIn E := by
  obtain ⟨htruncated, hcap, hcorrupt⟩ := h
  refine (checkTree_raisesIn T hcorrupt).bind fun _ => .bind (forEach_raisesIn (fun r j => ?_) _ _) fun r => ?_
  · refine (memRead_raisesIn ..).bind fun b => ?_
    split
    · exact hcorrupt
    · split
      · exact (symbolOf_raisesIn _).bind fun x => (append_raisesIn _ _ _ hcap).bind fun OUT => Run.raisesIn_ret
      · exact Run.raisesIn_ret
  · unfold entDecodeEnd
    split
    · exact htruncated
    · exact Run.raisesIn_ret

/-! ### The token text -/

/-- R83 leaves no text out: it is valid, or begins a valid one, or parts from all of them at one byte. -/
theorem text_trichotomy (cfg : Config) (x : List Byte) :
    ValidText cfg x ∨ (ValidStart cfg x ∧ ¬ ValidText cfg x) ∨
      ∃ p < x.length, ValidStart cfg (x.take p) ∧ ¬ ValidStart cfg (x.take (p + 1)) := by
  have hlongest : ∀ q ≤ x.length, ¬ ValidStart cfg (x.take q) →
      ∃ p < x.length, ValidStart cfg (x.take p) ∧ ¬ ValidStart cfg (x.take (p + 1)) := by
    intro q hq hnot
    induction q with
    | zero => exact absurd ⟨[], [], nofun, rfl⟩ hnot
    | succ q ih =>
      by_cases hstart : ValidStart cfg (x.take q)
      · exact ⟨q, hq, hstart, hnot⟩
      · exact ih (Nat.le_of_succ_le hq) hstart
  by_cases hvalid : ValidText cfg x
  · exact .inl hvalid
  by_cases hstart : ValidStart cfg x
  · exact .inr (.inl ⟨hstart, hvalid⟩)
  · exact .inr (.inr (hlongest x.length le_rfl (by rwa [List.take_length])))

theorem tokenParseBody_raisesIn (cfg : Config) (ops : Operands) (h : 1 ∈ E ∧ 3 ∈ E ∧ 5 ∈ E) :
    (tokenParseBody cfg ops).RaisesIn E := by
  obtain ⟨hmalformed, htruncated, hcap⟩ := h
  rcases text_trichotomy cfg ops.TEXT with ⟨toks, hfits, hfmt⟩ | ⟨hstart, hvalid⟩ | ⟨p, hp, hstart, hnext⟩
  · rw [tokenParseBody_of_fmt hfits hfmt]
    exact (appendAll_raisesIn _ _ _ hcap).map _
  · rw [tokenParseBody_of_validStart hstart hvalid]
    exact Run.raisesIn_raise.mpr htruncated
  · rw [tokenParseBody_of_not_validStart hp hstart hnext]
    exact Run.raisesIn_raise.mpr hmalformed

end Raises

/-- The pseudocode of each command raises only what its row of R214 marks. -/
theorem commandBody_raisesIn (i : Instr) (cfg : Config) (ops : Operands) :
    (commandBody i cfg ops).RaisesIn (mayRaise i) := by
  cases i with
  | findMatch => exact (matchCore_raisesIn ..).map _
  | lzEncode => exact (lzEncode_raisesIn _ _ _ (by decide)).map _
  | lzDecode => exact (lzDecode_raisesIn _ _ (by decide)).map _
  | tokenFormat => exact (appendAll_raisesIn _ _ _ (by decide)).map _
  | tokenParse => exact tokenParseBody_raisesIn _ _ (by decide)
  | freqCount => exact (freqCount_raisesIn _).map _
  | buildTree => exact (buildFrom_raisesIn _ (by decide)).map _
  | codeTable => exact (codeTable_raisesIn _ (by decide)).map _
  | entEncode => exact (entEncode_raisesIn _ _ _ (by decide)).map _
  | entDecode => exact (entDecode_raisesIn _ _ _ (by decide)).map _

theorem invalidArgument_mem_mayRaise (i : Instr) : Err.invalidArgument.code.toNat ∈ mayRaise i := by
  cases i <;> decide

/-- Settles O14: a command is answered, by its operand checks or by the end of its pseudocode. -/
theorem commandsRaiseOnlyTheirErrors : Obligations.CommandsRaiseOnlyTheirErrors := by
  intro i s c rest hc
  by_cases hfails : OperandCheckFails s.config i c.OPS
  · exact ⟨_, rejectedOperandsAreAnswered.2 i s c rest hc hfails, .inr ⟨invalidArgument_mem_mayRaise i, 0, rfl⟩⟩
  obtain ⟨r, hr⟩ := exec_answers i hc
  rw [exec_of_passes hc hfails] at hr ⊢
  cases hbody : commandBody i s.config c.OPS with
  | ret v =>
    refine ⟨_, finish_ret_eq_afterAnswer s v, .inl ⟨rfl, ?_⟩⟩
    rintro n rfl
    exact commandBody_bundleOk hbody
  | raise e n =>
    have hrow : (Run.raise e n : Run ResultBundle).RaisesIn (mayRaise i) := hbody ▸ commandBody_raisesIn i _ _
    exact ⟨_, finish_raise_eq_afterAnswer s e n, .inr ⟨hrow, n, rfl⟩⟩
  | stop f =>
    rw [hbody] at hr
    cases hr

end Sys2Proof.Machine

/-!
PROOFS of the statements of 40_window_matcher.md: the run length, and the match that FIND_MATCH answers with.

The idea: the loop over the window keeps "the best match among the candidates seen so far" (`BestBefore`). Two facts
carry it. At every candidate the run length is the largest common run of R101, and a candidate that is taken brings the
literal `IN[pos + run]?`, which is absent exactly where the run ends the input. At the end of the loop the candidates seen
are the whole window, and the invariant is R104.
-/

namespace Sys2Proof.Machine

/-- The rule of `for i in [a, b)` for a body that always returns: an invariant that speaks of the index. -/
theorem forEach_range_returns {ρ : Type} {I : Nat → ρ → Prop} {body : ρ → Nat → Run ρ} {a b : Nat} {r : ρ} (hab : a ≤ b)
    (hstep : ∀ i r, a ≤ i → i < b → I i r → ∃ r', body r i = .ret r' ∧ I (i + 1) r') (hr : I a r) :
    ∃ r', forEach (range a b) r body = .ret r' ∧ I b r' := by
  induction hab using Nat.decreasingInduction generalizing r with
  | self => exact ⟨r, by rw [range_of_le le_rfl, forEach_nil], hr⟩
  | of_succ a hlt ih =>
    obtain ⟨m, hbody, hm⟩ := hstep a r le_rfl hlt hr
    rw [range_succ hlt, forEach_cons, hbody]
    exact ih (fun i r hi => hstep i r (Nat.le_of_succ_le hi)) hm

/-! ## The run length (40_window_matcher.md R101) -/

section Runs

variable {IN : List Byte} {i pos limit L L' : Nat}

theorem commonRun_zero (h : pos ≤ limit) : CommonRun IN i pos limit 0 := ⟨h, fun _ hk => absurd hk (Nat.not_lt_zero _)⟩

theorem CommonRun.mono (h : CommonRun IN i pos limit L) (hle : L' ≤ L) : CommonRun IN i pos limit L' := by
  obtain ⟨hbound, heq⟩ := h
  exact ⟨by omega, fun k hk => heq k (hk.trans_le hle)⟩

/-- A common run grows by one byte where the run of the model goes on. -/
theorem commonRun_succ_iff (h : CommonRun IN i pos limit L) :
    CommonRun IN i pos limit (L + 1) ↔ pos + L < limit ∧ IN[i + L]? = IN[pos + L]? := by
  refine ⟨fun ⟨hbound, heq⟩ => ⟨hbound, heq L (Nat.lt_succ_self L)⟩, fun ⟨hbound, hbyte⟩ => ⟨hbound, fun k hk => ?_⟩⟩
  rcases Nat.lt_succ_iff_lt_or_eq.mp hk with hlt | rfl
  · exact h.2 k hlt
  · exact hbyte

/-- The largest common run is the one that cannot grow, because every shorter run is common too. -/
theorem CommonRun.isRunLength (h : CommonRun IN i pos limit L) (hend : ¬ CommonRun IN i pos limit (L + 1)) :
    IsRunLength IN i pos limit L :=
  ⟨h, fun _ h' => Nat.le_of_not_lt fun hlt => hend (h'.mono hlt)⟩

theorem IsRunLength.unique (h : IsRunLength IN i pos limit L) (h' : IsRunLength IN i pos limit L') : L = L' :=
  Nat.le_antisymm (h'.2 L h.1) (h.2 L' h'.1)

/-- The bytes compared are inside the input, so the test of the loop reads both, and it says whether the run grows. -/
theorem runGoesOn_iff_commonRun_succ {run : Nat} (hi : i ≤ pos) (hl : limit ≤ IN.length)
    (h : CommonRun IN i pos limit run) :
    ∃ more, runGoesOn IN i pos limit run = .ret more ∧ (more = true ↔ CommonRun IN i pos limit (run + 1)) := by
  rw [commonRun_succ_iff h]
  unfold runGoesOn
  split
  next hlt =>
    have hp : pos + run < IN.length := hlt.trans_le hl
    have hc : i + run < IN.length := by omega
    rw [memRead_of_lt hc, memRead_of_lt hp, List.getElem?_eq_getElem hc, List.getElem?_eq_getElem hp]
    exact ⟨_, rfl, by simp [hlt]⟩
  next hge => exact ⟨false, rfl, by simp [hge]⟩

/-- From a common run the loop goes on to the largest one; the bound left is what the run can still grow by. -/
theorem runLenFrom_isRunLength {bound run : Nat} (hi : i ≤ pos) (hl : limit ≤ IN.length)
    (hbound : pos + run + bound = limit) (hrun : CommonRun IN i pos limit run) :
    ∃ L, runLenFrom IN i pos limit bound run = .ret L ∧ IsRunLength IN i pos limit L := by
  induction bound generalizing run with
  | zero => exact ⟨run, rfl, hrun.isRunLength fun h => by have := h.1; omega⟩
  | succ bound ih =>
    obtain ⟨more, hgo, hgrows⟩ := runGoesOn_iff_commonRun_succ hi hl hrun
    rw [runLenFrom, hgo, Run.ret_bind]
    cases more with
    | true => exact ih (by omega) (hgrows.mp rfl)
    | false => exact ⟨run, rfl, hrun.isRunLength (hgrows.not.mp Bool.false_ne_true)⟩

end Runs

/-- What `runLen` returns at a candidate, in the terms of R101. -/
theorem runLen_isRunLength {IN : List Byte} {i pos : Nat} (w : Nat) (hi : i < pos) (hpos : pos < IN.length) :
    ∃ L, runLen IN i pos (runLimit pos w IN.length) = .ret L ∧ IsRunLength IN i pos (min (pos + w) IN.length) L :=
  have hle : pos ≤ min (pos + w) IN.length := le_min (Nat.le_add_right pos w) hpos.le
  runLenFrom_isRunLength hi.le (Nat.min_le_right _ _) (Nat.add_sub_cancel' hle) (commonRun_zero hle)

theorem IsRunLength.le_window {IN : List Byte} {i pos w L : Nat}
    (h : IsRunLength IN i pos (min (pos + w) IN.length) L) : L ≤ min w (IN.length - pos) := by
  obtain ⟨⟨hbound, -⟩, -⟩ := h
  omega

/-- Settles O17, from the loop of `runLen` and the run bound. -/
theorem runLengthIsTheLargestCommonRun : Obligations.RunLengthIsTheLargestCommonRun := by
  intro IN i pos w hi hpos
  obtain ⟨L, hL, hrun⟩ := runLen_isRunLength w hi hpos
  exact ⟨L, hL, hrun, hrun.le_window⟩

/-! ## The best match (40_window_matcher.md R103 to R106) -/

section BestMatch

variable {IN : List Byte} {pos w e : Nat} {best : Match}

/-- The loop goes through the candidates of the window in ascending order (40_window_matcher.md R100). -/
theorem inWindow_iff {i : Nat} : InWindow pos w i ↔ lo pos w ≤ i ∧ i < pos := by
  unfold InWindow lo
  split <;> omega

theorem pureLiteral_eq (hpos : pos < IN.length) :
    pureLiteral IN pos = .ret { offset := 0, length := 0, literal := IN[pos]? } := by
  rw [pureLiteral, memRead_of_lt hpos, Run.ret_bind, List.getElem?_eq_getElem hpos]

/-- The literal of a match that is taken is the byte after its run, which is absent at the end of the input (R105). -/
theorem betterMatch_eq (IN : List Byte) (pos i run : Nat) (best : Match) :
    betterMatch IN pos i run best =
      .ret (if run > best.length then { offset := pos - i, length := run, literal := IN[pos + run]? } else best) := by
  unfold betterMatch
  split_ifs with hrun hin
  · rw [memRead_of_lt hin, Run.ret_bind, List.getElem?_eq_getElem hin]
  · rw [List.getElem?_eq_none (Nat.le_of_not_lt hin)]
  · rfl

/-- The match is the best one among the candidates of the window before `e`: the pure literal, or the run at the first
of the candidates with the greatest run length. -/
structure BestBefore (IN : List Byte) (pos w e : Nat) (m : Match) : Prop where
  literal_eq : m.literal = IN[pos + m.length]?
  offset_zero : m.length = 0 → m.offset = 0
  taken : 1 ≤ m.length → ∃ i < e, InWindow pos w i ∧ m.offset = pos - i ∧
    IsRunLength IN i pos (min (pos + w) IN.length) m.length
  longest : ∀ i < e, InWindow pos w i → ∀ L, IsRunLength IN i pos (min (pos + w) IN.length) L → L ≤ m.length
  earliest : 1 ≤ m.length → ∀ i < e, InWindow pos w i →
    IsRunLength IN i pos (min (pos + w) IN.length) m.length → pos - i ≤ m.offset

/-- Before the loop no candidate has been seen. -/
theorem bestBefore_lo : BestBefore IN pos w (lo pos w) { offset := 0, length := 0, literal := IN[pos]? } where
  literal_eq := rfl
  offset_zero := fun _ => rfl
  taken := nofun
  longest := fun _ hi hw => absurd (inWindow_iff.mp hw).1 (Nat.not_le_of_lt hi)
  earliest := nofun

/-- A longer run is taken: it is the first of its length, since no candidate before it has a run that long. -/
theorem BestBefore.take {run : Nat} (h : BestBefore IN pos w e best) (he : InWindow pos w e)
    (hrun : IsRunLength IN e pos (min (pos + w) IN.length) run) (hlt : best.length < run) :
    BestBefore IN pos w (e + 1) { offset := pos - e, length := run, literal := IN[pos + run]? } where
  literal_eq := rfl
  offset_zero := fun hzero => absurd hzero (Nat.ne_zero_of_lt hlt)
  taken := fun _ => ⟨e, Nat.lt_succ_self e, he, rfl, hrun⟩
  longest := fun i hi hw L hL => by
    rcases Nat.lt_succ_iff_lt_or_eq.mp hi with hi | rfl
    · exact (h.longest i hi hw L hL).trans hlt.le
    · exact (hL.unique hrun).le
  earliest := fun _ i hi hw hL => by
    rcases Nat.lt_succ_iff_lt_or_eq.mp hi with hi | rfl
    · exact absurd (h.longest i hi hw run hL) (Nat.not_le_of_lt hlt)
    · exact le_rfl

/-- A run that is not longer is passed over: where it is as long, the candidate taken lies before it (R106). -/
theorem BestBefore.keep {run : Nat} (h : BestBefore IN pos w e best)
    (hrun : IsRunLength IN e pos (min (pos + w) IN.length) run) (hle : run ≤ best.length) :
    BestBefore IN pos w (e + 1) best where
  literal_eq := h.literal_eq
  offset_zero := h.offset_zero
  taken := fun hpos => by
    obtain ⟨i, hi, htaken⟩ := h.taken hpos
    exact ⟨i, Nat.lt_succ_of_lt hi, htaken⟩
  longest := fun i hi hw L hL => by
    rcases Nat.lt_succ_iff_lt_or_eq.mp hi with hi | rfl
    · exact h.longest i hi hw L hL
    · exact (hL.unique hrun).trans_le hle
  earliest := fun hpos i hi hw hL => by
    rcases Nat.lt_succ_iff_lt_or_eq.mp hi with hi | rfl
    · exact h.earliest hpos i hi hw hL
    · obtain ⟨j, hj, -, hoffset, -⟩ := h.taken hpos
      rw [hoffset]
      exact Nat.sub_le_sub_left hj.le pos

/-- One iteration of the loop of R103. -/
theorem BestBefore.step (h : BestBefore IN pos w e best) (he : InWindow pos w e) (hpos : pos < IN.length) :
    ∃ m, ((runLen IN e pos (runLimit pos w IN.length)).bind fun run => betterMatch IN pos e run best) = .ret m ∧
      BestBefore IN pos w (e + 1) m := by
  obtain ⟨run, hlen, hrun⟩ := runLen_isRunLength w he.1 hpos
  rw [hlen, Run.ret_bind, betterMatch_eq]
  refine ⟨_, rfl, ?_⟩
  split
  next hlt => exact h.take he hrun hlt
  next hle => exact h.keep hrun (Nat.le_of_not_lt hle)

theorem matchCore_bestBefore (w : Nat) (hpos : pos < IN.length) :
    ∃ m, matchCore IN pos w = .ret m ∧ BestBefore IN pos w pos m := by
  rw [matchCore, pureLiteral_eq hpos, Run.ret_bind]
  have hlo : lo pos w ≤ pos := by unfold lo; split <;> omega
  exact forEach_range_returns hlo (fun i _ hge hlt h => h.step (inWindow_iff.mpr ⟨hge, hlt⟩) hpos) bestBefore_lo

/-- The candidate that a match was taken at is read back from its offset. -/
theorem BestBefore.run_at_offset {m : Match} (h : BestBefore IN pos w e m) (hlen : 1 ≤ m.length) :
    1 ≤ m.offset ∧ m.offset ≤ min pos w ∧ IsRunLength IN (pos - m.offset) pos (min (pos + w) IN.length) m.length := by
  obtain ⟨i, -, ⟨hlt, hge⟩, hoffset, hrun⟩ := h.taken hlen
  obtain rfl : i = pos - m.offset := by omega
  exact ⟨by omega, by omega, hrun⟩

/-- The best match over the whole window meets every constraint of R104. -/
theorem BestBefore.matchSpec {m : Match} (h : BestBefore IN pos w pos m) (hpos : pos < IN.length) :
    MatchSpec IN pos w m := by
  have hinside : pos + m.length ≤ IN.length := by
    rcases Nat.eq_zero_or_pos m.length with hzero | hlen
    · omega
    · obtain ⟨-, -, hrun⟩ := h.run_at_offset hlen
      have := hrun.le_window
      omega
  constructor
  case zero_iff =>
    refine ⟨h.offset_zero, fun hzero => ?_⟩
    by_contra hlen
    have := (h.run_at_offset (Nat.one_le_iff_ne_zero.mpr hlen)).1
    omega
  case zero_literal =>
    intro hzero
    rw [h.literal_eq, hzero]
    exact ⟨rfl, by simpa using hpos⟩
  case bounds =>
    intro hlen
    obtain ⟨hge, hle, hrun⟩ := h.run_at_offset hlen
    exact ⟨hge, hle, hrun.le_window⟩
  case copies =>
    intro k hk
    obtain ⟨-, -, hcommon, -⟩ := h.run_at_offset (Nat.one_le_of_lt hk)
    exact hcommon.2 k hk
  case noLiteral_iff =>
    rw [h.literal_eq, List.getElem?_eq_none_iff]
    omega
  case literal_follows => exact fun b hb _ => h.literal_eq.symm.trans hb
  case longest => exact fun i L hw hL => h.longest i hw.1 hw L hL
  case attained => exact fun hlen => (h.run_at_offset hlen).2.2
  case earliest => exact fun hlen i hw hL => h.earliest hlen i hw.1 hw hL

/-- `matchCore` returns a match of R104 wherever its cursor is inside the input. -/
theorem matchCore_matchSpec (w : Nat) (hpos : pos < IN.length) :
    ∃ m, matchCore IN pos w = .ret m ∧ MatchSpec IN pos w m := by
  obtain ⟨m, hm, hbest⟩ := matchCore_bestBefore w hpos
  exact ⟨m, hm, hbest.matchSpec hpos⟩

/-- A match with a length copies the byte at the cursor from inside the window (R107). -/
theorem MatchSpec.length_eq_zero {m : Match} (h : MatchSpec IN pos w m)
    (hnone : ∀ d, 1 ≤ d → d ≤ w → d ≤ pos → IN[pos - d]? ≠ IN[pos]?) : m.length = 0 := by
  by_contra hlen
  have hlen : 1 ≤ m.length := Nat.one_le_iff_ne_zero.mpr hlen
  obtain ⟨hge, hle, -⟩ := h.bounds hlen
  exact hnone m.offset hge (hle.trans (Nat.min_le_right _ _)) (hle.trans (Nat.min_le_left _ _)) (h.copies 0 hlen)

end BestMatch

/-! ## The statements -/

/-- Settles O18: operands that pass the checks run `matchCore`. -/
theorem findMatchReturnsTheLongestMatch : Obligations.FindMatchReturnsTheLongestMatch := by
  intro s c rest hc hpos hin hwin
  obtain ⟨m, hm, hspec⟩ := matchCore_matchSpec c.OPS.windowSize hpos
  refine ⟨m, ?_, hspec⟩
  rw [exec_of_passes hc (by simp [OperandCheckFails, hin, hwin, hpos]), commandBody, findMatchBody, hm, Run.map_ret,
    finish_ret_eq_afterAnswer]

/-- Settles O19: the match of R104 has no length, and R104 says what it then is. -/
theorem repeatOutsideTheWindowIsALiteral : Obligations.RepeatOutsideTheWindowIsALiteral := by
  intro s c rest b hc hb hin hwin hnone
  have hpos : c.OPS.pos < c.OPS.IN.length := (List.getElem?_eq_some_iff.mp hb).1
  obtain ⟨⟨offset, length, literal⟩, hexec, hspec⟩ := findMatchReturnsTheLongestMatch s c rest hc hpos hin hwin
  obtain rfl : length = 0 := hspec.length_eq_zero (hb ▸ hnone)
  obtain rfl : offset = 0 := hspec.zero_iff.mp rfl
  obtain rfl : literal = some b := (hspec.zero_literal rfl).1.trans hb
  exact hexec

end Sys2Proof.Machine

/-!
PROOFS of the statements of 41_dictionary_codec.md: what the codec makes of an input and of a token stream, and the two
round trips.

The idea: everything a command of the codec writes is a row of appends. LZ_ENCODE appends the tokens that `Tokenizes`
names, and accepted tokens append the bytes that `Decodes` names, so each run is `appendAll` of an output that Safety.lean
says without the model's operations, and `OUTPUT_CAP` acts on it in one place (`finish_appendAll`). The round trip of the
codec is then a fact about these two notions alone: the tokens of an input append that input (`Tokenizes.decodes`).
-/

namespace Sys2Proof.Machine

/-! ## Rows of appends -/

section Rows

variable {α β : Type} {cfg : Config}

/-- What follows a run matters only at the value the run returns. -/
theorem Run.bind_congr {x : Run α} {k k' : α → Run β} (h : ∀ v, x = .ret v → k v = k' v) :
    x.bind k = x.bind k' := by
  cases x with
  | ret v => exact h v rfl
  | raise e n => rfl
  | stop f => rfl

theorem appendAll_nil (OUT : List α) : appendAll cfg OUT [] = .ret OUT := rfl

theorem appendAll_cons (OUT : List α) (v : α) (vs : List α) :
    appendAll cfg OUT (v :: vs) = (append cfg OUT v).bind fun OUT' => appendAll cfg OUT' vs := rfl

theorem appendAll_append (OUT vs ws : List α) :
    appendAll cfg OUT (vs ++ ws) = (appendAll cfg OUT vs).bind fun OUT => appendAll cfg OUT ws :=
  forEach_append ..

theorem eq_append_of_appendAll {OUT OUT' vs : List α} (h : appendAll cfg OUT vs = .ret OUT') : OUT' = OUT ++ vs := by
  induction vs generalizing OUT with
  | nil => cases h; exact (List.append_nil _).symm
  | cons v vs ih =>
    obtain ⟨OUT₁, happend, hrest⟩ := Run.bind_eq_ret.mp h
    obtain ⟨-, rfl⟩ := append_eq_ret.mp happend
    rw [ih hrest, List.append_assoc, List.singleton_append]

theorem not_withinCap {len : Nat} (h : ¬ WithinCap cfg len) : ∃ k, cfg.OUTPUT_CAP = some k ∧ k < len := by
  simpa [WithinCap, AtMost] using h

theorem withinCap_of_none (h : cfg.OUTPUT_CAP = none) (len : Nat) : WithinCap cfg len := by
  simp [WithinCap, AtMost, h]

end Rows

theorem afterAnswer_inj {s : State} {r r' : Response} : afterAnswer s r = afterAnswer s r' ↔ r = r' := State.answer_inj

/-! ## The tokens of an input (41_dictionary_codec.md R122 to R125) -/

theorem tokenSpan_eq_bytesOf (tok : Token) : tokenSpan tok = bytesOf tok := by
  unfold tokenSpan bytesOf
  cases tok.literal <;> rfl

section Tokens

variable {cfg : Config} {IN : List Byte} {w pos : Nat} {tok : Token} {toks : List Token}

/-- The match that a token is written from (10_state.md R28). -/
def Token.toMatch (tok : Token) : Match := { offset := tok.offset, length := tok.length, literal := tok.literal }

theorem tokenizes_cons : Tokenizes IN w pos (tok :: toks) ↔
    pos < IN.length ∧ MatchSpec IN pos w (Token.toMatch tok) ∧ Tokenizes IN w (pos + bytesOf tok) toks := .rfl

/-- A token takes the cursor forward, and not past the end of the input: its literal, if any, is inside. -/
theorem MatchSpec.advances (h : MatchSpec IN pos w (Token.toMatch tok)) (hpos : pos < IN.length) :
    1 ≤ bytesOf tok ∧ pos + bytesOf tok ≤ IN.length := by
  unfold bytesOf
  cases hlit : tok.literal with
  | none =>
    obtain ⟨hlen, hend⟩ := h.noLiteral_iff.mp hlit
    exact ⟨hlen, hend.le⟩
  | some b =>
    rcases Nat.eq_zero_or_pos tok.length with hzero | hlen
    · simpa [hzero] using hpos
    · exact ⟨Nat.succ_pos _, (List.getElem?_eq_some_iff.mp (h.literal_follows b hlit hlen)).1⟩

theorem MatchSpec.offset_le (h : MatchSpec IN pos w (Token.toMatch tok)) : tok.offset ≤ pos := by
  rcases Nat.eq_zero_or_pos tok.length with hzero | hlen
  · exact (h.zero_iff.mp hzero).trans_le (Nat.zero_le pos)
  · exact (h.bounds hlen).2.1.trans (Nat.min_le_left _ _)

/-- A no-literal token takes the cursor to the end of the input. -/
theorem MatchSpec.ends_of_noLiteral (h : MatchSpec IN pos w (Token.toMatch tok)) (hlit : tok.literal = none) :
    pos + bytesOf tok = IN.length := by
  rw [bytesOf, hlit]
  exact (h.noLiteral_iff.mp hlit).2

/-- The two classes of tokens that a match gives (10_state.md R29). -/
theorem MatchSpec.pureLiteral_or_reference (h : MatchSpec IN pos w (Token.toMatch tok)) :
    (tok.offset = 0 ∧ tok.length = 0 ∧ ∃ b, tok.literal = some b) ∨
      (1 ≤ tok.offset ∧ tok.offset ≤ w ∧ 1 ≤ tok.length ∧ tok.length ≤ w) := by
  rcases Nat.eq_zero_or_pos tok.length with hzero | hlen
  · exact .inl ⟨h.zero_iff.mp hzero, hzero, Option.ne_none_iff_exists'.mp (h.zero_literal hzero).2⟩
  · obtain ⟨hge, hle, hlen_le⟩ := h.bounds hlen
    exact .inr ⟨hge, hle.trans (Nat.min_le_right _ _), hlen, hlen_le.trans (Nat.min_le_left _ _)⟩

/-- At the end of the input there is no token. -/
theorem Tokenizes.eq_nil (h : Tokenizes IN w IN.length toks) : toks = [] := by
  cases toks with
  | nil => rfl
  | cons tok toks => exact absurd (tokenizes_cons.mp h).1 (Nat.lt_irrefl _)

theorem Tokenizes.sum_bytesOf (h : Tokenizes IN w pos toks) : pos + (toks.map bytesOf).sum = IN.length := by
  induction toks generalizing pos with
  | nil => exact h
  | cons tok toks ih =>
    obtain ⟨-, -, hrest⟩ := tokenizes_cons.mp h
    rw [List.map_cons, List.sum_cons, ← Nat.add_assoc]
    exact ih hrest

/-- Each token is the match at the cursor that the tokens before it lead to. -/
theorem Tokenizes.token_at (h : Tokenizes IN w pos toks) {k : Nat} (hk : toks[k]? = some tok) :
    Tokenizes IN w (pos + ((toks.take k).map bytesOf).sum) (tok :: toks.drop (k + 1)) := by
  induction toks generalizing pos k with
  | nil => cases hk
  | cons tok' toks ih =>
    cases k with
    | zero => cases hk; exact h
    | succ k =>
      obtain ⟨-, -, hrest⟩ := tokenizes_cons.mp h
      rw [List.take_succ_cons, List.map_cons, List.sum_cons, ← Nat.add_assoc]
      exact ih hrest hk

theorem lzEncodeGoesOn_iff {r : LzEncodeRegs} : lzEncodeGoesOn IN r = true ↔ r.pos < IN.length := decide_eq_true_iff

theorem lzEncodeLoop_at_end {bound : Nat} {r : LzEncodeRegs} (hend : r.pos = IN.length) :
    whileLoop bound (lzEncodeGoesOn IN) (lzEncodeToken cfg IN w) r = .ret r :=
  whileLoop_done (Bool.eq_false_of_not_eq_true (mt lzEncodeGoesOn_iff.mp hend.not_lt))

/-- The loop of LZ_ENCODE from its cursor appends the tokens of what is left of the input, one an iteration. -/
theorem lzEncodeLoop_eq_appendAll (cfg : Config) (IN : List Byte) (w : Nat) {bound : Nat} {r : LzEncodeRegs}
    (hpos : r.pos ≤ IN.length) (hbound : IN.length ≤ r.pos + bound) :
    ∃ toks, Tokenizes IN w r.pos toks ∧ toks.length ≤ bound ∧
      (whileLoop bound (lzEncodeGoesOn IN) (lzEncodeToken cfg IN w) r).map (fun r => r.OUT) =
        appendAll cfg r.OUT toks := by
  induction bound generalizing r with
  | zero =>
    have hend : r.pos = IN.length := hpos.antisymm hbound
    exact ⟨[], hend, le_rfl, by rw [lzEncodeLoop_at_end hend]; rfl⟩
  | succ bound ih =>
    rcases hpos.eq_or_lt with hend | hlt
    · exact ⟨[], hend, Nat.zero_le _, by rw [lzEncodeLoop_at_end hend]; rfl⟩
    · obtain ⟨m, hm, hspec⟩ := matchCore_matchSpec w hlt
      have hspan := tokenSpan_eq_bytesOf (Match.toToken m)
      obtain ⟨hadvance, hinside⟩ := MatchSpec.advances (tok := (Match.toToken m)) hspec hlt
      obtain ⟨toks, htoks, hlen, hrun⟩ := ih
        (r := { pos := r.pos + tokenSpan (Match.toToken m), m := some m, OUT := r.OUT ++ [(Match.toToken m)] })
        (by rw [hspan]; exact hinside) (by rw [hspan]; dsimp only; omega)
      refine ⟨(Match.toToken m) :: toks, ⟨hlt, hspec, hspan ▸ htoks⟩, Nat.succ_le_succ hlen, ?_⟩
      rw [whileLoop_goes (lzEncodeGoesOn_iff.mpr hlt), lzEncodeToken, hm, Run.ret_bind, appendAll_cons,
        Run.bind_assoc, Run.map, Run.bind_assoc]
      refine Run.bind_congr fun OUT happend => ?_
      obtain ⟨-, rfl⟩ := append_eq_ret.mp happend
      exact hrun

theorem lzEncodeBody_eq_appendAll (cfg : Config) (ops : Operands) :
    ∃ toks, Tokenizes ops.IN ops.windowSize 0 toks ∧ toks.length ≤ ops.IN.length ∧
      lzEncodeBody cfg ops = (appendAll cfg [] toks).map .tokens := by
  obtain ⟨toks, htoks, hlen, hrun⟩ := lzEncodeLoop_eq_appendAll cfg ops.IN ops.windowSize (r := lzEncodeStart)
    (Nat.zero_le _) (Nat.zero_add _).ge
  exact ⟨toks, htoks, hlen, congrArg (Run.map ResultBundle.tokens) hrun⟩

end Tokens

/-! ## What accepted tokens append (41_dictionary_codec.md R128 to R130) -/

/-- `copied`, behind `OUT`, repeats what stands `offset` before it, itself included (41_dictionary_codec.md R130). -/
def Repeats (offset : Nat) (OUT copied : List Byte) : Prop :=
  ∀ k < copied.length, (OUT ++ copied)[OUT.length + k]? = (OUT ++ copied)[OUT.length - offset + k]?

section Decode

variable {cfg : Config} {OUT OUT' : List Byte} {tok : Token} {TOK : List Token}
  {count t offset : Nat}

/-- The first repeated byte is in the output already. -/
theorem Repeats.head {b : Byte} {bs : List Byte} (h : Repeats offset OUT (b :: bs)) (hpos : 0 < offset)
    (hle : offset ≤ OUT.length) : OUT[OUT.length - offset]? = some b := by
  have hhead := h 0 (Nat.succ_pos _)
  rw [Nat.add_zero, Nat.add_zero, List.getElem?_append_left (i := OUT.length - offset) (by omega)] at hhead
  rw [← hhead, List.getElem?_append_right le_rfl, Nat.sub_self]
  rfl

/-- A byte once copied is a source for the next. -/
theorem Repeats.tail {b : Byte} {bs : List Byte} (h : Repeats offset OUT (b :: bs)) (hle : offset ≤ OUT.length) :
    Repeats offset (OUT ++ [b]) bs := by
  intro k hk
  have hnext := h (k + 1) (Nat.succ_lt_succ hk)
  have hcopy : OUT.length + 1 + k = OUT.length + (k + 1) := by omega
  have hsource : OUT.length + 1 - offset + k = OUT.length - offset + (k + 1) := by omega
  rwa [List.length_append, List.length_singleton, List.append_assoc, List.singleton_append, hcopy, hsource]

/-- The copies append the bytes that repeat the output. The index of the loop is not read. -/
theorem forEach_copyByte {ι : Type} {js : List ι} {bs : List Byte} (hpos : 0 < offset) (hle : offset ≤ OUT.length)
    (hlen : bs.length = js.length) (h : Repeats offset OUT bs) :
    forEach js OUT (fun OUT _ => copyByte cfg offset OUT) = appendAll cfg OUT bs := by
  induction js generalizing bs OUT with
  | nil => rw [List.eq_nil_of_length_eq_zero hlen]; rfl
  | cons j js ih =>
    obtain ⟨b, bs, rfl⟩ := List.exists_cons_of_length_eq_add_one hlen
    rw [forEach_cons, copyByte, memRead_eq_ret.mpr (h.head hpos hle), Run.ret_bind, appendAll_cons]
    refine Run.bind_congr fun OUT' happend => ?_
    obtain ⟨-, rfl⟩ := append_eq_ret.mp happend
    exact ih (by rw [List.length_append]; omega) (Nat.succ.inj hlen) (h.tail hle)

theorem appendLiteral_eq_appendAll (cfg : Config) (literal : Option Byte) (OUT : List Byte) :
    appendLiteral cfg literal OUT = appendAll cfg OUT literal.toList := by
  cases literal with
  | none => rfl
  | some b => exact (Run.bind_ret _).symm

theorem bytesOf_eq (tok : Token) : bytesOf tok = tok.length + tok.literal.toList.length := by
  unfold bytesOf
  cases tok.literal <;> rfl

/-- A row of bytes with at most one byte behind its first `n`. -/
theorem take_append_toList {bs : List Byte} {n : Nat} {literal : Option Byte}
    (hlen : bs.length = n + literal.toList.length) (hliteral : ∀ b, literal = some b → bs[n]? = some b) :
    bs.take n ++ literal.toList = bs := by
  cases literal with
  | none => exact (List.append_nil _).trans (List.take_of_length_le hlen.le)
  | some b =>
    calc bs.take n ++ [b] = bs.take (n + 1) := by rw [List.take_add_one, hliteral b rfl]; rfl
      _ = bs := List.take_of_length_le hlen.le

/-- What a token appends is the bytes it copies and its literal. -/
theorem Appends.exists_copied (h : Appends tok OUT OUT') :
    ∃ copied, OUT' = OUT ++ (copied ++ tok.literal.toList) ∧ copied.length = tok.length ∧
      Repeats tok.offset OUT copied := by
  obtain ⟨⟨bs, rfl⟩, hlen, hcopies, hliteral⟩ := h
  have hbs : bs.length = tok.length + tok.literal.toList.length := by simpa [bytesOf_eq] using hlen
  have hbytes : bs.take tok.length ++ tok.literal.toList = bs :=
    take_append_toList hbs fun b hb => by simpa [List.getElem?_append_right] using hliteral b hb
  have hle : tok.length ≤ bs.length := by omega
  refine ⟨bs.take tok.length, by rw [hbytes], List.length_take_of_le hle, fun k hk => ?_⟩
  rw [List.length_take_of_le hle] at hk
  have hsame : ∀ i < OUT.length + tok.length, (OUT ++ bs.take tok.length)[i]? = (OUT ++ bs)[i]? := fun i hi => by
    rw [← List.take_length_add_append, List.getElem?_take_of_lt hi]
  rw [hsame _ (by omega), hsame _ (by omega)]
  exact hcopies k hk

/-! ### The acceptance of a token, in the order of its checks (41_dictionary_codec.md R128) -/

theorem malformed_iff (ht : t < count) : Malformed count t tok ↔
    (tok.literal = none ∧ t + 1 ≠ count) ∨ (tok.literal = none ∧ (tok.offset = 0 ∨ tok.length = 0)) ∨
      (tok.offset = 0 ∧ tok.length > 0) := by
  have hlast : t ≠ count - 1 ↔ t + 1 ≠ count := by omega
  rw [Malformed, hlast]

theorem acceptToken_of_malformed (ht : t < count) (outLen : Nat) (h : Malformed count t tok) :
    acceptToken count t outLen tok = .raise .malformedToken t := by
  unfold acceptToken
  rcases (malformed_iff ht).mp h with hlast | hnone | hzero
  · rw [if_pos hlast]
  · rw [if_pos hnone, ite_self]
  · rw [if_pos hzero, ite_self, ite_self]

theorem acceptToken_of_not_malformed (ht : t < count) (outLen : Nat) (h : ¬ Malformed count t tok) :
    acceptToken count t outLen tok =
      if tok.offset > outLen then .raise .outOfRangeBackReference t else .ret () := by
  simp only [malformed_iff ht, not_or] at h
  obtain ⟨hlast, hnone, hzero⟩ := h
  rw [acceptToken, if_neg hlast, if_neg hnone, if_neg hzero]

/-! ### Accepted tokens in a row -/

/-- An accepted token appends what `Appends` says. -/
theorem lzDecodeToken_eq_appendAll (htok : TOK[t]? = some tok) (hformed : ¬ Malformed TOK.length t tok)
    (hoff : tok.offset ≤ OUT.length) (happends : Appends tok OUT OUT') :
    ∃ bs, OUT' = OUT ++ bs ∧ lzDecodeToken cfg TOK OUT t = appendAll cfg OUT bs := by
  have ht : t < TOK.length := (List.getElem?_eq_some_iff.mp htok).1
  have hzero : tok.offset = 0 → tok.length = 0 := fun hoff =>
    Nat.eq_zero_of_not_pos fun hlen => hformed (.inr (.inr ⟨hoff, hlen⟩))
  obtain ⟨copied, rfl, hlen, hrepeats⟩ := happends.exists_copied
  refine ⟨_, rfl, ?_⟩
  have hcopy : (if tok.offset > 0 then copyRun cfg tok.offset tok.length OUT else .ret OUT) =
      appendAll cfg OUT copied := by
    split
    next hpos => exact forEach_copyByte hpos hoff (by rw [length_range, hlen, Nat.sub_zero]) hrepeats
    next hpos => rw [List.eq_nil_of_length_eq_zero (hlen.trans (hzero (Nat.eq_zero_of_not_pos hpos))), appendAll_nil]
  simp only [lzDecodeToken, memRead_eq_ret.mpr htok, Run.ret_bind, acceptToken_of_not_malformed ht _ hformed,
    if_neg (Nat.not_lt.mpr hoff), hcopy, appendLiteral_eq_appendAll, appendAll_append]

/-- LZ_DECODE of tokens that are accepted up to some index appends what they append, and goes on from there. -/
theorem forEach_lzDecodeToken {toks post : List Token} (hdrop : TOK.drop t = toks ++ post)
    (h : Decodes TOK.length t toks OUT OUT') :
    ∃ bs, OUT' = OUT ++ bs ∧ forEach (range t TOK.length) OUT (lzDecodeToken cfg TOK) =
      (appendAll cfg OUT bs).bind fun OUT =>
        forEach (range (t + toks.length) TOK.length) OUT (lzDecodeToken cfg TOK) := by
  induction toks generalizing t OUT with
  | nil => exact ⟨[], h.trans (List.append_nil OUT).symm, rfl⟩
  | cons tok toks ih =>
    obtain ⟨hformed, hoff, mid, happends, hrest⟩ := h
    have htok : TOK[t]? = some tok := by
      have hhead : (TOK.drop t)[0]? = some tok := by rw [hdrop]; rfl
      simpa using hhead
    have ht : t < TOK.length := (List.getElem?_eq_some_iff.mp htok).1
    have hdrop' : TOK.drop (t + 1) = toks ++ post := by rw [← List.tail_drop, hdrop]; rfl
    obtain ⟨bs, rfl, htoken⟩ := lzDecodeToken_eq_appendAll (cfg := cfg) htok hformed hoff happends
    obtain ⟨bs', rfl, hloop⟩ := ih hdrop' hrest
    refine ⟨bs ++ bs', List.append_assoc .., ?_⟩
    rw [range_succ ht, forEach_cons, htoken, appendAll_append, Run.bind_assoc, List.length_cons,
      Nat.add_comm toks.length, ← Nat.add_assoc]
    refine Run.bind_congr fun OUT₁ hrun => ?_
    rw [eq_append_of_appendAll hrun]
    exact hloop

theorem lzDecodeBody_of_decodes {ops : Operands} {pre post : List Token} (hTOK : ops.TOK = pre ++ post)
    (h : Decodes ops.TOK.length 0 pre [] OUT) :
    lzDecodeBody cfg ops = ((appendAll cfg [] OUT).bind fun OUT =>
      forEach (range pre.length ops.TOK.length) OUT (lzDecodeToken cfg ops.TOK)).map .bytes := by
  obtain ⟨bs, rfl, hloop⟩ := forEach_lzDecodeToken (cfg := cfg) (t := 0) hTOK h
  rw [lzDecodeBody, lzDecode, hloop, Nat.zero_add]

/-- A token that is not accepted ends the command with its error (41_dictionary_codec.md R128). -/
theorem forEach_lzDecodeToken_of_raises {e : Err} (htok : TOK[t]? = some tok)
    (h : acceptToken TOK.length t OUT.length tok = .raise e t) :
    forEach (range t TOK.length) OUT (lzDecodeToken cfg TOK) = .raise e t := by
  rw [range_succ (List.getElem?_eq_some_iff.mp htok).1, forEach_cons, lzDecodeToken, memRead_eq_ret.mpr htok,
    Run.ret_bind, h, Run.raise_bind, Run.raise_bind]

end Decode

/-! ## The tokens of an input append that input (41_dictionary_codec.md R133) -/

section RoundTrip

variable {IN : List Byte} {w pos : Nat} {tok : Token} {toks : List Token}

/-- Behind the input up to the cursor, the token of a match at the cursor appends the input's next bytes. -/
theorem MatchSpec.appends (h : MatchSpec IN pos w (Token.toMatch tok)) (hpos : pos < IN.length) :
    Appends tok (IN.take pos) (IN.take (pos + bytesOf tok)) := by
  obtain ⟨-, hinside⟩ := h.advances hpos
  have hlen : (IN.take pos).length = pos := List.length_take_of_le hpos.le
  have hoff : tok.offset ≤ pos := h.offset_le
  have hcopied : tok.length ≤ bytesOf tok := Nat.le_add_right _ _
  refine ⟨List.take_prefix_take_left (Nat.le_add_right _ _), ?_, fun k hk => ?_, fun b hb => ?_⟩
  · rw [List.length_take_of_le hinside, hlen]
  · rw [hlen, List.getElem?_take_of_lt (by omega), List.getElem?_take_of_lt (by omega)]
    exact (h.copies k hk).symm
  · rw [hlen, List.getElem?_take_of_lt (by simp [bytesOf, hb])]
    rcases Nat.eq_zero_or_pos tok.length with hzero | hpos'
    · rw [hzero]
      exact (h.zero_literal hzero).1.symm.trans hb
    · exact h.literal_follows b hb hpos'

/-- A token of an input passes checks 1 to 3: it is in one of the two classes, and without a literal it is last. -/
theorem Tokenizes.not_malformed (h : Tokenizes IN w pos (tok :: toks)) (t : Nat) :
    ¬ Malformed (t + (tok :: toks).length) t tok := by
  obtain ⟨-, hspec, hrest⟩ := tokenizes_cons.mp h
  rintro (⟨hlit, hlast⟩ | ⟨hlit, hzero⟩ | ⟨hoff, hlen⟩)
  · rw [hspec.ends_of_noLiteral hlit] at hrest
    exact hlast (by rw [hrest.eq_nil]; rfl)
  · rcases hspec.pureLiteral_or_reference with ⟨-, -, b, hb⟩ | ⟨hoff, -, hlen, -⟩
    · rw [hlit] at hb; cases hb
    · omega
  · exact hlen.ne' (hspec.zero_iff.mpr hoff)

theorem Tokenizes.decodes (h : Tokenizes IN w pos toks) (t : Nat) :
    Decodes (t + toks.length) t toks (IN.take pos) IN := by
  induction toks generalizing pos t with
  | nil => exact (List.take_of_length_le h.ge).symm
  | cons tok toks ih =>
    obtain ⟨hpos, hspec, hrest⟩ := tokenizes_cons.mp h
    refine ⟨h.not_malformed t, ?_, _, hspec.appends hpos, ?_⟩
    · rw [List.length_take_of_le hpos.le]
      exact hspec.offset_le
    · rw [List.length_cons, Nat.add_comm toks.length, ← Nat.add_assoc]
      exact ih hrest (t + 1)

end RoundTrip

theorem step_presenting (cfg : Config) (i : Instr) (ops : Operands) :
    step (presenting cfg i ops) = exec i (presenting cfg i ops) :=
  stepRunsTheDecodedCommand _ _ [] i rfl rfl (encodedCommandsDecode i)

/-! ## The statements -/

/-- Settles O20: the loop appends the tokens of the input. -/
theorem lzEncodeTokenizesItsInput : Obligations.LzEncodeTokenizesItsInput := by
  intro s c rest hc hin hwin
  obtain ⟨toks, htoks, hlen, hbody⟩ := lzEncodeBody_eq_appendAll s.config c.OPS
  refine ⟨toks, htoks, hlen, ?_⟩
  rw [exec_of_passes hc (by simp [OperandCheckFails, hin, hwin]), commandBody, hbody]
  exact finish_appendAll s toks .tokens

/-- Settles O23: the tokens accepted are all there are, so the run is the appends of what they append. -/
theorem lzDecodeRunsAcceptedStreams : Obligations.LzDecodeRunsAcceptedStreams := by
  intro s c rest OUT hc hin hdecodes
  rw [exec_of_passes hc (by simp [OperandCheckFails, hin]), commandBody,
    lzDecodeBody_of_decodes (List.append_nil _).symm hdecodes, range_of_le le_rfl]
  simp only [forEach_nil, Run.bind_ret]
  exact finish_appendAll s OUT .bytes

/-- Settles O25: the tokens that LZ_ENCODE answers with append the input. -/
theorem lzDecodeInvertsLzEncode : Obligations.LzDecodeInvertsLzEncode := by
  intro cfg ops IN w hcap hin hwin
  obtain ⟨toks, htoks, hlen, hencode, -⟩ := lzEncodeTokenizesItsInput
    (presenting cfg .lzEncode { ops with IN := IN, windowSize := w }) _ [] rfl hin hwin
  have hdecodes : Decodes toks.length 0 toks [] IN := by simpa using htoks.decodes 0
  obtain ⟨hdecode, -⟩ := lzDecodeRunsAcceptedStreams
    (presenting cfg .lzDecode { ops with TOK := toks }) _ [] IN rfl (hin.mono hlen) hdecodes
  exact ⟨toks, (step_presenting ..).trans (hencode (withinCap_of_none hcap _)),
    (step_presenting ..).trans (hdecode (withinCap_of_none hcap _))⟩

/-- Settles O29: the text that TOKEN_FORMAT answers with is a valid text, with these tokens. -/
theorem tokenParseInvertsTokenFormat : Obligations.TokenParseInvertsTokenFormat := by
  intro cfg ops TOK hcap hbits hin htext
  obtain ⟨hformat, -⟩ := tokenFormatWritesTheText (presenting cfg .tokenFormat { ops with TOK := TOK }) _ [] rfl hin
  obtain ⟨hparse, -, -⟩ := tokenParseFollowsTheLongestValidStart
    (presenting cfg .tokenParse { ops with TEXT := fmt TOK }) _ [] rfl htext
  have hfits : ∀ tok ∈ TOK, TokenFits cfg tok := fun _ _ bits hsome => by rw [hbits] at hsome; cases hsome
  exact ⟨fmt TOK, (step_presenting ..).trans (hformat (withinCap_of_none hcap _)),
    (step_presenting ..).trans ((hparse TOK hfits rfl).1 (withinCap_of_none hcap _))⟩

/-- An `OK` answer of LZ_ENCODE carries the tokens of its input: every other answer has another status. -/
theorem tokenizes_of_lzEncode {s : State} {c : Command} {rest : List Command} {OUT : List Token}
    (hc : s.commands = c :: rest)
    (h : exec .lzEncode s = .next (afterAnswer s { STATUS := 0, RES := .tokens OUT })) :
    Tokenizes c.OPS.IN c.OPS.windowSize 0 OUT := by
  have hanswer : ∀ r, exec .lzEncode s = .next (afterAnswer s r) → r = { STATUS := 0, RES := .tokens OUT } :=
    fun r hr => afterAnswer_inj.mp (Host.Outcome.next.inj (hr.symm.trans h))
  by_cases hfails : OperandCheckFails s.config .lzEncode c.OPS
  · cases hanswer _ (rejectedOperandsAreAnswered.2 _ s c rest hc hfails)
  · obtain ⟨hin, hwin⟩ : AtMost s.config.MAX_INPUT_LEN c.OPS.IN.length ∧
        AtMost s.config.WINDOW_MAX c.OPS.windowSize := by simpa [OperandCheckFails] using hfails
    obtain ⟨toks, htoks, -, hwithin, hpast⟩ := lzEncodeTokenizesItsInput s c rest hc hin hwin
    by_cases hcap : WithinCap s.config toks.length
    · cases hanswer _ (hwithin hcap)
      exact htoks
    · obtain ⟨k, hk, hlt⟩ := not_withinCap hcap
      cases hanswer _ (hpast k hk hlt)

/-- Settles O21: each token is a match of R104 at its cursor. -/
theorem lzEncodeTokensMeetTheInvariants : Obligations.LzEncodeTokensMeetTheInvariants := by
  intro s c rest OUT hc h
  have htoks := tokenizes_of_lzEncode hc h
  refine ⟨(Nat.zero_add _).symm.trans htoks.sum_bytesOf, ?_⟩
  rintro k tok pos hk rfl
  have hat := htoks.token_at hk
  rw [Nat.zero_add] at hat
  obtain ⟨hpos, hspec, hrest⟩ := tokenizes_cons.mp hat
  refine ⟨hpos, (hspec.advances hpos).2, hspec.offset_le, fun hlit => ?_, hspec.pureLiteral_or_reference⟩
  have hend := hspec.ends_of_noLiteral hlit
  rw [hend] at hrest
  have hlast : OUT.length ≤ k + 1 := List.drop_eq_nil_iff.mp hrest.eq_nil
  exact ⟨Nat.le_antisymm (List.getElem?_eq_some_iff.mp hk).1 hlast, hend⟩

/-- Settles O24: the accepted tokens append their bytes first, and only then is the next token checked. -/
theorem lzDecodeRejectsTokens : Obligations.LzDecodeRejectsTokens := by
  intro s c rest pre post OUT hc hin hTOK hdecodes
  rw [exec_of_passes hc (by simp [OperandCheckFails, hin]), commandBody, lzDecodeBody_of_decodes hTOK hdecodes]
  refine ⟨fun tok more hpost hcap => ?_, fun k hk hlt => ?_⟩
  · have htok : c.OPS.TOK[pre.length]? = some tok := by simp [hTOK, hpost]
    have hlt : pre.length < c.OPS.TOK.length := (List.getElem?_eq_some_iff.mp htok).1
    rw [appendAll_within _ _ _ (by simpa [WithinCap, AtMost] using hcap), Run.ret_bind, List.nil_append]
    refine ⟨fun hmalformed => ?_, fun hformed hoff => ?_⟩
    · rw [forEach_lzDecodeToken_of_raises htok (acceptToken_of_malformed hlt _ hmalformed)]
      rfl
    · rw [forEach_lzDecodeToken_of_raises htok
        ((acceptToken_of_not_malformed hlt _ hformed).trans (if_pos hoff))]
      rfl
  · rw [appendAll_past hk OUT [] (Nat.zero_le k) (by simpa using hlt)]
    rfl

/-- Settles O22: the empty input has no token, and no token appends nothing. -/
theorem emptyInputGivesEmptyOutput : Obligations.EmptyInputGivesEmptyOutput := by
  intro s c rest hc
  refine ⟨fun hIN hwin => ?_, fun hTOK => ?_⟩
  · obtain ⟨toks, -, hlen, hwithin, -⟩ := lzEncodeTokenizesItsInput s c rest hc (by simp [hIN]) hwin
    rw [hIN, List.length_nil, Nat.le_zero, List.length_eq_zero_iff] at hlen
    subst hlen
    exact hwithin (withinCap_zero _)
  · obtain ⟨hwithin, -⟩ := lzDecodeRunsAcceptedStreams s c rest [] hc (by simp [hTOK]) (by rw [hTOK]; rfl)
    exact hwithin (withinCap_zero _)

end Sys2Proof.Machine

/-!
PROOFS of the statements of 42_tree_builder.md: the counts of an input, the tree that BUILD_TREE answers with, its size,
and its cost.

The idea: the queue is in key order and every new entry has a new number, so the loop of the model makes the merges of
`MergesTo`, which leave no choice. Every tree that BUILD_TREE answers with is then known by `IsTreeOf` alone, and the
facts about trees are inductions over `MergesTo`, without the loop. That no code costs less is one of them: a code gives
the entries of the queue lengths that meet the Kraft inequality (a plan), and each merge turns a plan of the queue into
a plan of the queue after it, which costs less by at least the frequency of the new node.
-/

namespace Sys2Proof.Machine

/-! ## The queue (42_tree_builder.md R153, R164) -/

section Queue

variable {a b c e : Entry} {Q : List Entry} {n : Nat}

theorem keyLt_iff : keyLt a b = true ↔ KeyBefore a b := by
  simp [keyLt, KeyBefore]

theorem KeyBefore.trans (hab : KeyBefore a b) (hbc : KeyBefore b c) : KeyBefore a c := by
  unfold KeyBefore at *
  omega

theorem KeyBefore.asymm (hab : KeyBefore a b) : ¬ KeyBefore b a := by
  unfold KeyBefore at *
  omega

/-- Two entries with different sequence numbers are in one order or the other. -/
theorem keyBefore_of_not (hseq : b.seq ≠ a.seq) (h : ¬ KeyBefore a b) : KeyBefore b a := by
  unfold KeyBefore at *
  omega

theorem mem_enqueue : b ∈ enqueue e Q ↔ b = e ∨ b ∈ Q :=
  (enqueue_perm e Q).mem_iff.trans List.mem_cons

theorem enqueue_pairwise (hQ : Q.Pairwise KeyBefore) (hseq : ∀ f ∈ Q, f.seq ≠ e.seq) :
    (enqueue e Q).Pairwise KeyBefore := by
  induction Q with
  | nil => exact List.pairwise_singleton _ _
  | cons f Q ih =>
    obtain ⟨hf, hQ'⟩ := List.pairwise_cons.mp hQ
    obtain ⟨hfe, hseq'⟩ := List.forall_mem_cons.mp hseq
    rw [enqueue]
    split
    next hlt =>
      have hef : KeyBefore e f := keyLt_iff.mp hlt
      exact List.pairwise_cons.mpr ⟨List.forall_mem_cons.mpr ⟨hef, fun g hg => hef.trans (hf g hg)⟩, hQ⟩
    next hlt =>
      have hfe : KeyBefore f e := keyBefore_of_not hfe (mt keyLt_iff.mpr hlt)
      refine List.pairwise_cons.mpr ⟨fun g hg => ?_, ih hQ' hseq'⟩
      rcases mem_enqueue.mp hg with rfl | hg
      · exact hfe
      · exact hf g hg

/-- The queue is in key order, and the sequence numbers from `n` on are unused. -/
structure QueueInv (n : Nat) (Q : List Entry) : Prop where
  sorted : Q.Pairwise KeyBefore
  below : ∀ e ∈ Q, e.seq < n

theorem QueueInv.enqueue (h : QueueInv n Q) (he : e.seq = n) : QueueInv (n + 1) (enqueue e Q) where
  sorted := enqueue_pairwise h.sorted fun f hf => he ▸ (h.below f hf).ne
  below f hf := by
    rcases mem_enqueue.mp hf with rfl | hf
    · exact he ▸ Nat.lt_succ_self _
    · exact Nat.lt_succ_of_lt (h.below f hf)

/-- Taking the two least entries leaves the others in order. -/
theorem QueueInv.tail_tail (h : QueueInv n (a :: b :: Q)) : QueueInv n Q where
  sorted := h.sorted.of_cons.of_cons
  below f hf := h.below f (List.mem_cons_of_mem _ (List.mem_cons_of_mem _ hf))

/-- Two queues with the same entries have the same least entry (42_tree_builder.md R153). -/
theorem least_unique {Q' : List Entry} (hperm : (a :: Q).Perm (b :: Q')) (ha : ∀ e ∈ Q, KeyBefore a e)
    (hb : ∀ e ∈ Q', KeyBefore b e) : a = b ∧ Q.Perm Q' := by
  have hab : a = b := by
    rcases List.mem_cons.mp (hperm.subset List.mem_cons_self) with h | hmem
    · exact h
    rcases List.mem_cons.mp (hperm.symm.subset List.mem_cons_self) with h | hmem'
    · exact h.symm
    · exact absurd (ha b hmem') (hb a hmem).asymm
  subst hab
  exact ⟨rfl, hperm.cons_inv⟩

end Queue

/-! ## Seeding (42_tree_builder.md R152) -/

section Seeding

variable {F : FreqTable}

/-- The byte values with a nonzero count, in ascending order. -/
def countedSymbols (F : FreqTable) : List Byte := symbols.filter fun x => decide (tableGet F x > 0)

theorem mem_countedSymbols {x : Byte} : x ∈ countedSymbols F ↔ 0 < tableGet F x := by
  simp [countedSymbols, mem_symbols]

theorem length_countedSymbols (F : FreqTable) : (countedSymbols F).length = distinctSymbols F := rfl

theorem nodup_countedSymbols (F : FreqTable) : (countedSymbols F).Nodup := nodup_symbols.filter _

theorem symbols_ascending : symbols.Pairwise fun x y => x.toNat < y.toNat := by
  rw [symbols, List.pairwise_map]
  refine List.pairwise_lt_range.imp_of_mem fun ha hb hab => ?_
  rw [List.mem_range] at ha hb
  simpa [Nat.mod_eq_of_lt ha, Nat.mod_eq_of_lt hb] using hab

/-- A sum over the byte values needs only those with a nonzero count, where the others contribute nothing. -/
theorem sum_countedSymbols {g : Byte → Nat} (h : ∀ x, tableGet F x = 0 → g x = 0) :
    ((countedSymbols F).map g).sum = (symbols.map g).sum := by
  unfold countedSymbols
  induction symbols with
  | nil => rfl
  | cons x xs ih =>
    rw [List.map_cons, List.sum_cons]
    by_cases hx : tableGet F x = 0
    · rw [List.filter_cons_of_neg (by simp [hx]), ih, h x hx, Nat.zero_add]
    · rw [List.filter_cons_of_pos (by simpa [Nat.pos_iff_ne_zero] using hx), List.map_cons, List.sum_cons, ih]

theorem totalCount_eq (F : FreqTable) : totalCount F = ((countedSymbols F).map (tableGet F)).sum :=
  (sum_countedSymbols fun _ h => h).symm

theorem countedSymbols_ascending (F : FreqTable) : (countedSymbols F).Pairwise fun x y => x.toNat < y.toNat :=
  symbols_ascending.filter _

/-- A strictly ascending list of byte values is known by its members. -/
theorem eq_of_ascending {xs ys : List Byte} (hxs : xs.Pairwise fun x y => x.toNat < y.toNat)
    (hys : ys.Pairwise fun x y => x.toNat < y.toNat) (h : ∀ x, x ∈ xs ↔ x ∈ ys) : xs = ys := by
  have hnodup : ∀ {zs : List Byte}, zs.Pairwise (fun x y => x.toNat < y.toNat) → zs.Nodup := fun hzs =>
    hzs.imp fun hlt heq => hlt.ne (congrArg BitVec.toNat heq)
  have hperm : xs.Perm ys := (List.perm_ext_iff_of_nodup (hnodup hxs) (hnodup hys)).mpr h
  exact hperm.eq_of_pairwise (fun x y _ _ hxy hyx => absurd hxy hyx.not_gt) hxs hys

/-- The leaf entries of the byte values `xs`, numbered from `n` in their order. -/
def leafQueue (F : FreqTable) (n : Nat) (xs : List Byte) : List Entry :=
  xs.mapIdx fun j x => leafEntry x (tableGet F x) (n + j)

theorem leafQueue_cons (n : Nat) (x : Byte) (xs : List Byte) :
    leafQueue F n (x :: xs) = leafEntry x (tableGet F x) n :: leafQueue F (n + 1) xs := by
  simp [leafQueue, List.mapIdx_cons, Nat.add_assoc, Nat.add_comm 1]

@[simp] theorem length_leafQueue (n : Nat) (xs : List Byte) : (leafQueue F n xs).length = xs.length :=
  List.length_mapIdx

/-- What is read off the nodes of the leaf entries does not depend on their numbers. -/
theorem map_leafQueue {α : Type} (n : Nat) (xs : List Byte) (g : Node → α) :
    ((leafQueue F n xs).map fun e => g e.node) = xs.map fun x => g (.leaf (some x) (tableGet F x)) := by
  induction xs generalizing n with
  | nil => rfl
  | cons x xs ih =>
    rw [leafQueue_cons, List.map_cons, ih]
    rfl

theorem leafEntries_eq_leafQueue (F : FreqTable) (n : Nat) (xs : List Byte) :
    leafEntries n (countsOf F xs) = leafQueue F n (xs.filter fun x => decide (tableGet F x > 0)) := by
  induction xs generalizing n with
  | nil => rfl
  | cons x xs ih =>
    rw [countsOf, List.map_cons, ← countsOf, leafEntries]
    split
    next h => rw [List.filter_cons_of_pos (by simpa using h), leafQueue_cons, ih]
    next h => rw [List.filter_cons_of_neg (by simpa using h), ih]

theorem seededEntries_eq (F : FreqTable) : seededEntries F = leafQueue F 0 (countedSymbols F) := by
  rw [seededEntries, symbols_zip_toList, leafEntries_eq_leafQueue, countedSymbols]

theorem foldl_enqueue_queueInv {n : Nat} {Q : List Entry} (xs : List Byte) (h : QueueInv n Q) :
    QueueInv (n + xs.length) ((leafQueue F n xs).foldl (fun Q e => enqueue e Q) Q) := by
  induction xs generalizing n Q with
  | nil => exact h
  | cons x xs ih =>
    rw [leafQueue_cons, List.foldl_cons, List.length_cons, Nat.add_comm xs.length, ← Nat.add_assoc]
    exact ih (h.enqueue rfl)

theorem seeded_Q_perm (F : FreqTable) : (seeded F).Q.Perm (seededEntries F) :=
  (foldl_enqueue_perm (seededEntries F) []).trans (.of_eq (List.append_nil _))

theorem seeded_queueInv (F : FreqTable) : QueueInv (seeded F).nextSeq (seeded F).Q := by
  have h := foldl_enqueue_queueInv (F := F) (countedSymbols F) (n := 0) (Q := []) ⟨.nil, nofun⟩
  rwa [← seededEntries_eq, Nat.zero_add, ← length_leafQueue (F := F) 0, ← seededEntries_eq] at h

theorem filterMap_symbol_leafQueue (n : Nat) (xs : List Byte) :
    ((leafQueue F n xs).filterMap fun e => e.node.symbol) = xs := by
  induction xs generalizing n with
  | nil => rfl
  | cons x xs ih =>
    rw [leafQueue_cons]
    exact congrArg (List.cons x) (ih (n + 1))

theorem isSeeding_leafQueue (F : FreqTable) : IsSeeding F (leafQueue F 0 (countedSymbols F)) where
  leaf_of j e h := by
    rw [leafQueue, List.getElem?_mapIdx, Option.map_eq_some_iff] at h
    obtain ⟨x, hx, rfl⟩ := h
    exact ⟨Nat.zero_add j, x, rfl, mem_countedSymbols.mp (List.mem_of_getElem? hx)⟩
  complete x hx := by
    rw [← mem_countedSymbols, ← filterMap_symbol_leafQueue (F := F) 0 (countedSymbols F), List.mem_filterMap] at hx
    exact hx
  ascending := by
    have h := countedSymbols_ascending F
    rw [← filterMap_symbol_leafQueue (F := F) 0 (countedSymbols F), List.pairwise_filterMap] at h
    exact h.imp fun h x y hx hy => h x hx y hy

/-- Entries that are leaves numbered from 0 are the leaf entries of some byte values. -/
theorem exists_eq_leafQueue {L : List Entry}
    (h : ∀ (j : Nat) (e : Entry), L[j]? = some e →
      e.seq = j ∧ ∃ x, e.node = .leaf (some x) (tableGet F x) ∧ 0 < tableGet F x) :
    ∃ xs, L = leafQueue F 0 xs := by
  induction L using List.reverseRecOn with
  | nil => exact ⟨[], rfl⟩
  | append_singleton L e ih =>
    obtain ⟨xs, hL⟩ := ih fun j f hj => h j f (by
      rwa [List.getElem?_append_left (List.getElem?_eq_some_iff.mp hj).1])
    obtain ⟨hseq, x, hnode, -⟩ := h L.length e List.getElem?_concat_length
    have he : e = leafEntry x (tableGet F x) (0 + xs.length) := by
      rw [hL, length_leafQueue] at hseq
      obtain ⟨node, seq⟩ := e
      simp only at hnode hseq
      rw [hnode, hseq, leafEntry, Nat.zero_add]
    exact ⟨xs ++ [x], by rw [he, hL, leafQueue, leafQueue, List.mapIdx_concat]⟩

/-- The rules of seeding leave no choice (42_tree_builder.md R152). -/
theorem IsSeeding.eq_leafQueue {L : List Entry} (h : IsSeeding F L) : L = leafQueue F 0 (countedSymbols F) := by
  obtain ⟨xs, rfl⟩ := exists_eq_leafQueue h.leaf_of
  have hmem : ∀ x, x ∈ xs ↔ ∃ e ∈ leafQueue F 0 xs, e.node.symbol = some x := fun x => by
    rw [← List.mem_filterMap, filterMap_symbol_leafQueue]
  refine congrArg _ (eq_of_ascending ?_ (countedSymbols_ascending F) fun x => ?_)
  · rw [← filterMap_symbol_leafQueue (F := F) 0 xs, List.pairwise_filterMap]
    exact h.ascending.imp fun h x hx y hy => h x y hx hy
  · rw [mem_countedSymbols, hmem]
    refine ⟨?_, h.complete x⟩
    rintro ⟨e, he, hx⟩
    obtain ⟨j, hj⟩ := List.mem_iff_getElem?.mp he
    obtain ⟨-, y, hnode, hy⟩ := h.leaf_of j e hj
    rw [hnode] at hx
    cases hx
    exact hy

end Seeding

/-! ## Merging (42_tree_builder.md R153 to R155) -/

theorem MergesTo.of_perm {n : Nat} {Q Q' : List Entry} {T : Node} (h : MergesTo n Q T) (hperm : Q'.Perm Q) :
    MergesTo n Q' T := by
  cases h with
  | root n e => rw [List.perm_singleton.mp hperm]; exact .root n e
  | merge n Q rest a b T perm first second goesOn => exact .merge n Q' rest a b T (hperm.trans perm) first second goesOn

/-- The merges leave no choice. -/
theorem MergesTo.unique {n : Nat} {Q Q' : List Entry} {T T' : Node} (h : MergesTo n Q T) (h' : MergesTo n Q' T')
    (hperm : Q.Perm Q') : T = T' := by
  induction h generalizing Q' T' with
  | root n e =>
    cases h' with
    | root _ e' => rw [List.singleton_perm_singleton.mp hperm]
    | merge _ _ rest a b _ perm => cases List.singleton_perm.mp (hperm.trans perm)
  | merge n Q rest a b T perm first second _ ih =>
    cases h' with
    | root _ e => cases List.perm_singleton.mp (perm.symm.trans hperm)
    | merge _ _ rest' a' b' _ perm' first' second' goesOn' =>
      obtain ⟨rfl, hrest⟩ := least_unique (perm.symm.trans (hperm.trans perm')) first first'
      obtain ⟨rfl, hrest'⟩ := least_unique hrest second second'
      exact ih goesOn' (hrest'.cons _)

theorem mergeGoesOn_iff {r : BuildTreeRegs} : mergeGoesOn r = true ↔ 1 < r.Q.length := decide_eq_true_iff

/-- The registers after a merge of `a` and `b` that leaves the other entries `Q` (42_tree_builder.md R154). -/
def afterMerge (r : BuildTreeRegs) (a b : Entry) (Q : List Entry) : BuildTreeRegs :=
  { r with Q := enqueue { node := mergeNode a b, seq := r.nextSeq } Q, nextSeq := r.nextSeq + 1, a := some a,
           b := some b }

/-- One merge of a queue with two entries or more. -/
theorem mergeStep_of_cons_cons {r : BuildTreeRegs} {a b : Entry} {Q : List Entry} (hQ : r.Q = a :: b :: Q) :
    mergeStep r = .ret (afterMerge r a b Q) := by
  rw [mergeStep, hQ]
  rfl

/-- The loop ends with one entry, whose node is what the merges end in. -/
theorem mergeLoop_mergesTo {bound : Nat} {r : BuildTreeRegs} (hinv : QueueInv r.nextSeq r.Q) (hne : r.Q ≠ [])
    (hbound : r.Q.length ≤ bound + 1) :
    ∃ r' e, whileLoop bound mergeGoesOn mergeStep r = .ret r' ∧ r'.Q = [e] ∧ MergesTo r.nextSeq r.Q e.node := by
  induction bound generalizing r with
  | zero =>
    obtain ⟨e, hQ⟩ := List.length_eq_one_iff.mp
      (Nat.le_antisymm hbound (List.length_pos_iff.mpr hne))
    exact ⟨r, e, whileLoop_done (by simp [mergeGoesOn, hQ]), hQ, hQ ▸ .root _ e⟩
  | succ bound ih =>
    match hQ : r.Q with
    | [] => exact absurd hQ hne
    | [e] => exact ⟨r, e, whileLoop_done (by simp [mergeGoesOn, hQ]), hQ, .root _ e⟩
    | a :: b :: Q =>
      rw [hQ] at hinv hbound
      obtain ⟨ha, hb, -⟩ : (∀ e ∈ b :: Q, KeyBefore a e) ∧ (∀ e ∈ Q, KeyBefore b e) ∧ Q.Pairwise KeyBefore := by
        simpa only [List.pairwise_cons] using hinv.sorted
      have hnext : QueueInv (afterMerge r a b Q).nextSeq (afterMerge r a b Q).Q := hinv.tail_tail.enqueue rfl
      have hlen : (afterMerge r a b Q).Q.length = Q.length + 1 := length_enqueue ..
      have hperm : (afterMerge r a b Q).Q.Perm ({ node := mergeNode a b, seq := r.nextSeq } :: Q) := enqueue_perm ..
      rw [whileLoop_goes (mergeGoesOn_iff.mpr (by simp [hQ])), mergeStep_of_cons_cons hQ, Run.ret_bind]
      obtain ⟨r', e, hloop, hr', hmerges⟩ :=
        ih hnext (List.ne_nil_of_length_pos (by omega)) (hlen ▸ Nat.le_of_succ_le_succ hbound)
      exact ⟨r', e, hloop, hr', .merge _ _ Q a b _ (.refl _) ha hb (hmerges.of_perm hperm.symm)⟩

/-! ## What BUILD_TREE answers with (42_tree_builder.md R155 to R158) -/

theorem seededEntries_eq_nil_iff {F : FreqTable} : seededEntries F = [] ↔ countedSymbols F = [] := by
  rw [← List.length_eq_zero_iff, seededEntries_eq, length_leafQueue, List.length_eq_zero_iff]

theorem countedSymbols_eq_nil_iff {F : FreqTable} : countedSymbols F = [] ↔ ∀ x, tableGet F x = 0 := by
  simp only [List.eq_nil_iff_forall_not_mem, mem_countedSymbols, Nat.not_lt, Nat.le_zero]

theorem buildTree_of_zero {F : FreqTable} (h : ∀ x, tableGet F x = 0) : buildTree F = .raise .emptyAlphabet 0 := by
  have hQ : (seeded F).Q = [] := List.perm_nil.mp
    ((seeded_Q_perm F).trans (.of_eq (seededEntries_eq_nil_iff.mpr (countedSymbols_eq_nil_iff.mpr h))))
  rw [buildTree, buildFrom, hQ]

theorem buildTree_isTreeOf {F : FreqTable} (h : ∃ x, 0 < tableGet F x) :
    ∃ T, buildTree F = .ret T ∧ IsTreeOf F T := by
  have hseeding : IsSeeding F (seededEntries F) := seededEntries_eq F ▸ isSeeding_leafQueue F
  have hperm := seeded_Q_perm F
  unfold buildTree buildFrom
  split
  next hQ =>
    obtain ⟨x, hx⟩ := h
    rw [hQ, List.nil_perm, seededEntries_eq_nil_iff, countedSymbols_eq_nil_iff] at hperm
    exact absurd (hperm x) hx.ne'
  next e hQ =>
    rw [hQ, List.singleton_perm] at hperm
    exact ⟨_, rfl, _, hseeding, .inl ⟨e, hperm.symm, rfl⟩⟩
  next e e' Q hQ =>
    obtain ⟨r', f, hloop, hr', hmerges⟩ := mergeLoop_mergesTo (bound := (seeded F).Q.length) (seeded_queueInv F)
      (by rw [hQ]; exact List.cons_ne_nil _ _) (Nat.le_succ _)
    refine ⟨f.node, by rw [hloop, Run.ret_bind, hr']; rfl, _, hseeding, .inr ⟨?_, hmerges.of_perm hperm.symm⟩⟩
    rw [← hperm.length_eq, hQ]
    exact Nat.le_add_left 2 _

theorem IsTreeOf.unique {F : FreqTable} {T T' : Node} (h : IsTreeOf F T) (h' : IsTreeOf F T') : T = T' := by
  obtain ⟨L, hL, hT⟩ := h
  obtain ⟨L', hL', hT'⟩ := h'
  obtain rfl : L = L' := hL.eq_leafQueue.trans hL'.eq_leafQueue.symm
  rcases hT with ⟨e, rfl, rfl⟩ | ⟨hlen, hT⟩ <;> rcases hT' with ⟨e', he, rfl⟩ | ⟨hlen', hT'⟩
  · cases he; rfl
  · cases Nat.le_of_succ_le_succ hlen'
  · rw [he] at hlen; cases Nat.le_of_succ_le_succ hlen
  · exact hT.unique hT' (.refl _)

theorem not_operandCheckFails_buildTree {cfg : Config} {ops : Operands} :
    ¬ OperandCheckFails cfg .buildTree ops ↔ CountsFit cfg ops.F := by
  simp [OperandCheckFails, CountsFit, totalCount]

theorem exec_buildTree {s : State} {c : Command} {rest : List Command} (hc : s.commands = c :: rest)
    (hfit : CountsFit s.config c.OPS.F) : exec .buildTree s = finish s ((buildTree c.OPS.F).map .tree) :=
  exec_of_passes hc (not_operandCheckFails_buildTree.mpr hfit)

theorem finish_eq_ok_iff {s : State} {x : Run ResultBundle} {v : ResultBundle} :
    finish s x = .next (afterAnswer s { STATUS := 0, RES := v }) ↔ x = .ret v := by
  refine ⟨fun h => ?_, fun h => h ▸ finish_ret_eq_afterAnswer s v⟩
  cases x with
  | ret w => cases afterAnswer_inj.mp (Host.Outcome.next.inj h); rfl
  | raise e n =>
    have hcode : e.code = 0 := congrArg Response.STATUS (afterAnswer_inj.mp (Host.Outcome.next.inj h))
    have := (Err.code_range e).1
    rw [hcode] at this
    cases this
  | stop f => cases h

/-- An `OK` answer carries what the pseudocode returned. -/
theorem commandBody_of_ok {i : Instr} {s : State} {c : Command} {rest : List Command} {v : ResultBundle}
    (hc : s.commands = c :: rest) (h : exec i s = .next (afterAnswer s { STATUS := 0, RES := v })) :
    commandBody i s.config c.OPS = .ret v := by
  by_cases hfails : OperandCheckFails s.config i c.OPS
  · rw [rejectedOperandsAreAnswered.2 i s c rest hc hfails] at h
    cases afterAnswer_inj.mp (Host.Outcome.next.inj h)
  · rw [exec_of_passes hc hfails] at h
    exact finish_eq_ok_iff.mp h

theorem isTreeOf_of_buildTree {F : FreqTable} {T : Node} (h : buildTree F = .ret T) : IsTreeOf F T := by
  by_cases hzero : ∀ x, tableGet F x = 0
  · rw [buildTree_of_zero hzero] at h
    cases h
  · simp only [not_forall, ← Nat.pos_iff_ne_zero] at hzero
    obtain ⟨T', hT', htree⟩ := buildTree_isTreeOf hzero
    cases hT'.symm.trans h
    exact htree

/-- The tree that BUILD_TREE answers with is that of the rules. -/
theorem isTreeOf_of_ok {s : State} {c : Command} {rest : List Command} {T : Node} (hc : s.commands = c :: rest)
    (h : exec .buildTree s = .next (afterAnswer s { STATUS := 0, RES := .tree T })) : IsTreeOf c.OPS.F T := by
  obtain ⟨T', hT', htree⟩ := Run.map_eq_ret.mp (commandBody_of_ok hc h)
  cases htree
  exact isTreeOf_of_buildTree hT'

/-! ## The shape of the tree (42_tree_builder.md R160) -/

/-- A tree made by merges: every internal node has two children, and the sum of their frequencies
(42_tree_builder.md R154). -/
inductive MergeTree : Node → Prop where
  | leaf (x : Option Byte) (f : Nat) : MergeTree (.leaf x f)
  | branch {l r : Node} (hl : MergeTree l) (hr : MergeTree r) : MergeTree (.branch none (l.frequency + r.frequency) l r)

theorem MergeTree.twoChildren {n : Node} (h : MergeTree n) : TwoChildren n := by
  induction h with
  | leaf x f => trivial
  | branch _ _ ihl ihr => exact ⟨ihl, ihr⟩

/-- The frequency of a node is the sum of the frequencies of its leaves (42_tree_builder.md R160). -/
theorem MergeTree.frequency_eq {n : Node} (h : MergeTree n) : n.frequency = ((leaves n).map Node.frequency).sum := by
  induction h with
  | leaf x f => rfl
  | branch _ _ ihl ihr => rw [leaves, List.map_append, List.sum_append, ← ihl, ← ihr]; rfl

/-- A leaf at depth `d` counts its frequency once for each of the `d` internal nodes above it (42_tree_builder.md
R161). -/
theorem MergeTree.leafCost_eq {n : Node} (h : MergeTree n) (d : Nat) :
    leafCost d n = n.frequency * d + internalFrequencies n := by
  induction h generalizing d with
  | leaf x f => rfl
  | branch _ _ ihl ihr =>
    rw [leafCost, ihl, ihr, internalFrequencies, Node.frequency]
    ring

theorem length_leaves_pos (n : Node) : 0 < (leaves n).length := by
  induction n with
  | leaf s f => exact Nat.one_pos
  | onlyLeft s f l ih => exact ih
  | onlyRight s f r ih => exact ih
  | branch s f l r ihl _ => rw [leaves, List.length_append]; exact Nat.add_pos_left ihl _

theorem nodeCount_of_twoChildren {n : Node} (h : TwoChildren n) : nodeCount n + 1 = 2 * (leaves n).length := by
  induction n with
  | leaf s f => rfl
  | onlyLeft s f l _ => exact h.elim
  | onlyRight s f r _ => exact h.elim
  | branch s f l r ihl ihr =>
    have hl := ihl h.1
    have hr := ihr h.2
    rw [nodeCount, leaves, List.length_append]
    omega

/-- A step to a child leaves at least one leaf behind, in the other child. -/
theorem length_leaves_childOf {n c : Node} {b : Bit} (h : TwoChildren n) (hc : childOf n b = some c) :
    TwoChildren c ∧ (leaves c).length < (leaves n).length := by
  cases n with
  | leaf s f => cases b <;> cases hc
  | onlyLeft s f l => exact h.elim
  | onlyRight s f r => exact h.elim
  | branch s f l r =>
    rw [leaves, List.length_append]
    cases b <;> cases hc
    · exact ⟨h.1, Nat.lt_add_of_pos_right (length_leaves_pos r)⟩
    · exact ⟨h.2, Nat.lt_add_of_pos_left (length_leaves_pos l)⟩

/-- A path is shorter than the number of leaves (42_tree_builder.md R160). -/
theorem length_lt_of_nodeAt {n m : Node} {p : List Bit} (h : TwoChildren n) (hp : nodeAt n p = some m) :
    p.length < (leaves n).length := by
  induction p generalizing n with
  | nil => exact length_leaves_pos n
  | cons b p ih =>
    rw [nodeAt_cons, Option.bind_eq_some_iff] at hp
    obtain ⟨c, hc, hp⟩ := hp
    obtain ⟨htwo, hlt⟩ := length_leaves_childOf h hc
    exact (Nat.succ_lt_succ (ih htwo hp)).trans_le hlt

/-- The leaf of the tree of one symbol is one step below the root (42_tree_builder.md R158). -/
theorem length_of_leafAt_single {s x : Option Byte} {f g : Nat} {p : List Bit} {y : Byte}
    (h : LeafAt (.onlyLeft s f (.leaf x g)) p y) : p.length = 1 := by
  obtain ⟨n, hn, hleaf, -⟩ := leafAt_iff.mp h
  obtain ⟨b, bs, m, rfl, hm, hbs, -⟩ := (nodeAt_leaf_iff_of_not_isLeaf rfl).mp ⟨hn, hleaf⟩
  cases b <;> cases hm
  obtain ⟨rfl, -⟩ := nodeAt_of_isLeaf rfl hbs
  rfl

/-! ## What merges keep (42_tree_builder.md R154, R159) -/

theorem MergesTo.mergeTree {n : Nat} {Q : List Entry} {T : Node} (h : MergesTo n Q T)
    (hQ : ∀ e ∈ Q, MergeTree e.node) : MergeTree T := by
  induction h with
  | root n e => exact hQ e (List.mem_singleton_self e)
  | merge n Q rest a b T perm _ _ _ ih =>
    simp only [perm.mem_iff, List.forall_mem_cons] at hQ
    obtain ⟨ha, hb, hrest⟩ := hQ
    exact ih (List.forall_mem_cons.mpr ⟨.branch ha hb, hrest⟩)

theorem MergesTo.leaves_perm {n : Nat} {Q : List Entry} {T : Node} (h : MergesTo n Q T) :
    (leaves T).Perm (Q.flatMap fun e => leaves e.node) := by
  induction h with
  | root n e => exact .of_eq (List.flatMap_singleton _ _).symm
  | merge n Q rest a b T perm _ _ _ ih =>
    refine ih.trans (.trans (.of_eq ?_) (perm.symm.flatMap_right _))
    simp [leaves]

/-! ## The tree of a table (42_tree_builder.md R158 to R160) -/

/-- The leaves of the byte values with a nonzero count, each with its count (42_tree_builder.md R159). -/
def countedLeaves (F : FreqTable) : List Node := (countedSymbols F).map fun x => .leaf (some x) (tableGet F x)

theorem MergesTo.mergeTree_of_leafQueue {F : FreqTable} {n m : Nat} {xs : List Byte} {T : Node}
    (h : MergesTo n (leafQueue F m xs) T) : MergeTree T := by
  refine h.mergeTree fun e he => ?_
  obtain ⟨j, hj, rfl⟩ := List.mem_mapIdx.mp he
  exact .leaf _ _

theorem flatMap_leaves_leafQueue (F : FreqTable) (n : Nat) (xs : List Byte) :
    (leafQueue F n xs).flatMap (fun e => leaves e.node) = xs.map fun x => .leaf (some x) (tableGet F x) := by
  rw [List.flatMap_def, map_leafQueue, ← List.flatMap_def]
  exact (List.map_eq_flatMap ..).symm

/-- The two shapes of the tree: one byte value, or the merges of more (42_tree_builder.md R155, R158). -/
theorem IsTreeOf.cases {F : FreqTable} {T : Node} (h : IsTreeOf F T) :
    (∃ x, countedSymbols F = [x] ∧ T = .onlyLeft none (tableGet F x) (.leaf (some x) (tableGet F x))) ∨
      (2 ≤ distinctSymbols F ∧ MergesTo (distinctSymbols F) (leafQueue F 0 (countedSymbols F)) T) := by
  obtain ⟨L, hL, ⟨e, hLe, rfl⟩ | hT⟩ := h
  · rw [hL.eq_leafQueue] at hLe
    obtain ⟨x, hx⟩ := List.length_eq_one_iff.mp ((length_leafQueue ..).symm.trans (congrArg List.length hLe))
    rw [hx, leafQueue_cons] at hLe
    cases hLe
    exact .inl ⟨x, hx, rfl⟩
  · rw [hL.eq_leafQueue, length_leafQueue, length_countedSymbols] at hT
    exact .inr hT

theorem IsTreeOf.leaves_perm {F : FreqTable} {T : Node} (h : IsTreeOf F T) : (leaves T).Perm (countedLeaves F) := by
  rcases h.cases with ⟨x, hx, rfl⟩ | ⟨-, hT⟩
  · rw [countedLeaves, hx]
    exact .refl _
  · exact hT.leaves_perm.trans (.of_eq (flatMap_leaves_leafQueue ..))

theorem sum_frequency_countedLeaves (F : FreqTable) : ((countedLeaves F).map Node.frequency).sum = totalCount F := by
  rw [totalCount_eq, countedLeaves, List.map_map]
  rfl

theorem sum_frequency_leaves {F : FreqTable} {T : Node} (h : IsTreeOf F T) :
    ((leaves T).map Node.frequency).sum = totalCount F := by
  rw [(h.leaves_perm.map _).sum_eq, sum_frequency_countedLeaves]

theorem distinctSymbols_le (F : FreqTable) : distinctSymbols F ≤ 256 :=
  (List.length_filter_le _ _).trans (by simp [symbols])

theorem mem_leaves_iff {T n : Node} : n ∈ leaves T ↔ ∃ p, nodeAt T p = some n ∧ isLeaf n = true := by
  simp only [leaves_eq_map_leafPaths, List.mem_map, Prod.exists, exists_eq_right, mem_leafPaths]

theorem exists_leafAt_iff {T : Node} {x : Byte} : (∃ p, LeafAt T p x) ↔ ∃ n ∈ leaves T, n.symbol = some x := by
  simp only [leafAt_iff, mem_leaves_iff]
  constructor
  · rintro ⟨p, n, hn, hleaf, hx⟩
    exact ⟨n, ⟨p, hn, hleaf⟩, hx⟩
  · rintro ⟨n, ⟨p, hn, hleaf⟩, hx⟩
    exact ⟨p, n, hn, hleaf, hx⟩

theorem IsTreeOf.mem_leaves_iff {F : FreqTable} {T n : Node} (h : IsTreeOf F T) :
    n ∈ leaves T ↔ ∃ x, 0 < tableGet F x ∧ n = .leaf (some x) (tableGet F x) := by
  rw [h.leaves_perm.mem_iff, countedLeaves, List.mem_map]
  simp only [mem_countedSymbols, eq_comm]

/-- The leaves are exactly the byte values with a nonzero count (42_tree_builder.md R159). -/
theorem IsTreeOf.exists_leafAt_iff {F : FreqTable} {T : Node} {x : Byte} (h : IsTreeOf F T) :
    (∃ p, LeafAt T p x) ↔ 0 < tableGet F x := by
  rw [Machine.exists_leafAt_iff]
  constructor
  · rintro ⟨n, hn, hx⟩
    obtain ⟨y, hy, rfl⟩ := h.mem_leaves_iff.mp hn
    cases hx
    exact hy
  · exact fun hx => ⟨_, h.mem_leaves_iff.mpr ⟨x, hx, rfl⟩, rfl⟩

/-! ## FREQ_COUNT (42_tree_builder.md R150, R151) -/

/-- Each byte adds one to its own count. -/
theorem forEach_countByte (IN : List Byte) (F : FreqTable) :
    ∃ F', forEach IN F (fun F c => .ret (tableSet F c (tableGet F c + 1))) = .ret F' ∧
      ∀ x, tableGet F' x = tableGet F x + IN.count x := by
  induction IN generalizing F with
  | nil => exact ⟨F, rfl, fun _ => rfl⟩
  | cons c IN ih =>
    obtain ⟨F', hloop, hcount⟩ := ih (tableSet F c (tableGet F c + 1))
    refine ⟨F', hloop, fun x => ?_⟩
    rw [hcount]
    by_cases hx : c = x
    · rw [hx, tableGet_tableSet_self, List.count_cons_self, Nat.add_assoc, Nat.add_comm 1]
    · rw [tableGet_tableSet_ne hx, List.count_cons_of_ne hx]

theorem freqCount_counts (IN : List Byte) :
    ∃ F, freqCount IN = .ret F ∧ ∀ x, tableGet F x = IN.count x := by
  obtain ⟨F, hloop, hcount⟩ := forEach_countByte IN zeroCounts
  exact ⟨F, (forEach_range_memRead IN zeroCounts _).trans hloop, fun x => by
    rw [hcount, tableGet_zeroCounts, Nat.zero_add]⟩

/-- A sum over the bytes of an input, gathered byte value by byte value. -/
theorem sum_map_eq_sum_count (xs : List Byte) (g : Byte → Nat) :
    (xs.map g).sum = (symbols.map fun x => xs.count x * g x).sum := by
  have hsub : xs.toFinset ⊆ symbols.toFinset := fun x _ => List.mem_toFinset.mpr (mem_symbols x)
  rw [Finset.sum_list_map_count, ← List.sum_toFinset _ nodup_symbols]
  refine Finset.sum_subset hsub fun x _ hx => ?_
  rw [List.count_eq_zero_of_not_mem (mt List.mem_toFinset.mpr hx), zero_smul]

theorem totalCount_of_counts {F : FreqTable} {xs : List Byte} (h : ∀ x, tableGet F x = xs.count x) :
    totalCount F = xs.length := by
  have hsum := sum_map_eq_sum_count xs fun _ => 1
  simp only [← h, Nat.mul_one, List.map_const', List.sum_replicate, smul_eq_mul] at hsum
  exact hsum.symm

/-! ## The code table of a tree (43_entropy_codec.md R182, R183) -/

@[simp] theorem leafSymbols_branch (s : Option Byte) (f : Nat) (l r : Node) :
    leafSymbols (.branch s f l r) = leafSymbols l ++ leafSymbols r := by
  simp [leafSymbols, leaves]

/-- The walk enters a code for every leaf below its node, and removes none. -/
theorem walk_records {n : Node} {path : List Bit} {C C' : CodeTable} {x : Byte} (h : walk n path C = .ret C')
    (hx : tableGet C x ≠ none ∨ some x ∈ leafSymbols n) : tableGet C' x ≠ none := by
  induction n generalizing path C C' with
  | leaf s f =>
    obtain ⟨y, hy, h⟩ := Run.bind_eq_ret.mp h
    cases h
    by_cases hxy : y = x
    · simp [hxy]
    · rw [tableGet_tableSet_ne hxy]
      refine hx.resolve_right fun hmem => hxy ?_
      exact Option.some.inj ((symbolOf_eq_ret.mp hy).symm.trans (List.mem_singleton.mp hmem).symm)
  | onlyLeft s f l ih => exact ih h hx
  | onlyRight s f r ih => exact ih h hx
  | branch s f l r ihl ihr =>
    obtain ⟨mid, hl, hr⟩ := Run.bind_eq_ret.mp h
    rw [leafSymbols_branch, List.mem_append] at hx
    rcases hx with hx | hx | hx
    · exact ihr hr (.inl (ihl hl (.inl hx)))
    · exact ihr hr (.inl (ihl hl (.inr hx)))
    · exact ihr hr (.inr hx)

theorem LeafAt.mem_leafSymbols {T : Node} {p : List Bit} {x : Byte} (h : LeafAt T p x) : some x ∈ leafSymbols T := by
  obtain ⟨n, hn, hx⟩ := exists_leafAt_iff.mp ⟨p, h⟩
  exact List.mem_map.mpr ⟨n, hn, hx⟩

/-- CODE_TABLE returns exactly the codes of its tree (43_entropy_codec.md R183). -/
theorem codeTable_isCodeTableOf {T : Node} {C : CodeTable} (h : codeTable T = .ret C) : IsCodeTableOf T C := by
  obtain ⟨hwf, hpaths⟩ := codeTable_codesArePaths h
  obtain ⟨_, -, hwalk⟩ := Run.bind_eq_ret.mp h
  refine fun x p => ⟨hpaths x p, fun hp => ?_⟩
  obtain ⟨q, hq⟩ := Option.ne_none_iff_exists'.mp (walk_records hwalk (.inr hp.mem_leafSymbols))
  rw [hq, (treeWF_iff_wellFormedTree.mp hwf).symbols_distinct p q x hp (hpaths x q hq)]

/-! ## The cost of the tree as a code (42_tree_builder.md R161; 43_entropy_codec.md R190) -/

theorem leafCost_eq_sum_leafPaths (n : Node) (d : Nat) :
    leafCost d n = ((leafPaths n).map fun pm => pm.2.frequency * (d + pm.1.length)).sum := by
  induction n generalizing d with
  | leaf s f => simp [leafCost, leafPaths, Node.frequency]
  | onlyLeft s f l ih => simp [leafCost, leafPaths, ih, Function.comp_def, Nat.add_assoc, Nat.add_comm 1]
  | onlyRight s f r ih => simp [leafCost, leafPaths, ih, Function.comp_def, Nat.add_assoc, Nat.add_comm 1]
  | branch s f l r ihl ihr =>
    simp [leafCost, leafPaths, ihl, ihr, Function.comp_def, Nat.add_assoc, Nat.add_comm 1]

/-- The cost of the tree is the cost of its codes under the counts of the table. -/
theorem IsTreeOf.treeCost_eq {F : FreqTable} {T : Node} (h : IsTreeOf F T) {code : Byte → List Bit}
    (hcode : ∀ p x, LeafAt T p x → code x = p) :
    treeCost T = (symbols.map fun x => tableGet F x * (code x).length).sum := by
  calc treeCost T
    _ = ((leafPaths T).map fun pm => pm.2.frequency * pm.1.length).sum := by
      simp [treeCost, leafCost_eq_sum_leafPaths]
    _ = ((leafPaths T).map fun pm => pm.2.frequency * ((pm.2.symbol.map code).getD []).length).sum := by
      refine congrArg List.sum (List.map_congr_left fun pm hpm => ?_)
      have hmem : pm.2 ∈ leaves T := leaves_eq_map_leafPaths T ▸ List.mem_map_of_mem hpm
      obtain ⟨x, -, hx⟩ := h.mem_leaves_iff.mp hmem
      have hsym : pm.2.symbol = some x := congrArg Node.symbol hx
      rw [hsym, Option.map_some, Option.getD_some, hcode pm.1 x (leafAt_iff_mem_leafPaths.mpr ⟨pm.2, hpm, hsym⟩)]
    _ = ((leaves T).map fun n => n.frequency * ((n.symbol.map code).getD []).length).sum := by
      rw [leaves_eq_map_leafPaths, List.map_map]
      rfl
    _ = ((countedSymbols F).map fun x => tableGet F x * (code x).length).sum := by
      rw [(h.leaves_perm.map _).sum_eq, countedLeaves, List.map_map]
      rfl
    _ = (symbols.map fun x => tableGet F x * (code x).length).sum :=
      sum_countedSymbols fun x hx => by rw [hx, Nat.zero_mul]

theorem countedSymbols_of_single {F : FreqTable} {x : Byte} {f : Nat} (hf : 0 < f)
    (hF : ∀ y, tableGet F y = if y = x then f else 0) : countedSymbols F = [x] := by
  refine eq_of_ascending (countedSymbols_ascending F) (List.pairwise_singleton _ _) fun y => ?_
  rw [mem_countedSymbols, hF, List.mem_singleton]
  split <;> simp [*]

theorem codeTable_single (x : Byte) (f : Nat) :
    codeTable (.onlyLeft none f (.leaf (some x) f)) = .ret (tableSet emptyCodes x (some [false])) := rfl

/-! ## Lengths that a code can have -/

/-- The Kraft sum of a list of code lengths. -/
noncomputable def kraftSum (ls : List Nat) : ℝ := (ls.map fun l => (1 / 2 : ℝ) ^ l).sum

theorem kraftSum_cons (l : Nat) (ls : List Nat) : kraftSum (l :: ls) = (1 / 2) ^ l + kraftSum ls := by
  simp [kraftSum]

theorem kraftSum_perm {ls ls' : List Nat} (h : ls.Perm ls') : kraftSum ls = kraftSum ls' := (h.map _).sum_eq

/-- A set of nonempty words none of which begins another is uniquely decodable. -/
theorem uniquelyDecodable_of_not_prefix {S : Set (List Bit)} (hne : [] ∉ S)
    (hS : ∀ u ∈ S, ∀ v ∈ S, u <+: v → u = v) : InformationTheory.UniquelyDecodable S := by
  have hnil : ∀ L : List (List Bit), (∀ w ∈ L, w ∈ S) → L.flatten = [] → L = [] := by
    intro L hL hflat
    cases L with
    | nil => rfl
    | cons w L =>
      obtain ⟨rfl, -⟩ := List.append_eq_nil_iff.mp hflat
      exact absurd (hL [] List.mem_cons_self) hne
  intro L₁
  induction L₁ with
  | nil => exact fun L₂ _ h₂ hflat => (hnil L₂ h₂ hflat.symm).symm
  | cons u L₁ ih =>
    intro L₂ h₁ h₂ hflat
    cases L₂ with
    | nil => exact hnil _ h₁ hflat
    | cons v L₂ =>
      obtain ⟨hu, h₁⟩ := List.forall_mem_cons.mp h₁
      obtain ⟨hv, hL₂⟩ := List.forall_mem_cons.mp h₂
      rw [List.flatten_cons, List.flatten_cons] at hflat
      have huv : u = v := by
        rcases List.prefix_or_prefix_of_prefix (List.prefix_append u L₁.flatten)
          (hflat ▸ List.prefix_append v L₂.flatten) with h | h
        · exact hS u hu v hv h
        · exact (hS v hv u hu h).symm
      subst huv
      rw [ih L₂ h₁ hL₂ (List.append_cancel_left hflat)]

/-- The code lengths of two or more symbols, no code of which begins another, meet the Kraft inequality. -/
theorem kraftSum_le_one {xs : List Byte} {code : Byte → List Bit} (hnodup : xs.Nodup) (htwo : 2 ≤ xs.length)
    (hcode : ∀ x ∈ xs, ∀ y ∈ xs, x ≠ y → ¬ code x <+: code y) :
    kraftSum (xs.map fun x => (code x).length) ≤ 1 := by
  have hwords : ∀ x ∈ xs, ∀ y ∈ xs, code x <+: code y → x = y := fun x hx y hy h =>
    by_contra fun hxy => hcode x hx y hy hxy h
  have hinj : (xs.map code).Nodup :=
    hnodup.map_on fun x hx y hy h => hwords x hx y hy (h ▸ List.prefix_refl _)
  have hnil : [] ∉ xs.map code := by
    intro hmem
    obtain ⟨x, hx, hxnil⟩ := List.mem_map.mp hmem
    have hall : ∀ y ∈ xs, y = x := fun y hy => (hwords x hx y hy (hxnil ▸ List.nil_prefix)).symm
    rw [List.eq_replicate_of_mem hall, List.nodup_replicate] at hnodup
    omega
  have hdec : InformationTheory.UniquelyDecodable (((xs.map code).toFinset : Finset (List Bit)) : Set (List Bit)) := by
    refine uniquelyDecodable_of_not_prefix (by simpa using hnil) fun u hu v hv huv => ?_
    simp only [List.coe_toFinset, Set.mem_ofPred_eq, List.mem_map] at hu hv
    obtain ⟨x, hx, rfl⟩ := hu
    obtain ⟨y, hy, rfl⟩ := hv
    rw [hwords x hx y hy huv]
  have hkraft := InformationTheory.kraft_mcmillan_inequality hdec
  rw [List.sum_toFinset _ hinj, List.map_map, Fintype.card_bool] at hkraft
  simpa [kraftSum, Function.comp_def] using hkraft

/-- Measured in units of `2 ^ -b`, lengths of at most `b` contribute whole numbers. -/
theorem kraftSum_mul_two_pow {b : Nat} {ls : List Nat} (h : ∀ l ∈ ls, l ≤ b) :
    ∃ N : Nat, kraftSum ls * 2 ^ b = N := by
  induction ls with
  | nil => exact ⟨0, by simp [kraftSum]⟩
  | cons l ls ih =>
    obtain ⟨hl, hls⟩ := List.forall_mem_cons.mp h
    obtain ⟨N, hN⟩ := ih hls
    obtain ⟨d, rfl⟩ := Nat.exists_eq_add_of_le hl
    refine ⟨2 ^ d + N, ?_⟩
    rw [kraftSum_cons, add_mul, hN, pow_add, ← mul_assoc, ← mul_pow]
    push_cast
    norm_num

/-- The words of the two greatest lengths can give place to one word, a bit shorter than the second of them: in units of
that length's share the other words count whole numbers, and the longest word keeps the sum of the others below the
whole, so a full unit of it is free. -/
theorem kraftSum_merge {la lb : Nat} {ls : List Nat} (hls : ∀ l ∈ ls, l ≤ lb) (hk : kraftSum (la :: lb :: ls) ≤ 1) :
    ∃ m, lb = m + 1 ∧ kraftSum (m :: ls) ≤ 1 := by
  obtain ⟨N, hN⟩ := kraftSum_mul_two_pow hls
  have hunit : (1 / 2 : ℝ) ^ lb * 2 ^ lb = 1 := by rw [← mul_pow]; norm_num
  have hroom : N + 2 ≤ 2 ^ lb := by
    rw [kraftSum_cons, kraftSum_cons] at hk
    have hlong : (0 : ℝ) < (1 / 2) ^ la * 2 ^ lb := by positivity
    have hscaled := mul_le_mul_of_nonneg_right hk (show (0 : ℝ) ≤ 2 ^ lb by positivity)
    rw [add_mul, add_mul, hunit, hN, one_mul] at hscaled
    have hlt : (N : ℝ) + 1 < 2 ^ lb := by linarith
    exact_mod_cast hlt
  cases lb with
  | zero => omega
  | succ m =>
    refine ⟨m, rfl, ?_⟩
    have hcast : (N : ℝ) + 2 ≤ 2 ^ (m + 1) := by exact_mod_cast hroom
    refine le_of_mul_le_mul_right ?_ (show (0 : ℝ) < 2 ^ (m + 1) by positivity)
    have hhalf : (1 / 2 : ℝ) ^ m * 2 ^ (m + 1) = 2 := by rw [pow_succ, ← mul_assoc, ← mul_pow]; norm_num
    rw [kraftSum_cons, add_mul, hN, hhalf]
    linarith

/-! ## Plans: symbols with a weight and a code length each -/

/-- The cost of a list of weights with code lengths. -/
def planCost (P : List (Nat × Nat)) : Nat := (P.map fun p => p.1 * p.2).sum

@[simp] theorem planCost_cons (p : Nat × Nat) (P : List (Nat × Nat)) : planCost (p :: P) = p.1 * p.2 + planCost P := by
  simp [planCost]

theorem planCost_perm {P P' : List (Nat × Nat)} (h : P.Perm P') : planCost P = planCost P' := (h.map _).sum_eq

/-- The lengths can be dealt out again so that the least weight has the greatest length, at no greater cost. -/
theorem exists_longest_at_least (w l : Nat) (P : List (Nat × Nat)) (hw : ∀ p ∈ P, w ≤ p.1) :
    ∃ l' P', P'.map Prod.fst = P.map Prod.fst ∧ (l' :: P'.map Prod.snd).Perm (l :: P.map Prod.snd) ∧
      (∀ k ∈ P'.map Prod.snd, k ≤ l') ∧ planCost ((w, l') :: P') ≤ planCost ((w, l) :: P) := by
  induction P with
  | nil => exact ⟨l, [], rfl, .refl _, nofun, le_rfl⟩
  | cons p P ih =>
    obtain ⟨v, k⟩ := p
    obtain ⟨hv, hw⟩ := List.forall_mem_cons.mp hw
    obtain ⟨l', P', hfst, hperm, hmax, hcost⟩ := ih hw
    simp only [planCost_cons, List.map_cons] at *
    rcases le_total k l' with hk | hk
    · refine ⟨l', (v, k) :: P', by simp [hfst], ?_, List.forall_mem_cons.mpr ⟨hk, hmax⟩, ?_⟩
      · exact (List.Perm.swap ..).trans ((hperm.cons k).trans (.swap ..))
      · simp only [planCost_cons]
        omega
    · have hmax' : ∀ j ∈ l' :: P'.map Prod.snd, j ≤ k :=
        List.forall_mem_cons.mpr ⟨hk, fun j hj => (hmax j hj).trans hk⟩
      refine ⟨k, (v, l') :: P', by simp [hfst], ?_, hmax', ?_⟩
      · exact (hperm.cons k).trans (.swap ..)
      · have hswap : w * k + v * l' ≤ w * l' + v * k := by
          obtain ⟨d, rfl⟩ := Nat.exists_eq_add_of_le hk
          have := Nat.mul_le_mul_right d hv
          rw [Nat.mul_add, Nat.mul_add]
          omega
        simp only [planCost_cons]
        omega

theorem exists_eq_cons_of_map_fst {P : List (Nat × Nat)} {w : Nat} {ws : List Nat} (h : P.map Prod.fst = w :: ws) :
    ∃ l P', P = (w, l) :: P' ∧ P'.map Prod.fst = ws := by
  obtain ⟨⟨_, l⟩, P', rfl, rfl, hws⟩ := List.map_eq_cons_iff.mp h
  exact ⟨l, P', rfl, hws⟩

/-- A plan of a queue, with its two least weights first. -/
theorem exists_plan_cons_cons {P : List (Nat × Nat)} {wa wb : Nat} {ws : List Nat}
    (h : (P.map Prod.fst).Perm (wa :: wb :: ws)) :
    ∃ la lb P', P.Perm ((wa, la) :: (wb, lb) :: P') ∧ P'.map Prod.fst = ws := by
  have hforall : List.Forall₂ (fun w p => p.1 = w) (P.map Prod.fst) P :=
    List.forall₂_map_left_iff.mpr (List.forall₂_same.mpr fun _ _ => rfl)
  obtain ⟨P', hP', hperm⟩ := List.perm_comp_forall₂ h.symm hforall
  have hfst : P'.map Prod.fst = wa :: wb :: ws := by
    rw [← List.forall₂_eq_eq_eq, List.forall₂_map_left_iff]
    exact hP'.flip
  obtain ⟨la, P₁, rfl, hfst₁⟩ := exists_eq_cons_of_map_fst hfst
  obtain ⟨lb, P₂, rfl, hfst₂⟩ := exists_eq_cons_of_map_fst hfst₁
  exact ⟨la, lb, P₂, hperm.symm, hfst₂⟩

/-- One merge (42_tree_builder.md R154) leads from a plan of the queue to a plan of the queue after it, which costs less
by at least the weight of the new node. -/
theorem exists_merged_plan {P : List (Nat × Nat)} {wa wb : Nat} {ws : List Nat}
    (h : (P.map Prod.fst).Perm (wa :: wb :: ws)) (ha : ∀ w ∈ wb :: ws, wa ≤ w) (hb : ∀ w ∈ ws, wb ≤ w)
    (hk : kraftSum (P.map Prod.snd) ≤ 1) :
    ∃ P', P'.map Prod.fst = (wa + wb) :: ws ∧ kraftSum (P'.map Prod.snd) ≤ 1 ∧
      planCost P' + (wa + wb) ≤ planCost P := by
  obtain ⟨la, lb, P₀, hperm, hfst₀⟩ := exists_plan_cons_cons h
  obtain ⟨la, P₁, hfst₁, hperm₁, hmax₁, hcost₁⟩ :=
    exists_longest_at_least wa la ((wb, lb) :: P₀) fun p hp => ha p.1 (by
      simpa [hfst₀] using List.mem_map_of_mem (f := Prod.fst) hp)
  rw [List.map_cons, hfst₀] at hfst₁
  obtain ⟨lb, P₂, rfl, hfst₂⟩ := exists_eq_cons_of_map_fst hfst₁
  obtain ⟨lb, P₃, hfst₃, hperm₃, hmax₃, hcost₃⟩ :=
    exists_longest_at_least wb lb P₂ fun p hp => hb p.1 (hfst₂ ▸ List.mem_map_of_mem hp)
  have hkraft : kraftSum (la :: lb :: P₃.map Prod.snd) ≤ 1 := by
    rw [kraftSum_perm (hperm₃.cons la)]
    rw [kraftSum_perm (hperm.map Prod.snd)] at hk
    exact (kraftSum_perm hperm₁).trans_le hk
  have hab : lb ≤ la := hmax₁ lb (hperm₃.subset List.mem_cons_self)
  obtain ⟨m, rfl, hkm⟩ := kraftSum_merge hmax₃ hkraft
  refine ⟨(wa + wb, m) :: P₃, by simp [hfst₃, hfst₂], hkm, ?_⟩
  rw [planCost_perm hperm]
  have hmul := Nat.mul_le_mul_left wa hab
  simp only [planCost_cons, Nat.mul_add_one, Nat.add_mul] at *
  omega

/-! ## The tree of the merges costs least (42_tree_builder.md R161) -/

theorem KeyBefore.frequency_le {a b : Entry} (h : KeyBefore a b) : a.node.frequency ≤ b.node.frequency := by
  unfold KeyBefore at h
  omega

/-- Merges add no more internal frequency than a code of the entries costs, whatever the code. -/
theorem MergesTo.internalFrequencies_le {n : Nat} {Q : List Entry} {T : Node} (h : MergesTo n Q T)
    {P : List (Nat × Nat)} (hP : (P.map Prod.fst).Perm (Q.map fun e => e.node.frequency))
    (hk : kraftSum (P.map Prod.snd) ≤ 1) :
    internalFrequencies T ≤ (Q.map fun e => internalFrequencies e.node).sum + planCost P := by
  induction h generalizing P with
  | root n e => simp
  | merge n Q rest a b T perm first second _ ih =>
    obtain ⟨P', hfst, hk', hcost⟩ := exists_merged_plan (hP.trans (perm.map _))
      (List.forall_mem_map.mpr fun e he => (first e he).frequency_le)
      (List.forall_mem_map.mpr fun e he => (second e he).frequency_le) hk
    have hmerged := ih (.of_eq hfst) hk'
    rw [(perm.map _).sum_eq]
    simp only [List.map_cons, List.sum_cons, internalFrequencies] at hmerged hcost ⊢
    omega

/-- The plan that a code makes for the byte values with a nonzero count: the count of each and the length of its
code. -/
def codePlan (F : FreqTable) (code : Byte → List Bit) : List (Nat × Nat) :=
  (countedSymbols F).map fun x => (tableGet F x, (code x).length)

theorem map_fst_codePlan (F : FreqTable) (code : Byte → List Bit) :
    (codePlan F code).map Prod.fst = (leafQueue F 0 (countedSymbols F)).map fun e => e.node.frequency := by
  rw [map_leafQueue, codePlan, List.map_map]
  rfl

theorem map_snd_codePlan (F : FreqTable) (code : Byte → List Bit) :
    (codePlan F code).map Prod.snd = (countedSymbols F).map fun x => (code x).length := by
  rw [codePlan, List.map_map]
  rfl

theorem planCost_codePlan (F : FreqTable) (code : Byte → List Bit) :
    planCost (codePlan F code) = (symbols.map fun x => tableGet F x * (code x).length).sum := by
  rw [planCost, codePlan, List.map_map]
  exact sum_countedSymbols fun x hx => by simp [hx]

theorem sum_internalFrequencies_leafQueue (F : FreqTable) (n : Nat) (xs : List Byte) :
    ((leafQueue F n xs).map fun e => internalFrequencies e.node).sum = 0 := by
  rw [map_leafQueue]
  exact List.sum_eq_zero (by simp [internalFrequencies])

/-! ## The statements -/

/-- Settles O38: an enqueue goes past the entries with lesser keys only, and the queue begins with its least key. -/
theorem queueHandsOutTheLeastKey : Obligations.QueueHandsOutTheLeastKey := by
  refine ⟨fun e Q hQ hseq => ⟨enqueue_pairwise hQ hseq, enqueue_perm e Q⟩, fun a Q Q' hQ hpop => ?_⟩
  rw [popMin_eq_ret] at hpop
  subst hpop
  obtain ⟨hleast, hrest⟩ := List.pairwise_cons.mp hQ
  exact ⟨.refl _, hrest, hleast⟩

/-- Settles O60: the seeded queue is in key order, so what stands at its head is what the rules of the merges take. -/
theorem buildTreeAnswersTheTreeOfTheMerges : Obligations.BuildTreeAnswersTheTreeOfTheMerges := by
  intro s c rest hc hcount hfit
  obtain ⟨T, hrun, hT⟩ := buildTree_isTreeOf hcount
  refine ⟨T, ?_, hT, fun T' hT' => hT'.unique hT⟩
  rw [exec_buildTree hc hfit, hrun]
  rfl

/-- Settles O32: no leaf is made, so the queue is empty. -/
theorem allZeroTableIsAnEmptyAlphabet : Obligations.AllZeroTableIsAnEmptyAlphabet := by
  intro s c rest hc hzero
  have hfit : CountsFit s.config c.OPS.F := fun bits _ => by
    simp [totalCount_eq, countedSymbols_eq_nil_iff.mpr hzero]
  rw [exec_buildTree hc hfit, buildTree_of_zero hzero]
  rfl

/-- Settles O34: the leaves of the tree are those seeded, and the check of R32 holds of every tree the merges end in. -/
theorem buildTreeAnswersAWellFormedTree : Obligations.BuildTreeAnswersAWellFormedTree := by
  intro s c rest hc hcount hfit
  obtain ⟨T, hrun, hT⟩ := buildTree_isTreeOf hcount
  refine ⟨T, ?_, ?_, fun _ => hT.exists_leafAt_iff, fun p n x hn hl hr hx => ?_⟩
  · rw [exec_buildTree hc hfit, hrun]
    rfl
  · exact treeWF_iff_wellFormedTree.mp (buildFrom_treeWF (forestWF_seeded _) hrun)
  · obtain ⟨y, -, rfl⟩ := hT.mem_leaves_iff.mp (mem_leaves_iff.mpr ⟨p, hn, isLeaf_iff.mpr ⟨hl, hr⟩⟩)
    cases hx
    rfl

/-- Settles O35: a tree whose internal nodes all have two children, with `k` leaves, has `2 k - 1` nodes and
paths shorter than `k`. -/
theorem treeSizeAndDepth : Obligations.TreeSizeAndDepth := by
  intro s c rest T hc h
  have hT := isTreeOf_of_ok hc h
  have hsum := sum_frequency_leaves hT
  rcases hT.cases with ⟨x, hx, rfl⟩ | ⟨htwo, hmerges⟩
  · have hone : distinctSymbols c.OPS.F = 1 := congrArg List.length hx
    refine ⟨hsum, by simp [nodeCount], fun htwo => by omega, fun _ => ⟨rfl, fun p y => length_of_leafAt_single⟩⟩
  · have htree : MergeTree T := hmerges.mergeTree_of_leafQueue
    have hlen : (leaves T).length = distinctSymbols c.OPS.F :=
      hT.leaves_perm.length_eq.trans (List.length_map _)
    have hnodes := nodeCount_of_twoChildren htree.twoChildren
    have hmax := distinctSymbols_le c.OPS.F
    refine ⟨htree.frequency_eq.trans hsum, by omega, fun _ => ⟨hlen, by omega, htree.twoChildren, ?_⟩,
      fun hone => by omega⟩
    rintro p y ⟨n, hn, -⟩
    have := length_lt_of_nodeAt htree.twoChildren hn
    omega

/-- Settles O36: a leaf counts its frequency once in each internal node above it. -/
theorem treeCostIsTheInternalFrequencies : Obligations.TreeCostIsTheInternalFrequencies := by
  intro s c rest T hc h
  rcases (isTreeOf_of_ok hc h).cases with ⟨x, -, rfl⟩ | ⟨-, hmerges⟩
  · exact Nat.mul_one _
  · have htree : MergeTree T := hmerges.mergeTree_of_leafQueue
    simpa [treeCost] using htree.leafCost_eq 0

/-- Settles O37: a code of the byte values is a plan of the seeded queue, and the tree costs no more than any plan. -/
theorem treeCostIsLeast : Obligations.TreeCostIsLeast := by
  intro s c rest T hc h htwo code hcode
  rcases (isTreeOf_of_ok hc h).cases with ⟨x, hx, -⟩ | ⟨-, hmerges⟩
  · have hone : distinctSymbols c.OPS.F = 1 := congrArg List.length hx
    omega
  · have hk : kraftSum ((codePlan c.OPS.F code).map Prod.snd) ≤ 1 := by
      rw [map_snd_codePlan]
      exact kraftSum_le_one (nodup_countedSymbols c.OPS.F) htwo fun x hx y hy =>
        hcode x y (mem_countedSymbols.mp hx) (mem_countedSymbols.mp hy)
    have hle := hmerges.internalFrequencies_le (.of_eq (map_fst_codePlan c.OPS.F code)) hk
    rwa [sum_internalFrequencies_leafQueue, Nat.zero_add, planCost_codePlan,
      ← treeCostIsTheInternalFrequencies s c rest T hc h] at hle

/-- Settles O31: each byte of the input adds one to its own count, and the counts add up to the number of bytes. -/
theorem freqCountCountsEachByte : Obligations.FreqCountCountsEachByte := by
  intro s c rest hc hin
  obtain ⟨F, hrun, hcount⟩ := freqCount_counts c.OPS.IN
  refine ⟨F, ?_, hcount, totalCount_of_counts hcount⟩
  rw [exec_of_passes hc (by simp [OperandCheckFails, hin]), commandBody, freqCountBody, hrun]
  rfl

/-- Settles O33: the one byte value has the one leaf, and the one code is the path to it. -/
theorem singleSymbolTreeAndCode : Obligations.SingleSymbolTreeAndCode := by
  intro s c rest x f hc hf hF hfit
  have hcounted := countedSymbols_of_single hf hF
  have hFx : tableGet c.OPS.F x = f := by rw [hF, if_pos rfl]
  refine ⟨?_, fun s' c' rest' hc' hT => ⟨tableSet emptyCodes x (some [false]), ?_, fun y => ?_⟩⟩
  · obtain ⟨T, hrun, htree⟩ := buildTree_isTreeOf ⟨x, hFx ▸ hf⟩
    rw [exec_buildTree hc hfit, hrun]
    have hone : distinctSymbols c.OPS.F = 1 := congrArg List.length hcounted
    rcases htree.cases with ⟨y, hy, rfl⟩ | ⟨htwo, -⟩
    · cases hcounted.symm.trans hy
      rw [hFx]
      rfl
    · omega
  · rw [exec_of_passes hc' (by simp [OperandCheckFails]), commandBody, codeTableBody, hT, codeTable_single]
    rfl
  · split
    next hy => rw [hy, tableGet_tableSet_self]
    next hy => rw [tableGet_tableSet_ne (Ne.symm hy), tableGet_emptyCodes]

/-- Settles O46: each byte of the input adds the length of its path in the tree, and its count is the frequency
of its leaf. -/
theorem codedLengthIsTheTreeCost : Obligations.CodedLengthIsTheTreeCost := by
  intro cfg ops xs T C hcount htree hcodes
  rw [step_presenting] at htree hcodes
  have hT : IsTreeOf ops.F T := isTreeOf_of_ok (s := presenting cfg .buildTree ops) rfl htree
  obtain ⟨C', hC', hCC'⟩ := Run.map_eq_ret.mp
    (commandBody_of_ok (s := presenting cfg .codeTable { ops with T := T }) rfl hcodes)
  cases hCC'
  have hpaths : ∀ p x, LeafAt T p x → (tableGet C x).getD [] = p := fun p x hp => by
    rw [(codeTable_isCodeTableOf hC' x p).mpr hp, Option.getD_some]
  rw [hT.treeCost_eq hpaths, codedLength, sum_map_eq_sum_count]
  simp only [hcount]

end Sys2Proof.Machine

/-!
PROOFS of the statements of 43_entropy_codec.md: the codes of a tree, what the codec writes and reads with them, and the
two round trips.

The idea: both loops of the codec are rows of appends. ENT_ENCODE appends the codes of the bytes it has passed, and
ENT_DECODE appends the bytes that the bits it has passed spell (`Spells`), so `OUTPUT_CAP` acts in one place
(`finish_appendAll_bind`), and what is left to say is what each loop does at the index it then stands at: end, or raise.
ENT_DECODE's loop is `decodeFrom`: below an internal node it goes along any path, and at a leaf it is back at the root.
-/

namespace Sys2Proof.Machine

/-! ## Rows of appends that go on -/

/-- A command that appends `vs` and goes on does so within the cap, and ends with `CapacityExceeded` past it. -/
theorem finish_appendAll_bind {α β : Type} (s : State) (vs : List α) (k : List α → Run β) (f : β → ResultBundle) :
    (WithinCap s.config vs.length →
      finish s (((appendAll s.config [] vs).bind k).map f) = finish s ((k vs).map f)) ∧
    (∀ m, s.config.OUTPUT_CAP = some m → m < vs.length →
      finish s (((appendAll s.config [] vs).bind k).map f) =
        .next (afterAnswer s { STATUS := 5, RES := .info m })) := by
  refine ⟨fun hcap => ?_, fun m hm hlt => ?_⟩
  · rw [appendAll_within _ _ _ (by simpa [WithinCap, AtMost] using hcap)]
    rfl
  · rw [appendAll_past hm vs [] (Nat.zero_le m) (by simpa using hlt)]
    rfl

/-- Where a buffer goes on with `x` from index `j`, `x` is read there, and the rest from the next index. -/
theorem getElem?_of_drop_eq_cons {α : Type} {L xs : List α} {j : Nat} {x : α} (h : L.drop j = x :: xs) :
    L[j]? = some x ∧ L.drop (j + 1) = xs := by
  constructor
  · simpa using congrArg List.head? h
  · rw [← List.tail_drop, h, List.tail_cons]

/-! ## CODE_TABLE (43_entropy_codec.md R181 to R185) -/

theorem checkTree_of_not_wf {T : Node} (h : ¬ WellFormedTree T) : checkTree T = .raise .corruptTree 0 :=
  if_neg (mt treeWF_iff_wellFormedTree.mp h)

theorem checkTree_of_wf {T : Node} (h : WellFormedTree T) : checkTree T = .ret () :=
  if_pos (treeWF_iff_wellFormedTree.mpr h)

theorem isLeaf_eq_false_of_hasChild {n : Node} (h : n.left ≠ none ∨ n.right ≠ none) : isLeaf n = false := by
  simpa [isInternal] using isInternal_iff.mpr h

/-- A run that neither stops nor raises returns. -/
theorem Run.exists_eq_ret {α : Type} {x : Run α} (hstop : x.Ensures fun _ => True) (hraise : x.RaisesIn []) :
    ∃ v, x = .ret v := by
  cases x with
  | ret v => exact ⟨v, rfl⟩
  | raise e n => cases hraise
  | stop f => exact hstop.elim

/-- CODE_TABLE of a well-formed tree returns the codes of the tree (43_entropy_codec.md R182, R183). -/
theorem codeTable_of_wf {T : Node} (h : WellFormedTree T) : ∃ C, codeTable T = .ret C ∧ IsCodeTableOf T C := by
  obtain ⟨-, hcarry, -⟩ : isInternal T = true ∧ allLeavesHaveSymbol T = true ∧ distinctLeafSymbols T = true := by
    simpa [treeWF, and_assoc] using treeWF_iff_wellFormedTree.mpr h
  obtain ⟨C, hwalk⟩ := Run.exists_eq_ret (walk_ensures [] emptyCodes hcarry) (walk_raisesIn T [] emptyCodes)
  have hC : codeTable T = .ret C := by rw [codeTable, checkTree_of_wf h, Run.ret_bind, hwalk]
  exact ⟨C, hC, codeTable_isCodeTableOf hC⟩

theorem codeTable_of_ok {s : State} {c : Command} {rest : List Command} {C : CodeTable} (hc : s.commands = c :: rest)
    (h : exec .codeTable s = .next (afterAnswer s { STATUS := 0, RES := .codes C })) : codeTable c.OPS.T = .ret C := by
  obtain ⟨C', hC', hcodes⟩ := Run.map_eq_ret.mp (commandBody_of_ok hc h)
  cases hcodes
  exact hC'

/-- The tree that BUILD_TREE answers with is well formed (42_tree_builder.md R159). -/
theorem wellFormedTree_of_ok {s : State} {c : Command} {rest : List Command} {T : Node} (hc : s.commands = c :: rest)
    (h : exec .buildTree s = .next (afterAnswer s { STATUS := 0, RES := .tree T })) : WellFormedTree T := by
  obtain ⟨T', hT', htree⟩ := Run.map_eq_ret.mp (commandBody_of_ok hc h)
  cases htree
  exact treeWF_iff_wellFormedTree.mp (buildFrom_treeWF (forestWF_seeded _) hT')

/-! ## ENT_ENCODE (43_entropy_codec.md R187 to R190) -/

section EntEncode

variable {cfg : Config} {IN pre post : List Byte} {C : CodeTable} {j : Nat} {OUT : List Bit} {x : Byte}

/-- ENT_ENCODE from byte `j` of the input on, with the output `OUT` so far. -/
def encodeFrom (cfg : Config) (IN : List Byte) (C : CodeTable) (j : Nat) (OUT : List Bit) : Run (List Bit) :=
  forEach (range j IN.length) OUT fun OUT j => (lookUp IN C j).bind fun code => appendAll cfg OUT code

theorem entEncode_eq_encodeFrom (cfg : Config) (IN : List Byte) (C : CodeTable) :
    entEncode cfg IN C = encodeFrom cfg IN C 0 [] := rfl

theorem encodeFrom_at_end (cfg : Config) (IN : List Byte) (C : CodeTable) (OUT : List Bit) :
    encodeFrom cfg IN C IN.length OUT = .ret OUT := by
  rw [encodeFrom, range_of_le le_rfl, forEach_nil]

theorem encodeFrom_of_entry {code : List Bit} (hx : IN[j]? = some x) (hcode : tableGet C x = some code) :
    encodeFrom cfg IN C j OUT = (appendAll cfg OUT code).bind (encodeFrom cfg IN C (j + 1)) := by
  have hlook : lookUp IN C j = .ret code := by rw [lookUp, memRead_eq_ret.mpr hx, Run.ret_bind, hcode]
  rw [encodeFrom, range_succ (List.getElem?_eq_some_iff.mp hx).1, forEach_cons, hlook]
  rfl

theorem encodeFrom_of_no_entry (hx : IN[j]? = some x) (hnone : tableGet C x = none) :
    encodeFrom cfg IN C j OUT = .raise .unknownSymbol j := by
  have hlook : lookUp IN C j = .raise .unknownSymbol j := by rw [lookUp, memRead_eq_ret.mpr hx, Run.ret_bind, hnone]
  rw [encodeFrom, range_succ (List.getElem?_eq_some_iff.mp hx).1, forEach_cons, hlook]
  rfl

/-- ENT_ENCODE passes bytes that have entries by appending their codes. -/
theorem encodeFrom_eq_appendAll (hdrop : IN.drop j = pre ++ post) (hentries : ∀ y ∈ pre, tableGet C y ≠ none) :
    encodeFrom cfg IN C j OUT =
      (appendAll cfg OUT (codedBits C pre)).bind (encodeFrom cfg IN C (j + pre.length)) := by
  induction pre generalizing j OUT with
  | nil => rfl
  | cons y pre ih =>
    obtain ⟨hy, hpre⟩ := List.forall_mem_cons.mp hentries
    obtain ⟨code, hcode⟩ := Option.ne_none_iff_exists'.mp hy
    obtain ⟨hread, hdrop'⟩ := getElem?_of_drop_eq_cons hdrop
    have hbits : codedBits C (y :: pre) = code ++ codedBits C pre := by simp [codedBits, hcode]
    rw [encodeFrom_of_entry hread hcode, hbits, appendAll_append, Run.bind_assoc, List.length_cons,
      Nat.add_comm pre.length, ← Nat.add_assoc]
    exact Run.bind_congr fun OUT' _ => ih hdrop' hpre

theorem length_codedBits (C : CodeTable) (xs : List Byte) : (codedBits C xs).length = codedLength C xs :=
  List.length_flatMap

end EntEncode

/-- Behind bytes that have entries, ENT_ENCODE goes on where the bits they have are within the cap, and answers with
`CapacityExceeded` where they are more (43_entropy_codec.md R187; 60_exceptions.md R215). -/
theorem exec_entEncode_of_entries {s : State} {c : Command} {rest : List Command} {pre post : List Byte}
    (hc : s.commands = c :: rest) (hin : AtMost s.config.MAX_INPUT_LEN c.OPS.IN.length) (hIN : c.OPS.IN = pre ++ post)
    (hentries : ∀ y ∈ pre, tableGet c.OPS.C y ≠ none) :
    (WithinCap s.config (codedLength c.OPS.C pre) → exec .entEncode s =
      finish s ((encodeFrom s.config c.OPS.IN c.OPS.C pre.length (codedBits c.OPS.C pre)).map .bits)) ∧
    (∀ k, s.config.OUTPUT_CAP = some k → k < codedLength c.OPS.C pre →
      exec .entEncode s = .next (afterAnswer s { STATUS := 5, RES := .info k })) := by
  rw [exec_of_passes hc (by simp [OperandCheckFails, hin]), commandBody, entEncodeBody, entEncode_eq_encodeFrom,
    encodeFrom_eq_appendAll (j := 0) hIN hentries, Nat.zero_add, ← length_codedBits]
  exact finish_appendAll_bind s (codedBits c.OPS.C pre) _ .bits

/-! ## ENT_DECODE (43_entropy_codec.md R191 to R194) -/

section EntDecode

variable {cfg : Config} {BITS p post : List Bit} {T n m : Node} {r : EntDecodeRegs} {b : Bit} {x : Byte}

/-- ENT_DECODE from the bit that its registers stand before. -/
def decodeFrom (cfg : Config) (BITS : List Bit) (T : Node) (r : EntDecodeRegs) : Run EntDecodeRegs :=
  forEach (range r.j BITS.length) r (entDecodeBit cfg BITS T)

/-- The registers with the walker at the root, before bit `j`, with the output `OUT` (43_entropy_codec.md R191). -/
def atRoot (T : Node) (j : Nat) (OUT : List Byte) : EntDecodeRegs := { cur := T, depth := 0, j := j, OUT := OUT }

/-- The registers after `k` bits that have led the walker to `n`, below where it stood. -/
def EntDecodeRegs.below (r : EntDecodeRegs) (n : Node) (k : Nat) : EntDecodeRegs :=
  { r with cur := n, depth := r.depth + k, j := r.j + k }

@[simp] theorem atRoot_cur (T : Node) (j : Nat) (OUT : List Byte) : (atRoot T j OUT).cur = T := rfl
@[simp] theorem atRoot_depth (T : Node) (j : Nat) (OUT : List Byte) : (atRoot T j OUT).depth = 0 := rfl
@[simp] theorem atRoot_j (T : Node) (j : Nat) (OUT : List Byte) : (atRoot T j OUT).j = j := rfl
@[simp] theorem atRoot_OUT (T : Node) (j : Nat) (OUT : List Byte) : (atRoot T j OUT).OUT = OUT := rfl

@[simp] theorem below_cur (r : EntDecodeRegs) (n : Node) (k : Nat) : (r.below n k).cur = n := rfl
@[simp] theorem below_depth (r : EntDecodeRegs) (n : Node) (k : Nat) : (r.below n k).depth = r.depth + k := rfl
@[simp] theorem below_j (r : EntDecodeRegs) (n : Node) (k : Nat) : (r.below n k).j = r.j + k := rfl
@[simp] theorem below_OUT (r : EntDecodeRegs) (n : Node) (k : Nat) : (r.below n k).OUT = r.OUT := rfl

theorem below_below (r : EntDecodeRegs) (m n : Node) (i k : Nat) : (r.below m i).below n k = r.below n (i + k) := by
  simp [EntDecodeRegs.below, Nat.add_assoc]

/-- Only an internal node has a node below it. -/
theorem isLeaf_eq_false_of_childOf (h : childOf n b = some m) : isLeaf n = false := by
  refine Bool.eq_false_of_not_eq_true fun hleaf => ?_
  rw [childOf_of_isLeaf hleaf] at h
  cases h

/-- A path to an internal node begins at one. -/
theorem isLeaf_eq_false_of_nodeAt (hp : nodeAt m p = some n) (hn : isLeaf n = false) : isLeaf m = false := by
  refine Bool.eq_false_of_not_eq_true fun hm => ?_
  obtain ⟨-, rfl⟩ := nodeAt_of_isLeaf hm hp
  rw [hm] at hn
  cases hn

theorem entDecode_of_wf (cfg : Config) (BITS : List Bit) (h : WellFormedTree T) :
    entDecode cfg BITS T = (decodeFrom cfg BITS T (atRoot T 0 [])).bind (entDecodeEnd BITS) := by
  rw [entDecode, checkTree_of_wf h]
  rfl

theorem decodeFrom_at_end (cfg : Config) (T : Node) (h : BITS.length ≤ r.j) : decodeFrom cfg BITS T r = .ret r := by
  rw [decodeFrom, range_of_le h, forEach_nil]

/-- While a bit is left, ENT_DECODE works on it and goes on. -/
theorem decodeFrom_of_bit (hb : BITS[r.j]? = some b) :
    decodeFrom cfg BITS T r = (entDecodeBit cfg BITS T r r.j).bind (decodeFrom cfg BITS T) := by
  rw [decodeFrom, range_succ (List.getElem?_eq_some_iff.mp hb).1, forEach_cons]
  refine Run.bind_congr fun r' hr' => ?_
  rw [decodeFrom, entDecodeBit_index hr']

theorem decodeFrom_of_internal (hb : BITS[r.j]? = some b) (hn : childOf r.cur b = some n) (hleaf : isLeaf n = false) :
    decodeFrom cfg BITS T r = decodeFrom cfg BITS T (r.below n 1) := by
  simp [decodeFrom_of_bit hb, entDecodeBit, memRead_eq_ret.mpr hb, hn, hleaf, EntDecodeRegs.below]

theorem decodeFrom_of_leaf (hb : BITS[r.j]? = some b) (hn : childOf r.cur b = some n) (hleaf : isLeaf n = true)
    (hx : n.symbol = some x) : decodeFrom cfg BITS T r =
      (append cfg r.OUT x).bind fun OUT => decodeFrom cfg BITS T (atRoot T (r.j + 1) OUT) := by
  simp [decodeFrom_of_bit hb, entDecodeBit, memRead_eq_ret.mpr hb, hn, hleaf, symbolOf_eq_ret.mpr hx, Run.bind_assoc,
    atRoot]

theorem decodeFrom_of_absent (hb : BITS[r.j]? = some b) (hn : childOf r.cur b = none) :
    decodeFrom cfg BITS T r = .raise .corruptTree r.j := by
  simp [decodeFrom_of_bit hb, entDecodeBit, memRead_eq_ret.mpr hb, hn]

/-- Bits that lead to an internal node move the walker there. -/
theorem decodeFrom_of_path (hdrop : BITS.drop r.j = p ++ post) (hp : nodeAt r.cur p = some n)
    (hleaf : isLeaf n = false) : decodeFrom cfg BITS T r = decodeFrom cfg BITS T (r.below n p.length) := by
  induction p generalizing r with
  | nil => cases hp; rfl
  | cons b p ih =>
    obtain ⟨hb, hdrop'⟩ := getElem?_of_drop_eq_cons hdrop
    rw [nodeAt_cons, Option.bind_eq_some_iff] at hp
    obtain ⟨m, hm, hp⟩ := hp
    rw [decodeFrom_of_internal hb hm (isLeaf_eq_false_of_nodeAt hp hleaf), ih (r := r.below m 1) hdrop' hp, below_below,
      List.length_cons, Nat.add_comm 1]

/-- Bits that lead from an internal node to a leaf append its symbol and take the walker back to the root. -/
theorem decodeFrom_of_leafAt (hcur : isLeaf r.cur = false) (hdrop : BITS.drop r.j = p ++ post)
    (hp : LeafAt r.cur p x) : decodeFrom cfg BITS T r =
      (append cfg r.OUT x).bind fun OUT => decodeFrom cfg BITS T (atRoot T (r.j + p.length) OUT) := by
  obtain ⟨n, hn, hleaf, hx⟩ := leafAt_iff.mp hp
  rcases List.eq_nil_or_concat p with rfl | ⟨q, b, rfl⟩
  · cases hn
    rw [hcur] at hleaf
    cases hleaf
  · rw [List.concat_eq_append, nodeAt_append, Option.bind_eq_some_iff] at hn
    obtain ⟨m, hm, hb⟩ := hn
    have hchild : childOf m b = some n := by simpa [nodeAt_cons] using hb
    have hdrop' : BITS.drop r.j = q ++ b :: post := by simpa using hdrop
    have hread : BITS[(r.below m q.length).j]? = some b := by
      simpa [hdrop'] using (List.getElem?_drop (xs := BITS) (i := r.j) (j := q.length)).symm
    rw [decodeFrom_of_path hdrop' hm (isLeaf_eq_false_of_childOf hchild), decodeFrom_of_leaf hread hchild hleaf hx]
    simp [Nat.add_assoc]

/-- Bits that spell `xs` append `xs`, and take the walker from the root back to it. -/
theorem decodeFrom_of_spells {bits : List Bit} {xs OUT : List Byte} {j : Nat} (hT : isLeaf T = false)
    (hdrop : BITS.drop j = bits ++ post) (hspells : Spells T xs bits) :
    decodeFrom cfg BITS T (atRoot T j OUT) =
      (appendAll cfg OUT xs).bind fun OUT => decodeFrom cfg BITS T (atRoot T (j + bits.length) OUT) := by
  induction xs generalizing bits j OUT with
  | nil => cases hspells; rfl
  | cons x xs ih =>
    obtain ⟨p, q, rfl, hp, hq⟩ := hspells
    have hdrop' : BITS.drop (j + p.length) = q ++ post := by
      rw [← List.drop_drop, hdrop, List.append_assoc, List.drop_left]
    rw [decodeFrom_of_leafAt (r := atRoot T j OUT) hT (hdrop.trans (List.append_assoc ..)) hp, appendAll_cons,
      Run.bind_assoc, List.length_append, ← Nat.add_assoc]
    exact Run.bind_congr fun OUT' _ => ih hdrop' hq

theorem entDecodeEnd_atRoot (BITS : List Bit) (T : Node) (j : Nat) (OUT : List Byte) :
    entDecodeEnd BITS (atRoot T j OUT) = .ret OUT := rfl

theorem entDecodeEnd_of_inside (h : 0 < r.depth) : entDecodeEnd BITS r = .raise .truncatedInput BITS.length := if_pos h

end EntDecode

/-- Behind bits that spell `xs`, ENT_DECODE goes on from the root where `xs` is within the cap, and answers with
`CapacityExceeded` where it is longer (43_entropy_codec.md R191; 60_exceptions.md R215). -/
theorem exec_entDecode_of_spells {s : State} {c : Command} {rest : List Command} {xs : List Byte}
    {bits post : List Bit} (hc : s.commands = c :: rest) (hin : AtMost s.config.MAX_INPUT_LEN c.OPS.BITS.length)
    (hT : WellFormedTree c.OPS.T) (hBITS : c.OPS.BITS = bits ++ post) (hspells : Spells c.OPS.T xs bits) :
    (WithinCap s.config xs.length → exec .entDecode s =
      finish s (((decodeFrom s.config c.OPS.BITS c.OPS.T (atRoot c.OPS.T bits.length xs)).bind
        (entDecodeEnd c.OPS.BITS)).map .bytes)) ∧
    (∀ k, s.config.OUTPUT_CAP = some k → k < xs.length →
      exec .entDecode s = .next (afterAnswer s { STATUS := 5, RES := .info k })) := by
  rw [exec_of_passes hc (by simp [OperandCheckFails, hin]), commandBody, entDecodeBody, entDecode_of_wf _ _ hT,
    decodeFrom_of_spells (j := 0) (isLeaf_eq_false_of_hasChild hT.root_internal) hBITS hspells, Nat.zero_add,
    Run.bind_assoc]
  exact finish_appendAll_bind s xs _ .bytes

/-! ## The codes of an input spell it (43_entropy_codec.md R197) -/

theorem IsCodeTableOf.entry_of_leafAt {T : Node} {C : CodeTable} {x : Byte} (hC : IsCodeTableOf T C)
    (hx : ∃ p, LeafAt T p x) : tableGet C x ≠ none := by
  obtain ⟨p, hp⟩ := hx
  exact Option.ne_none_iff_exists'.mpr ⟨p, (hC x p).mpr hp⟩

theorem IsCodeTableOf.spells_codedBits {T : Node} {C : CodeTable} (hC : IsCodeTableOf T C) {xs : List Byte}
    (hxs : ∀ x ∈ xs, ∃ p, LeafAt T p x) : Spells T xs (codedBits C xs) := by
  induction xs with
  | nil => rfl
  | cons x xs ih =>
    obtain ⟨⟨p, hp⟩, hxs⟩ := List.forall_mem_cons.mp hxs
    exact ⟨p, codedBits C xs, by simp [codedBits, (hC x p).mpr hp], hp, ih hxs⟩

/-! ## The statements -/

/-- Settles O41: the walk of a tree whose leaves carry symbols returns. -/
theorem codeTableHoldsThePaths : Obligations.CodeTableHoldsThePaths := by
  intro s c rest hc hT
  obtain ⟨C, hrun, hC⟩ := codeTable_of_wf hT
  refine ⟨C, ?_, hC⟩
  rw [exec_of_passes hc (by simp [OperandCheckFails]), commandBody, codeTableBody, hrun]
  rfl

/-- Settles O42: codes are paths to leaves, and no path goes on below a leaf. -/
theorem codesArePrefixFree : Obligations.CodesArePrefixFree := fun _ _ _ _ hc h =>
  codeTable_prefixFree (codeTable_of_ok hc h)

/-- Settles O43: a code is a path to a leaf, so what R160 says of the depth bounds its length. -/
theorem codeLengthsAreBounded : Obligations.CodeLengthsAreBounded := by
  refine ⟨fun s c rest C hc h x p hx => ?_, fun cfg ops T h => ?_⟩
  · obtain ⟨hnonempty, -⟩ := codesArePrefixFree s c rest C hc h
    exact List.length_pos_iff.mpr fun hp => hnonempty x (hp ▸ hx)
  · rw [step_presenting] at h
    have hbuild : (presenting cfg .buildTree ops).commands = [{ CMD := encode .buildTree, OPS := ops }] := rfl
    obtain ⟨C, hcodes, hC⟩ := codeTableHoldsThePaths (presenting cfg .codeTable { ops with T := T }) _ [] rfl
      (wellFormedTree_of_ok hbuild h)
    refine ⟨C, (step_presenting ..).trans hcodes, fun x p hx => ?_⟩
    have hp : LeafAt T p x := (hC x p).mp hx
    obtain ⟨-, -, hmany, hone⟩ := treeSizeAndDepth _ _ [] T hbuild h
    have hpos : 0 < tableGet ops.F x := (isTreeOf_of_ok hbuild h).exists_leafAt_iff.mp ⟨p, hp⟩
    have hk : 0 < distinctSymbols ops.F := List.length_pos_of_mem (mem_countedSymbols.mpr hpos)
    have hmax := distinctSymbols_le ops.F
    rcases Nat.lt_or_ge (distinctSymbols ops.F) 2 with hlt | hge
    · obtain ⟨-, hdepth⟩ := hone (show distinctSymbols ops.F = 1 by omega)
      have hlen := hdepth p x hp
      omega
    · obtain ⟨-, -, -, hdepth⟩ := hmany hge
      have hlen : p.length ≤ distinctSymbols ops.F - 1 := hdepth p x hp
      omega

/-- Settles O40: both commands make the tree check before anything else they do. -/
theorem corruptTreesAreAnswered : Obligations.CorruptTreesAreAnswered := by
  intro s c rest hc hT
  refine ⟨?_, fun hin => ?_⟩
  · rw [exec_of_passes hc (by simp [OperandCheckFails]), commandBody, codeTableBody, codeTable, checkTree_of_not_wf hT]
    rfl
  · rw [exec_of_passes hc (by simp [OperandCheckFails, hin]), commandBody, entDecodeBody, entDecode,
      checkTree_of_not_wf hT]
    rfl

/-- Settles O44: behind all its bytes ENT_ENCODE ends. -/
theorem entEncodeJoinsTheCodes : Obligations.EntEncodeJoinsTheCodes := by
  intro s c rest hc hin hentries
  obtain ⟨hwithin, hpast⟩ := exec_entEncode_of_entries hc hin (List.append_nil _).symm hentries
  refine ⟨length_codedBits _ _, fun hcap => ?_, hpast⟩
  rw [hwithin hcap, encodeFrom_at_end]
  rfl

/-- Settles O45: behind the bytes that have entries ENT_ENCODE looks up the one that has none. -/
theorem unknownSymbolsAreAnswered : Obligations.UnknownSymbolsAreAnswered := by
  intro s c rest pre post x hc hin hIN hentries hnone
  obtain ⟨hwithin, hpast⟩ := exec_entEncode_of_entries hc hin hIN hentries
  refine ⟨fun hcap => ?_, hpast⟩
  rw [hwithin hcap, encodeFrom_of_no_entry (x := x) (by simp [hIN]) hnone]
  rfl

/-- Settles O47: behind all the bits ENT_DECODE ends with the walker at the root. -/
theorem entDecodeReadsTheCodes : Obligations.EntDecodeReadsTheCodes := by
  intro s c rest xs hc hin hT hspells
  obtain ⟨hwithin, hpast⟩ := exec_entDecode_of_spells hc hin hT (List.append_nil _).symm hspells
  refine ⟨fun hcap => ?_, hpast⟩
  rw [hwithin hcap, decodeFrom_at_end _ _ le_rfl, Run.ret_bind, entDecodeEnd_atRoot]
  rfl

/-- Settles O48: behind the path the walker stands as deep as the path is long. -/
theorem bitsThatEndInsideACode : Obligations.BitsThatEndInsideACode := by
  intro s c rest xs bits p n hc hin hT hBITS hspells hp hn
  obtain ⟨hwithin, hpast⟩ := exec_entDecode_of_spells hc hin hT hBITS hspells
  have hleaf : isLeaf n = false := isLeaf_eq_false_of_hasChild hn
  have hdrop : c.OPS.BITS.drop bits.length = p ++ [] := by simp [hBITS]
  refine ⟨fun hcap => ⟨fun hinside => ?_, fun hroot => ?_⟩, hpast⟩
  · rw [hwithin hcap, decodeFrom_of_path (r := atRoot c.OPS.T bits.length xs) hdrop hp hleaf,
      decodeFrom_at_end _ _ (by simp [hBITS]), Run.ret_bind,
      entDecodeEnd_of_inside (by simpa using List.length_pos_iff.mpr hinside)]
    rfl
  · rw [hroot, List.append_nil] at hBITS
    exact (entDecodeReadsTheCodes s c rest xs hc hin hT (hBITS ▸ hspells)).1 hcap

/-- Settles O49: behind the path the walker takes the bit at the node the path leads to. -/
theorem bitsThatSelectAnAbsentChild : Obligations.BitsThatSelectAnAbsentChild := by
  intro s c rest xs bits p more b n hc hin hT hBITS hspells hp hn habsent
  rw [List.append_assoc] at hBITS
  obtain ⟨hwithin, hpast⟩ := exec_entDecode_of_spells hc hin hT hBITS hspells
  have hleaf : isLeaf n = false := isLeaf_eq_false_of_hasChild hn
  have hdrop : c.OPS.BITS.drop bits.length = p ++ b :: more := by simp [hBITS]
  have hread : c.OPS.BITS[bits.length + p.length]? = some b := by simp [hBITS]
  have hchild : childOf n b = none := habsent
  refine ⟨fun hcap => ?_, hpast⟩
  rw [hwithin hcap, decodeFrom_of_path (r := atRoot c.OPS.T bits.length xs) hdrop hp hleaf,
    decodeFrom_of_absent (b := b) hread hchild]
  rfl

/-- Settles O50: no bits spell no byte, and no byte has no bits. -/
theorem emptyBitsAndEmptyInput : Obligations.EmptyBitsAndEmptyInput := by
  intro s c rest hc
  refine ⟨fun hBITS hT => ?_, fun hIN => ?_⟩
  · obtain ⟨hwithin, -⟩ := entDecodeReadsTheCodes s c rest [] hc (by simp [hBITS]) hT hBITS
    exact hwithin (withinCap_zero _)
  · obtain ⟨-, hwithin, -⟩ := entEncodeJoinsTheCodes s c rest hc (by simp [hIN]) (by simp [hIN])
    rw [hIN] at hwithin
    exact hwithin (withinCap_zero _)

/-- Settles O51: the codes that CODE_TABLE answers with, joined as ENT_ENCODE joins them, spell the input. -/
theorem entropyRoundTripForAnyTree : Obligations.EntropyRoundTripForAnyTree := by
  intro cfg ops T xs hcap hmax hT hxs
  have hlen : ∀ n, AtMost cfg.MAX_INPUT_LEN n := fun n m hm => by rw [hmax] at hm; cases hm
  obtain ⟨C, hcodes, hC⟩ := codeTableHoldsThePaths (presenting cfg .codeTable { ops with T := T }) _ [] rfl hT
  obtain ⟨-, hencode, -⟩ := entEncodeJoinsTheCodes (presenting cfg .entEncode { ops with IN := xs, C := C }) _ [] rfl
    (hlen _) fun x hx => hC.entry_of_leafAt (hxs x hx)
  obtain ⟨hdecode, -⟩ := entDecodeReadsTheCodes
    (presenting cfg .entDecode { ops with BITS := codedBits C xs, T := T }) _ [] xs rfl (hlen _) hT
    (hC.spells_codedBits hxs)
  exact ⟨C, codedBits C xs, (step_presenting ..).trans hcodes,
    (step_presenting ..).trans (hencode (withinCap_of_none hcap _)),
    (step_presenting ..).trans (hdecode (withinCap_of_none hcap _))⟩

/-- Settles O52: every byte of the input is counted, so it has a leaf in the tree of the counts. -/
theorem entropyRoundTrip : Obligations.EntropyRoundTrip := by
  intro cfg ops xs hcap hmax hbits hne
  have hlen : AtMost cfg.MAX_INPUT_LEN xs.length := fun m hm => by rw [hmax] at hm; cases hm
  obtain ⟨F, hfreq, hcount, -⟩ := freqCountCountsEachByte (presenting cfg .freqCount { ops with IN := xs }) _ [] rfl
    hlen
  have hcounted : ∀ x ∈ xs, 0 < tableGet F x := fun x hx => by
    rw [hcount]
    exact List.count_pos_iff.mpr hx
  have hfit : CountsFit cfg F := fun bits hsome => by rw [hbits] at hsome; cases hsome
  obtain ⟨y, hy⟩ := List.exists_mem_of_ne_nil xs hne
  obtain ⟨T, hbuild, hT, hleaves, -⟩ := buildTreeAnswersAWellFormedTree
    (presenting cfg .buildTree { ops with F := F }) _ [] rfl ⟨y, hcounted y hy⟩ hfit
  obtain ⟨C, bits, hcodes, hencode, hdecode⟩ := entropyRoundTripForAnyTree cfg ops T xs hcap hmax hT
    fun x hx => (hleaves x).mpr (hcounted x hx)
  exact ⟨F, T, C, bits, (step_presenting ..).trans hfreq, (step_presenting ..).trans hbuild, hcodes, hencode, hdecode⟩

end Sys2Proof.Machine

/-!
PROOFS of the statements of 70_reset_and_hazards.md: an idle block with no command issued waits, and a newly built block
meets the invariant. With O10, every state the steps then lead to meets it as well.
-/

namespace Sys2Proof.Machine

/-- A newly built block has delivered no answer, whatever its configuration (70_reset_and_hazards.md R240, R242). -/
theorem build_inv (cfg : Config) : Inv (State.build cfg) where
  left := rfl
  right _ hr := absurd hr List.not_mem_nil

/-- Settles O6, from the equation of `step` where no command is issued. -/
theorem idleInstanceWaits : Obligations.IdleInstanceWaits := fun _ => step_idle_nil

/-- Settles O9: the state after reset is the block built with the default configuration. -/
theorem resetMeetsTheInvariant : Obligations.ResetMeetsTheInvariant := build_inv Config.default

end Sys2Proof.Machine
